-- ==== Sys2Proof/Word.lean ====
section
/-! DEFINITION. The machine's two widths (rule R8): a word of 16 bits and a byte of 8 bits. The manual numbers the bits of a
word 0 to 15 from the most significant; field extraction in that numbering is in Machine/Bits.lean. -/

namespace Sys2Proof

/-- A 16-bit word: the contents of a register or of a memory location, an address, an instruction (R8, R11). -/
abbrev Word := BitVec 16

/-- An 8-bit byte: half of a word, a displacement, a device number, a status byte (R8). -/
abbrev Byte := BitVec 8

end Sys2Proof
end

