-- ==== Sys2Proof/Syntax.lean ====
section
/-! DEFINITION. The instructions of the machine as data: one constructor for each row of spec/opcode_table.json, with the
operands its format gives it (rules R90 to R94, R104 to R107). -/

namespace Sys2Proof

/-- The eight general registers, addressed 0 to 7 in this order (R21). -/
inductive Reg where
  | z | p | l | t | x1 | x2 | e | a
  deriving DecidableEq, Repr

/-- How the reference address is formed, the R and S bits with the displacement (R92, R100 step 1). -/
inductive AddrForm where
  /-- R = 0, S = 0: the displacement itself. -/
  | nonrelative (d : Byte)
  /-- R = 0, S = 1: the displacement plus X2 (pre-indexing). -/
  | baseRelative (d : Byte)
  /-- R = 1: the instruction's own address plus the 9-bit two's complement integer of bits 7 to 15. -/
  | selfRelative (k : BitVec 9)
  deriving DecidableEq, Repr

/-- The operand of a memory-reference instruction (R92): the form of the reference address, the I bit and the X bit. -/
structure MemRef where
  form : AddrForm
  indirect : Bool
  indexed : Bool
  deriving DecidableEq, Repr

/-- The four operations of the copy instruction, bits 4 and 5 (R94). -/
inductive CopyOp where
  | and | or | xor | add
  deriving DecidableEq, Repr

/-- The operands of a copy instruction, bits 9 to 15 (R94): DR, IS and SR. -/
structure CopyArgs where
  dst : Reg
  invert : Bool
  src : Reg
  deriving DecidableEq, Repr

/-- The instructions. A mnemonic of the copy family fixes bits 4 to 8 (R106); `copy` stands for the settings without a
mnemonic (R202). `sio` to `aio` are the canonical words of READ DIRECT whose effective address is a fixed I/O function (R107);
an `rd` whose effective address computes to the same value performs the same function. -/
inductive Instr where
  | wd (m : MemRef)
  | rd (m : MemRef)
  | s (m : MemRef)
  | mul (m : MemRef)
  | b (m : MemRef)
  | div (m : MemRef)
  | lda (m : MemRef)
  | and (m : MemRef)
  | add (m : MemRef)
  | sub (m : MemRef)
  | ldx (m : MemRef)
  | cp (m : MemRef)
  | sta (m : MemRef)
  | im (m : MemRef)
  | bno (k : BitVec 9)
  | bnc (k : BitVec 9)
  | baz (k : BitVec 9)
  | bix (k : BitVec 9)
  | bxno (k : BitVec 9)
  | bxnc (k : BitVec 9)
  | ben (k : BitVec 9)
  | ban (k : BitVec 9)
  | rcpy (c : CopyArgs)
  | radd (c : CopyArgs)
  | ror (c : CopyArgs)
  | reor (c : CopyArgs)
  | rand (c : CopyArgs)
  | rcpyi (c : CopyArgs)
  | raddi (c : CopyArgs)
  | rori (c : CopyArgs)
  | reori (c : CopyArgs)
  | randi (c : CopyArgs)
  | rcpyc (c : CopyArgs)
  | raddc (c : CopyArgs)
  | rorc (c : CopyArgs)
  | reorc (c : CopyArgs)
  | randc (c : CopyArgs)
  | copy (op : CopyOp) (ac ai cd : Bool) (c : CopyArgs)
  | sio
  | tio
  | tdv
  | hio
  | aio
  deriving DecidableEq, Repr

end Sys2Proof
end

