-- ==== Sys2Proof/Machine/Bits.lean ====
section
/-! DEFINITION. Bit fields in the manual's numbering, sign and zero extension, and the two bytes of a word (rules R8, R9, R12,
R66). -/

namespace Sys2Proof.Machine

/-- `v<i>`: bit i of a word in the manual's numbering, bit 0 the most significant (R9). -/
def bitAt (v : Word) (i : Nat) : Bool := v.getMsbD i

/-- `v<i:j>` as a number: manual bits i to j of a word, bit i the most significant (R9). -/
def field (v : Word) (i j : Nat) : Nat := v.toNat / 2 ^ (15 - j) % 2 ^ (j - i + 1)

/-- Byte 0 of a word, manual bits 0 to 7, mask X'FF00' (R66). -/
def byte0 (v : Word) : Byte := v.extractLsb' 8 8

/-- Byte 1 of a word, manual bits 8 to 15, mask X'00FF' (R66). -/
def byte1 (v : Word) : Byte := v.extractLsb' 0 8

/-- The word whose byte 0 and byte 1 are given (R66). -/
def joinBytes (b0 b1 : Byte) : Word := b0 ++ b1

/-- `zext_16` of a displacement (R12). -/
def zext (d : Byte) : Word := d.setWidth 16

/-- `sext_9`: the 9-bit two's complement value of instruction bits 7 to 15 extended to 16 bits (R12). -/
def sext9 (k : BitVec 9) : Word := k.signExtend 16

end Sys2Proof.Machine
end

