-- ==== Sys2Proof/WellFormed.lean ====
section
/-! DEFINITION. Which terms of `Instr` name an instruction as the decoder names it. Every word is a defined instruction (R109),
and the types already bound every field, so there are two checks: a copy setting that has a mnemonic is written with the
mnemonic (R106, R202), and the five canonical I/O words are written as SIO, TIO, TDV, HIO, AIO (R107). -/

namespace Sys2Proof

/-- The fifteen settings of bits 4 to 8 that have a mnemonic (R106): CD with OR and not both AC and AI, or no CD and not both
AC and AI. -/
def copyHasMnemonic (op : CopyOp) (ac ai cd : Bool) : Bool :=
  !(ac && ai) && (!cd || op == .or)

/-- The displacements of the nonrelative, direct, unindexed READ DIRECT words that are the five I/O instructions (R107). -/
def isIoDisplacement (d : Byte) : Bool :=
  d == 0x41 || d == 0x42 || d == 0x44 || d == 0x48 || d == 0x50

/-- A READ DIRECT operand whose word is one of X'1041', X'1042', X'1044', X'1048', X'1050' (R107). -/
def MemRef.isIoWord (m : MemRef) : Bool :=
  match m.form with
  | .nonrelative d => !m.indirect && !m.indexed && isIoDisplacement d
  | .baseRelative _ => false
  | .selfRelative _ => false

/-- The instruction is written under the name the decoder gives its word. -/
def Instr.wf : Instr → Bool
  | .rd m => !m.isIoWord
  | .copy op ac ai cd _ => !copyHasMnemonic op ac ai cd
  | _ => true

end Sys2Proof
end

