-- ==== Sys2Proof/Decode.lean ====
section
/-! DEFINITION. The decoder, total on every word (R109: every 16-bit word is a defined instruction) and on every list of bytes
(too few bytes are rejected by name), and after it the encoder, written from the same formats (rules R92 to R95, R104 to
R107). -/

namespace Sys2Proof

/-- Why a list of bytes holds no instruction. -/
inductive DecodeError where
  /-- Fewer than the two bytes of one instruction word (R90). -/
  | truncated
  deriving DecidableEq, Repr

/-- The register a three-bit field names (R21). -/
def decodeReg (n : BitVec 3) : Reg :=
  match n.toNat with
  | 0 => .z
  | 1 => .p
  | 2 => .l
  | 3 => .t
  | 4 => .x1
  | 5 => .x2
  | 6 => .e
  | _ => .a

/-- The operand of a memory-reference word: R, I, X, S and the displacement (R92, R95). -/
def decodeMemRef (w : Word) : MemRef where
  form :=
    if w.getLsbD 11 then .selfRelative (w.extractLsb' 0 9)
    else if w.getLsbD 8 then .baseRelative (w.extractLsb' 0 8)
    else .nonrelative (w.extractLsb' 0 8)
  indirect := w.getLsbD 10
  indexed := w.getLsbD 9

/-- The operands of a copy word: DR, IS, SR (R94, R95). -/
def decodeCopyArgs (w : Word) : CopyArgs where
  dst := decodeReg (w.extractLsb' 4 3)
  invert := w.getLsbD 3
  src := decodeReg (w.extractLsb' 0 3)

/-- The copy operation of bits 4 and 5 (R94). -/
def decodeCopyOp (n : BitVec 2) : CopyOp :=
  match n.toNat with
  | 0 => .and
  | 1 => .or
  | 2 => .xor
  | _ => .add

/-- Operation code X'6': bits 4 to 6 select the condition, bits 7 to 15 are the offset (R93, R105). -/
def decodeBranch (w : Word) : Instr :=
  let k : BitVec 9 := w.extractLsb' 0 9
  match (w.extractLsb' 9 3).toNat with
  | 0 => .bno k
  | 1 => .bnc k
  | 2 => .baz k
  | 3 => .bix k
  | 4 => .bxno k
  | 5 => .bxnc k
  | 6 => .ben k
  | _ => .ban k

/-- Operation code X'7': the fifteen named settings of bits 4 to 8, and the seventeen without a name (R94, R106, R202). -/
def decodeCopy (w : Word) : Instr :=
  let c := decodeCopyArgs w
  let op := decodeCopyOp (w.extractLsb' 10 2)
  match op, w.getLsbD 9, w.getLsbD 8, w.getLsbD 7 with
  | .and, false, false, false => .rand c
  | .and, false, true, false => .randi c
  | .and, true, false, false => .randc c
  | .or, false, false, false => .ror c
  | .or, false, true, false => .rori c
  | .or, true, false, false => .rorc c
  | .or, false, false, true => .rcpy c
  | .or, false, true, true => .rcpyi c
  | .or, true, false, true => .rcpyc c
  | .xor, false, false, false => .reor c
  | .xor, false, true, false => .reori c
  | .xor, true, false, false => .reorc c
  | .add, false, false, false => .radd c
  | .add, false, true, false => .raddi c
  | .add, true, false, false => .raddc c
  | op, ac, ai, cd => .copy op ac ai cd c

/-- Operation code X'1': READ DIRECT, or one of the five I/O instructions where the word alone fixes the effective address
(R107). -/
def decodeReadDirect (w : Word) : Instr :=
  match w.toNat with
  | 0x1041 => .sio
  | 0x1042 => .tio
  | 0x1044 => .tdv
  | 0x1048 => .hio
  | 0x1050 => .aio
  | _ => .rd (decodeMemRef w)

/-- The instruction a word stands for: bits 0 to 3 give the operation code (R90, R104). -/
def decode (w : Word) : Instr :=
  match (w.extractLsb' 12 4).toNat with
  | 0x0 => .wd (decodeMemRef w)
  | 0x1 => decodeReadDirect w
  | 0x2 => .s (decodeMemRef w)
  | 0x3 => .mul (decodeMemRef w)
  | 0x4 => .b (decodeMemRef w)
  | 0x5 => .div (decodeMemRef w)
  | 0x6 => decodeBranch w
  | 0x7 => decodeCopy w
  | 0x8 => .lda (decodeMemRef w)
  | 0x9 => .and (decodeMemRef w)
  | 0xA => .add (decodeMemRef w)
  | 0xB => .sub (decodeMemRef w)
  | 0xC => .ldx (decodeMemRef w)
  | 0xD => .cp (decodeMemRef w)
  | 0xE => .sta (decodeMemRef w)
  | _ => .im (decodeMemRef w)

/-- The first instruction of a list of bytes, most significant byte first (R66), with the bytes after it. -/
def decodeBytes : List Byte → Except DecodeError (Instr × List Byte)
  | b0 :: b1 :: rest => .ok (decode (Machine.joinBytes b0 b1), rest)
  | _ => .error .truncated

/-- The host's question: the instruction read from the `nbits` bits of `w`, laid out as the machine stores a word. -/
def decodeTableWord (nbits w : Nat) : Option Instr :=
  let v : Word := BitVec.ofNat 16 (w % 2 ^ nbits)
  match decodeBytes [Machine.byte0 v, Machine.byte1 v] with
  | .ok (i, _) => some i
  | .error _ => none

/-! The encoder. -/

/-- The number of a register (R21). -/
def encodeReg : Reg → BitVec 3
  | .z => 0
  | .p => 1
  | .l => 2
  | .t => 3
  | .x1 => 4
  | .x2 => 5
  | .e => 6
  | .a => 7

/-- Bits 7 to 15 of a memory-reference word: S and the displacement (R92). -/
def encodeAddrLow : AddrForm → BitVec 9
  | .nonrelative d => 0#1 ++ d
  | .baseRelative d => 1#1 ++ d
  | .selfRelative k => k

/-- The R bit (R92). -/
def encodeRelative : AddrForm → Bool
  | .nonrelative _ => false
  | .baseRelative _ => false
  | .selfRelative _ => true

/-- A memory-reference word: `oooo RIXS dddd dddd` (R92). -/
def encodeMemRef (op : BitVec 4) (m : MemRef) : Word :=
  op ++ BitVec.ofBool (encodeRelative m.form) ++ BitVec.ofBool m.indirect ++ BitVec.ofBool m.indexed
    ++ encodeAddrLow m.form

/-- A conditional-branch word: `0110 cccS dddd dddd` (R93). -/
def encodeBranch (cc : BitVec 3) (k : BitVec 9) : Word := 6#4 ++ cc ++ k

/-- Bits 4 and 5 of a copy word (R94). -/
def encodeCopyOp : CopyOp → BitVec 2
  | .and => 0
  | .or => 1
  | .xor => 2
  | .add => 3

/-- A copy word: `0111 ppci kddd vsss` (R94). -/
def encodeCopy (op : CopyOp) (ac ai cd : Bool) (c : CopyArgs) : Word :=
  7#4 ++ encodeCopyOp op ++ BitVec.ofBool ac ++ BitVec.ofBool ai ++ BitVec.ofBool cd
    ++ encodeReg c.dst ++ BitVec.ofBool c.invert ++ encodeReg c.src

/-- The word of an instruction (R104, R105, R106, R107). -/
def encode : Instr → Word
  | .wd m => encodeMemRef 0x0 m
  | .rd m => encodeMemRef 0x1 m
  | .s m => encodeMemRef 0x2 m
  | .mul m => encodeMemRef 0x3 m
  | .b m => encodeMemRef 0x4 m
  | .div m => encodeMemRef 0x5 m
  | .lda m => encodeMemRef 0x8 m
  | .and m => encodeMemRef 0x9 m
  | .add m => encodeMemRef 0xA m
  | .sub m => encodeMemRef 0xB m
  | .ldx m => encodeMemRef 0xC m
  | .cp m => encodeMemRef 0xD m
  | .sta m => encodeMemRef 0xE m
  | .im m => encodeMemRef 0xF m
  | .bno k => encodeBranch 0 k
  | .bnc k => encodeBranch 1 k
  | .baz k => encodeBranch 2 k
  | .bix k => encodeBranch 3 k
  | .bxno k => encodeBranch 4 k
  | .bxnc k => encodeBranch 5 k
  | .ben k => encodeBranch 6 k
  | .ban k => encodeBranch 7 k
  | .rcpy c => encodeCopy .or false false true c
  | .radd c => encodeCopy .add false false false c
  | .ror c => encodeCopy .or false false false c
  | .reor c => encodeCopy .xor false false false c
  | .rand c => encodeCopy .and false false false c
  | .rcpyi c => encodeCopy .or false true true c
  | .raddi c => encodeCopy .add false true false c
  | .rori c => encodeCopy .or false true false c
  | .reori c => encodeCopy .xor false true false c
  | .randi c => encodeCopy .and false true false c
  | .rcpyc c => encodeCopy .or true false true c
  | .raddc c => encodeCopy .add true false false c
  | .rorc c => encodeCopy .or true false false c
  | .reorc c => encodeCopy .xor true false false c
  | .randc c => encodeCopy .and true false false c
  | .copy op ac ai cd c => encodeCopy op ac ai cd c
  | .sio => 0x1041
  | .tio => 0x1042
  | .tdv => 0x1044
  | .hio => 0x1048
  | .aio => 0x1050

end Sys2Proof
end

