-- ==== Sys2Proof/Config.lean ====
section
/-! DEFINITION. What an installation fixes (the parameters of rule R6 and of spec/93_implementation_defined.md section 5), and the
free values: constants without a body, about whose values nothing can be proved. A configuration is plain data held in the
state (`State.cfg`), so that a statement about every state is a statement about every configuration; no step changes it. -/

namespace Sys2Proof

/-- The PARITY ERROR switches: right switch IGNORE, or NORMAL with the left switch at HALT or INTERRUPT (R6, R372). -/
inductive ParitySwitch where
  | ignore | halt | interrupt
  deriving DecidableEq, Repr

/-- The integral interrupt levels installed: none, the set 1 and 2, or both sets 1 to 4 (R6 `OPT_INTEGRAL`). -/
inductive IntegralSet where
  | none | two | four
  deriving DecidableEq, Repr

/-- A group of the priority chain after the override and counter group (R314): the input/output group, or external group
5 + `g`. -/
inductive Group where
  | inputOutput
  | external (g : Fin 8)
  deriving DecidableEq, Repr

/-- An interrupt level (R312). A `counter n` is the manual's counter n + 1, a `counterZero n` its counter-equals-zero level, an
`integral n` its integral n + 1, and `external g i` level i + 1 of external group g + 5. -/
inductive Level where
  | powerOn
  | powerOff
  | counter (n : Fin 4)
  | memoryParity
  | protection
  | multiply
  | divide
  | inputOutput
  | controlPanel
  | counterZero (n : Fin 4)
  | integral (n : Fin 4)
  | external (g : Fin 8) (i : Fin 16)
  deriving DecidableEq, Repr

/-- The Watchdog Timer of an installation that has one (R6, R248, R380): the effective addresses of its three WRITE DIRECT
instructions, which the source has lost, and the level its interrupt is connected to. An address that Table 4 or the interrupt
control mode assigns keeps its assigned function. -/
structure WatchdogConfig where
  enableEa : Word
  disableEa : Word
  resetEa : Word
  level : Option Level
  deriving DecidableEq, Repr

/-- The parameters of an installation (R6). -/
structure Config where
  /-- `MEM_WORDS`: locations 0 to memWords - 1 exist. -/
  memWords : Nat
  /-- Words of integral memory, from location 0, which only the processor reaches (R61). -/
  integralWords : Nat
  /-- `OPT_MULDIV`. -/
  mulDiv : Bool
  /-- `OPT_PROTECT`. -/
  protect : Bool
  /-- `OPT_CLOCKS`: counters 4 and 3 are installed. -/
  clocks43 : Bool
  /-- `OPT_CLOCKS`: counters 2 and 1 are installed. -/
  clocks21 : Bool
  /-- `OPT_PARITY_INT`. -/
  parityInt : Bool
  /-- `OPT_POWER`. -/
  power : Bool
  /-- `OPT_INTEGRAL`. -/
  integral : IntegralSet
  /-- `EXT_GROUPS`: how many levels external group 5 + g has, 0 where it is not installed. Which ones they are is log entry 45. -/
  externals : Vector Nat 8
  /-- `GROUP_ORDER`: the chain after the override and counter group. -/
  groupOrder : List Group
  /-- `N_CHANNELS`. -/
  channels : Nat
  /-- `OPT_DIO`. -/
  directIo : Bool
  /-- `OPT_WATCHDOG`. -/
  watchdog : Option WatchdogConfig
  /-- `IOCD_DC_MASK`: the data chaining flag of an odd channel register (R265). -/
  iocdDc : Word
  /-- `IOCD_I_MASK`: the interrupt flag. -/
  iocdI : Word
  /-- `IOCD_COUNT_MASK`: the byte count. -/
  iocdCount : Word
  /-- `START`: the first address executed. -/
  start : Word
  deriving DecidableEq, Repr

/-- The levels the Watchdog Timer's interrupt can be connected to: "an integral or external level" (R380). -/
def isWatchdogLevel : Level → Bool
  | .integral _ | .external _ _ => true
  | .powerOn | .powerOff | .counter _ | .memoryParity | .protection | .multiply | .divide | .inputOutput | .controlPanel
  | .counterZero _ => false

/-- The ranges R6 gives the parameters, and what the rules ask of them together. -/
def Config.wf (c : Config) : Bool :=
  c.memWords % 4096 == 0 && 4096 ≤ c.memWords && c.memWords ≤ 65536
    && c.integralWords % 4096 == 0 && c.integralWords ≤ 16384
    && [4, 8, 12, 16, 20].contains c.channels
    && c.externals.toList.all (· ≤ 16)
    && decide c.groupOrder.Nodup && c.groupOrder.contains .inputOutput
    && (List.finRange 8).all (fun g => c.externals.get g == 0 || c.groupOrder.contains (.external g))
    && (c.watchdog.isNone || c.directIo)
    && c.watchdog.all (·.level.all isWatchdogLevel)
    && c.iocdDc &&& c.iocdI == 0 && c.iocdDc &&& c.iocdCount == 0 && c.iocdI &&& c.iocdCount == 0
    && 0x80 ≤ c.iocdCount.toNat && c.iocdCount &&& (c.iocdCount + 1) == 0 && c.iocdCount.toNat < 0x8000

/-- DESIGN CHOICE (log entry 2): the installation of the reset state. The spec's own defaults (spec/95_test_vectors.md,
Conventions; rule R314 for the order of the groups; rule R265 for the masks), and where it gives none the choice with the
fewest undefined instructions. -/
def Config.default : Config where
  memWords := 65536
  integralWords := 16384
  mulDiv := true
  protect := false
  clocks43 := true
  clocks21 := true
  parityInt := true
  power := false
  integral := .four
  externals := Vector.replicate 8 0
  groupOrder := [.inputOutput, .external 0, .external 1, .external 2, .external 3, .external 4, .external 5, .external 6,
    .external 7]
  channels := 4
  directIo := true
  watchdog := none
  iocdDc := 0x4000
  iocdI := 0x2000
  iocdCount := 0x1FFF
  start := 0

/-- A free word: the n-th word nothing in the spec determines (U12, U14; log entry 16). -/
opaque Config.freeWord : Nat → Word

/-- A free bit: the n-th bit nothing in the spec determines (U12, U14, U50; log entry 16). -/
opaque Config.freeBit : Nat → Bool

end Sys2Proof
end

