-- ==== Sys2Proof/Machine/State.lean ====
section
/-! DEFINITION. The state of the machine as plain data (rule R20: "Nothing else is architectural"), the events of its
environment, the two reasons a step can stop with, and the state after reset (rules R45, R391; decision D12). -/

namespace Sys2Proof.Machine

/-- General registers 1 to 7 (R21). Register 0 (Z) holds nothing (R22). -/
structure Regs where
  p : Word
  l : Word
  t : Word
  x1 : Word
  x2 : Word
  e : Word
  a : Word
  deriving DecidableEq, Repr

/-- The five program status indicators (R30). -/
structure Indicators where
  pp : Bool
  ii : Bool
  ei : Bool
  o : Bool
  c : Bool
  deriving DecidableEq, Repr

/-- The two state flip-flops of an interrupt level (R38, R320 to R325). -/
inductive LevelState where
  | disarmed | armed | waiting | active
  deriving DecidableEq, Repr

/-- The three flip-flops of an interrupt level (R38). -/
structure LevelFF where
  state : LevelState
  enabled : Bool
  deriving DecidableEq, Repr

/-- The COMPUTE switch (R41, R395 to R397). -/
inductive Compute where
  | idle | run | step
  deriving DecidableEq, Repr

/-- The key-operated switch (R402). -/
inductive KeySwitch where
  | unlocked | protectOn | protectOff
  deriving DecidableEq, Repr

/-- The operator's panel and the run state (R26, R41 to R43). -/
structure Panel where
  /-- The position of the COMPUTE switch; a locked key overrides it (R402, `State.computeMode`). -/
  compute : Compute
  /-- The next instruction is the word in D, not a fetched one: COMPUTE has just left IDLE (R396). -/
  firstFromD : Bool
  parityHalt : Bool
  /-- The PARITY ERROR indicator. -/
  parityLamp : Bool
  /-- The load condition indicator (R398, R289). -/
  loadCond : Bool
  /-- The S register, as far as the panel shows it (R26). -/
  sReg : Word
  /-- The D register, as far as the panel shows it (R26). -/
  dReg : Word
  /-- The sixteen DATA switches. -/
  data : Word
  /-- The PROTECT switch. -/
  protect : Bool
  parity : ParitySwitch
  /-- PROG ADD at HOLD. -/
  progAddHold : Bool
  key : KeySwitch
  deriving DecidableEq, Repr

/-- A device or device controller condition (R286): the two-bit codes 00, 01, 10, 11 in this order. -/
inductive Condition where
  | ready | notOperational | unavailable | busy
  deriving DecidableEq, Repr

/-- Where the order byte of an accepted SIO comes from: not awaited, from memory through the channel (R268), or from the
processor under the load condition (R289). -/
inductive OrderSource where
  | notAwaited | memory | processor
  deriving DecidableEq, Repr

/-- What the spec leaves to the device itself (U21, U22, U23): mode, the unassigned status bit, its answers to TDV and AIO,
whether the status an accepted SIO returns shows it before or after acceptance, and whether it reports an operation that
HIO halted as an unusual end. -/
structure DeviceOwn where
  automatic : Bool
  bit7 : Bool
  tdvStatus : Byte
  tdvCondition : Bool
  aioStatus : Byte
  aioUnusual : Bool
  sioShowsBusy : Bool
  haltUnusual : Bool
  deriving DecidableEq, Repr

/-- A device of the byte-oriented I/O system (R44, R286). -/
structure Device where
  number : Byte
  condition : Condition
  controller : Condition
  unusualEnd : Bool
  /-- A device interrupt not yet acknowledged (R275). -/
  pending : Bool
  /-- The transfer in progress still awaits its order byte (R273). -/
  order : OrderSource
  own : DeviceOwn
  deriving DecidableEq, Repr

/-- The Watchdog Timer (R46): the enabled flag; whether it has aborted the direct I/O instruction being executed; and whether it
signals an earlier abort when the instruction being executed, the one that follows, is completed (R380). -/
structure Watchdog where
  enabled : Bool
  aborted : Bool
  signalDue : Bool
  deriving DecidableEq, Repr

/-- What an external device answers to a direct READ or WRITE (R246): it acknowledges with data and two status bits, or it
never acknowledges. -/
inductive DirectAnswer where
  | acknowledge (data : Word) (o c : Bool)
  | silent
  deriving DecidableEq, Repr

/-- What the processor sends to the outside: direct I/O (R246), bytes and signals of a channel (R268, R269), the watchdog's
relay (R248). -/
inductive Sent where
  | directRead (ea : Word)
  | directWrite (ea : Word) (data : Word)
  | channelByte (dev : Byte) (b : Byte)
  | countDone (dev : Byte)
  | hangUp
  deriving DecidableEq, Repr

/-- One byte's service asked for by a device (R268). -/
inductive Transfer where
  /-- From memory to the device: the order byte, or data. -/
  | output
  /-- From the device to memory, with its parity right or wrong. -/
  | input (b : Byte) (parityOk : Bool)
  deriving DecidableEq, Repr

/-- The registers the SELECT switch chooses among (R401). -/
inductive PanelReg where
  | e | a | s | d | p | l | t | x1 | x2
  deriving DecidableEq, Repr

/-- What the outside may do between two steps (R345, D11, U47). -/
inductive Input where
  /-- A signal at the input of a level: a clock pulse, the INTERRUPT switch, power, an integral or external signal (R327). -/
  | signal (l : Level)
  /-- Another agent stores a word through an external memory port (R72, R288). -/
  | agentWrite (a v : Word)
  /-- The parity of a stored word becomes bad or good (R60, R79). -/
  | parity (a : Word) (bad : Bool)
  /-- A busy device asks for the service of one byte (R268). -/
  | service (dev : Byte) (tr : Transfer)
  /-- Channel end or unusual end with the five flags of the operational status byte (R269, R272); `ce` counts only beside a
  transmission error or an unusual end, since CE is 1 at every error-free end (U24). -/
  | ending (dev : Byte) (te il cm ce ue : Bool)
  /-- A device interrupt outside the two reasons of R271, such as device end (R275). -/
  | deviceInterrupt (dev : Byte)
  /-- A device that is not busy becomes ready, not operational or unavailable, and a controller that is not busy likewise; the two
  conditions of a single-device controller are one, `device` (R286). -/
  | deviceCondition (dev : Byte) (device controller : Condition)
  /-- The part of a device's status that is its own changes. -/
  | deviceOwn (dev : Byte) (own : DeviceOwn)
  /-- The Watchdog Timer's interval runs out (R248, R380). -/
  | watchdogExpires
  | setData (v : Word)
  | setProtect (on : Bool)
  | setParity (sw : ParitySwitch)
  | setProgAdd (hold : Bool)
  | setKey (k : KeySwitch)
  | computeIdle
  | computeRun
  | computeStep
  | initializeReset
  | initializeLoad
  | registerClear (r : PanelReg)
  | registerEnter (r : PanelReg)
  | memoryStore
  | memoryFetch
  | incrementAddress
  deriving DecidableEq, Repr

/-- The world outside the processor as data: the events to come, a batch before each step; the answers external devices will
give; what has been sent out, newest first; how many free values have been used. All four are the model's own. -/
structure Environment where
  inputs : List (List Input)
  answers : List DirectAnswer
  sent : List Sent
  freeCount : Nat
  deriving DecidableEq, Repr

/-- Core memory as a list of (address, byte) pairs in one canonical form (Machine/Memory.lean). The word at word address a is
the bytes at 2a (byte 0, bits 0 to 7) and 2a + 1 (R60, R66; log entry 3). -/
abbrev Memory := List Host.Cell

/-- The state (R20). -/
structure State where
  /-- The installation (R6); no step changes it. -/
  cfg : Config
  regs : Regs
  ind : Indicators
  /-- H, the address of the instruction being executed (R27). -/
  h : Word
  /-- Channel registers 8 to 47 (R36). -/
  chan : Vector Word 40
  /-- Protection registers 0 to 15 (R37). -/
  prot : Vector Word 16
  /-- The flip-flops of the 148 interrupt levels in the order of their locations (R38, R312). -/
  levels : Vector LevelFF 148
  /-- The wait flip-flop (R39). -/
  wff : Bool
  /-- The exit condition (R40). -/
  exitCond : Bool
  panel : Panel
  mem : Memory
  /-- The word addresses whose stored parity is bad, strictly rising (R60, R79). -/
  badParity : List Nat
  /-- The devices, highest AIO priority first (R44, R275). -/
  devices : List Device
  watchdog : Watchdog
  env : Environment
  deriving DecidableEq, Repr

/-- Why the machine stops for good. -/
inductive Fault where
  /-- Raised by RD and WD in an external mode when the device never acknowledges and no Watchdog Timer is fitted: "the
  instruction never completes (stuck)" (R246, U13). Safe: the machine is stuck there too. -/
  | directIoNeverAcknowledged
  deriving DecidableEq, Repr

/-- Why a step has no meaning in the model. All but the first are cases the spec puts outside the model (D7, D8, U25, U26);
all are safe: the model stops where the machine does something unstated. -/
inductive Refusal where
  /-- Raised by an arm of `exec` whose instruction has no meaning yet. -/
  | notModelled (mnemonic : String)
  /-- Raised by every instruction but LDX when it is executed with the exit condition set (R126, U5). -/
  | exitWithoutLdx
  /-- Raised by RD and WD in the internal mode when effective address bits 4 to 7 are not zero (R213, U7). -/
  | internalBitsNotZero
  /-- Raised by RD and WD for a register number that names no register (R216, U9). -/
  | noSuchRegister
  /-- Raised by WD 00nnnnnn for a register of a channel that has a busy device: "the source gives no meaning" to it (R414, U26). -/
  | channelRegisterBusy
  /-- Raised by RD for an unassigned internal function (R221, U8). -/
  | readFunctionUnassigned
  /-- Raised by WD for an unassigned internal function (R234, U8). -/
  | writeFunctionUnassigned
  /-- Raised by RD in the interrupt control mode, which is WD only (R222, U8). -/
  | readInterruptControl
  /-- Raised by WD in the interrupt control mode for function code 000 (R244, U8). -/
  | controlCodeUndefined
  /-- Raised by WD in the interrupt control mode when effective address bit 4 or bits 8 to 11 are not zero (R245, U8). -/
  | controlBitsNotZero
  /-- Raised by RD and WD in an external mode when the direct I/O feature is absent (R247, U11). -/
  | directIoAbsent
  /-- Raised by the channel service that chains to an I/O control doubleword whose count is 0 (R270, U25). -/
  | chainedCountZero
  deriving DecidableEq, Repr

/-- The outcome of an instruction or a step. -/
abbrev Result := Host.Outcome State Fault Refusal

/-- The ways an instruction is aborted before any of its writes (R350, R351, R372). -/
inductive Trap where
  | protection
  | multiply
  | divide
  /-- A parity error with the switches at HALT. -/
  | parityHalt
  /-- A parity error with the switches at INTERRUPT. -/
  | parityInterrupt
  deriving DecidableEq, Repr

/-- What the fetch part of a step comes to: no instruction is executed and the step ends in this state, or this word is
executed from this state. -/
inductive Fetched where
  | rest (s : State)
  | run (w : Word) (s : State)
  deriving DecidableEq, Repr

/-- The panel after reset: COMPUTE in RUN (D12), nothing pending, S = 0 (R45), the switches of log entry 2. -/
def Panel.reset : Panel where
  compute := .run
  firstFromD := false
  parityHalt := false
  parityLamp := false
  loadCond := false
  sReg := 0
  dReg := 0
  data := 0
  protect := false
  parity := .ignore
  progAddHold := false
  key := .unlocked

/-- The levels after reset: the override levels, at locations X'100' to X'105', armed and enabled; every other level disarmed
and disabled (R45, R391). Level k is the one at location 252 + k. -/
def resetLevels : Vector LevelFF 148 :=
  Vector.ofFn fun k => if 4 ≤ k.val ∧ k.val < 10 then ⟨.armed, true⟩ else ⟨.disarmed, false⟩

/-- The state after INITIALIZE RESET from which a model starts (R45, D12), for any installation and panel. The registers and
memory that the spec leaves unspecified are zero (DESIGN CHOICE, log entries 1 and 3), and no device is attached. -/
def State.resetWith (cfg : Config) (panel : Panel) : State where
  cfg := cfg
  regs := { p := cfg.start, l := 0, t := 0, x1 := 0, x2 := 0, e := 0, a := 0 }
  ind :=
    { pp := cfg.protect && (panel.key == .protectOn || panel.key == .unlocked && panel.protect), ii := false, ei := false,
      o := false, c := false }
  h := cfg.start
  chan := Vector.replicate 40 0
  prot := Vector.replicate 16 0
  levels := resetLevels
  wff := false
  exitCond := false
  panel := panel
  mem := []
  badParity := []
  devices := []
  watchdog := { enabled := false, aborted := false, signalDue := false }
  env := { inputs := [], answers := [], sent := [], freeCount := 0 }

/-- The machine right after reset (log entries 1 and 2). -/
def State.reset : State := State.resetWith Config.default Panel.reset

end Sys2Proof.Machine
end

