-- ==== Sys2Proof/Machine/Levels.lean ====
section
/-! DEFINITION. The interrupt levels: Table 2 (rule R312), their groups and inhibits (R313), the priority chain (R314), the level
state machine and its signal input (R320 to R326), the selection of the level to activate (R330, R331), and which level an
accumulator bit of an interrupt-control WRITE DIRECT selects (R236). -/

namespace Sys2Proof.Machine

/-- The dedicated memory location of a level (R312). -/
def levelLocation : Level → Nat
  | .counter n => 0xFF - n.val
  | .powerOn => 0x100
  | .powerOff => 0x101
  | .memoryParity => 0x102
  | .protection => 0x103
  | .multiply => 0x104
  | .divide => 0x105
  | .inputOutput => 0x106
  | .controlPanel => 0x107
  | .counterZero n => 0x10B - n.val
  | .integral n => 0x10C + n.val
  | .external g i => 0x110 + 16 * g.val + i.val

/-- The place of a level's flip-flops in the state: its location less X'FC', the first location of Table 2. -/
def levelIndex (l : Level) : Fin 148 := Fin.ofNat 148 (levelLocation l - 0xFC)

/-- Whether the installation has the level (R312 column "installed", R316). That an external group of k levels has its k levels of
highest priority is a DESIGN CHOICE (log entry 45): R6 gives only the number. -/
def installed (c : Config) : Level → Bool
  | .powerOn => c.power
  | .powerOff => c.power
  | .counter n => if n.val < 2 then c.clocks21 else c.clocks43
  | .memoryParity => c.parityInt
  | .protection => c.protect
  | .multiply => !c.mulDiv
  | .divide => !c.mulDiv
  | .inputOutput => true
  | .controlPanel => true
  | .counterZero n => if n.val < 2 then c.clocks21 else c.clocks43
  | .integral n => c.integral == .four || c.integral == .two && n.val < 2
  | .external g i => i.val < c.externals.get g

/-- The override group (R313): always armed, always enabled, not reachable by WRITE DIRECT. -/
def isOverride : Level → Bool
  | .powerOn | .powerOff | .memoryParity | .protection | .multiply | .divide => true
  | .counter _ | .inputOutput | .controlPanel | .counterZero _ | .integral _ | .external _ _ => false

/-- The levels whose signal comes from outside the processor (R327). -/
def externallySignalled : Level → Bool
  | .powerOn | .powerOff | .counter _ | .controlPanel | .integral _ | .external _ _ => true
  | .memoryParity | .protection | .multiply | .divide | .inputOutput | .counterZero _ => false

/-- The flip-flops of a level. -/
def State.level (s : State) (l : Level) : LevelFF := s.levels.get (levelIndex l)

/-- Set the flip-flops of a level. -/
def State.setLevel (s : State) (l : Level) (v : LevelFF) : State :=
  { s with levels := s.levels.set (levelIndex l).val v (levelIndex l).isLt }

/-- Set the state of a level, its enable unchanged. -/
def State.setLevelState (s : State) (l : Level) (st : LevelState) : State :=
  s.setLevel l { s.level l with state := st }

/-- Set the enable of a level, its state unchanged. -/
def State.setLevelEnabled (s : State) (l : Level) (b : Bool) : State :=
  s.setLevel l { s.level l with enabled := b }

/-- The signal input of a level (R326): only an installed, armed level admits it. -/
def trigger (l : Level) (s : State) : State :=
  if installed s.cfg l && (s.level l).state == .armed then s.setLevelState l .waiting else s

/-- `Inhibited(L)` (R313): II holds the input/output group, EI the external groups. -/
def inhibited (s : State) : Level → Bool
  | .inputOutput | .controlPanel | .counterZero _ | .integral _ => s.ind.ii
  | .external _ _ => s.ind.ei
  | .powerOn | .powerOff | .counter _ | .memoryParity | .protection | .multiply | .divide => false

/-- The ten levels of the override and counter groups, highest priority first (R312, R315). -/
def overrideAndCounterLevels : List Level :=
  [.powerOn, .powerOff, .counter 3, .counter 2, .counter 1, .counter 0, .memoryParity, .protection, .multiply, .divide]

/-- The levels of a group, highest priority first (R312). -/
def groupLevels : Group → List Level
  | .inputOutput =>
    [.inputOutput, .controlPanel, .counterZero 3, .counterZero 2, .counterZero 1, .counterZero 0, .integral 0, .integral 1,
      .integral 2, .integral 3]
  | .external g => (List.finRange 16).map (.external g)

/-- The total order `Prio` of the installed levels, highest priority first (R314). -/
def priorityChain (c : Config) : List Level :=
  (overrideAndCounterLevels ++ c.groupOrder.flatMap groupLevels).filter (installed c)

/-- A level that may become active but for the levels above it (R331 `Eligible`). -/
def eligible (s : State) (l : Level) : Bool :=
  (s.level l).state == .waiting && (s.level l).enabled && !inhibited s l

def isActive (s : State) (l : Level) : Bool := (s.level l).state == .active

/-- `Select()` (R331): the first eligible level of the chain, unless a level before it is active. -/
def select (s : State) : Option Level :=
  match (priorityChain s.cfg).find? (eligible s) with
  | none => none
  | some w => if ((priorityChain s.cfg).takeWhile (· ≠ w)).any (isActive s) then none else some w

/-- `HighestActive()` (R331). -/
def highestActive (s : State) : Option Level := (priorityChain s.cfg).find? (isActive s)

/-- The level Table 2 puts at accumulator bit `i` of group code 0 (R236); bits 4 and 5 select none. -/
def groupZeroLevel (i : Fin 16) : Option Level :=
  match i.val with
  | 0 => some (.counter 3)
  | 1 => some (.counter 2)
  | 2 => some (.counter 1)
  | 3 => some (.counter 0)
  | 6 => some .inputOutput
  | 7 => some .controlPanel
  | 8 => some (.counterZero 3)
  | 9 => some (.counterZero 2)
  | 10 => some (.counterZero 1)
  | 11 => some (.counterZero 0)
  | 12 => some (.integral 0)
  | 13 => some (.integral 1)
  | 14 => some (.integral 2)
  | 15 => some (.integral 3)
  | _ => none

/-- `Sel(g, i)` before the question whether the level is installed (R236). -/
def codedLevel (g : Nat) (i : Fin 16) : Option Level :=
  if g = 0 then groupZeroLevel i
  else if 5 ≤ g ∧ g ≤ 12 then some (.external (Fin.ofNat 8 (g - 5)) i)
  else none

/-- `Sel(g, i)` (R236): the installed level a group code and an accumulator bit select. -/
def selectedLevel (c : Config) (g : Nat) (i : Fin 16) : Option Level :=
  (codedLevel g i).filter (installed c)

/-- The operations of an interrupt-control WRITE DIRECT, function codes 001 to 111 (R237 to R243). -/
inductive LevelOp where
  | disarm | armEnable | armDisable | enable | disable | enableOnly | trigger
  deriving DecidableEq, Repr

/-- One level under an interrupt-control operation, `bit` its accumulator bit (R237 to R243). -/
def controlLevel (op : LevelOp) (bit : Bool) (l : Level) (s : State) : State :=
  match op, bit with
  | .disarm, true => s.setLevelState l .disarmed
  | .armEnable, true => s.setLevel l ⟨.armed, true⟩
  | .armDisable, true => s.setLevel l ⟨.armed, false⟩
  | .enable, true => s.setLevelEnabled l true
  | .disable, true => s.setLevelEnabled l false
  | .enableOnly, b => s.setLevelEnabled l b
  | .trigger, true => trigger l s
  | _, false => s

/-- One accumulator bit of an interrupt-control operation: the level it selects, if any (R236, R245). -/
def controlBit (op : LevelOp) (g : Nat) (a : Word) (i : Fin 16) (s : State) : State :=
  match selectedLevel s.cfg g i with
  | some l => controlLevel op (bitAt a i.val) l s
  | none => s

/-- An interrupt-control operation on the sixteen accumulator bits of a group code (R235 to R243). -/
def controlGroup (op : LevelOp) (g : Nat) (a : Word) (s : State) : State :=
  (List.finRange 16).foldl (fun s i => controlBit op g a i s) s

end Sys2Proof.Machine
end

