-- ==== Sys2Proof/Machine/Memory.lean ====
section
/-! DEFINITION. Core memory: its canonical form, the reading and writing of one byte and of one word (rules R60, R66), and the
words of bad parity. Byte order is decided here and nowhere else. -/

namespace Sys2Proof.Machine

/-- What a byte that nothing has written reads as (DESIGN CHOICE, log entry 3: the spec gives core memory no content at
power-on). -/
def unlisted : Byte := 0

/-- The canonical form: addresses strictly rising, and no entry equal to what an unlisted address reads as. -/
abbrev Memory.wf (m : Memory) : Prop :=
  m.Pairwise (fun x y => x.1 < y.1) ∧ ∀ c ∈ m, c.2 ≠ unlisted

/-- The byte at a byte address. -/
def Memory.readByte : Memory → Nat → Byte
  | [], _ => unlisted
  | (k, b) :: rest, a => if k = a then b else Memory.readByte rest a

/-- An entry for the byte `v` at `a` in front of `rest`, unless it would say what an unlisted address says. -/
def Memory.entry (a : Nat) (v : Byte) (rest : Memory) : Memory :=
  if v = unlisted then rest else (a, v) :: rest

/-- Store one byte, keeping the canonical form. -/
def Memory.writeByte : Memory → Nat → Byte → Memory
  | [], a, v => Memory.entry a v []
  | (k, b) :: rest, a, v =>
    if a < k then Memory.entry a v ((k, b) :: rest)
    else if a = k then Memory.entry a v rest
    else (k, b) :: Memory.writeByte rest a v

/-- The word at a word address: byte 0 at the lower byte address (R66). -/
def Memory.readWord (m : Memory) (a : Nat) : Word :=
  joinBytes (m.readByte (2 * a)) (m.readByte (2 * a + 1))

/-- Store a word at a word address (R66). -/
def Memory.writeWord (m : Memory) (a : Nat) (v : Word) : Memory :=
  (m.writeByte (2 * a) (byte0 v)).writeByte (2 * a + 1) (byte1 v)

/-- Put an address into a strictly rising list of addresses. -/
def insertAddress : List Nat → Nat → List Nat
  | [], a => [a]
  | k :: rest, a => if a < k then a :: k :: rest else if a = k then k :: rest else k :: insertAddress rest a

/-- Take an address out of a list of addresses. -/
def removeAddress (l : List Nat) (a : Nat) : List Nat := l.filter (· ≠ a)

end Sys2Proof.Machine
end

