-- ==== Sys2Proof/Machine/Ops.lean ====
section
/-! DEFINITION. The named operations over registers, indicators and memory words; the protection tests; taking an exception
(`takeTrap`, rule R350, then `enterLevel`, R346), the return from one (`exitLevel`, R125), and the service of a counter
(R340). -/

namespace Sys2Proof.Machine

/-! Registers and indicators. -/

/-- `r[i]`: the contents of a general register; Z reads X'0000' (R12, R22). -/
def State.getReg (s : State) : Reg → Word
  | .z => 0
  | .p => s.regs.p
  | .l => s.regs.l
  | .t => s.regs.t
  | .x1 => s.regs.x1
  | .x2 => s.regs.x2
  | .e => s.regs.e
  | .a => s.regs.a

/-- `r[i] <- v`; a write to Z is discarded (R12, R22). -/
def State.setReg (s : State) (r : Reg) (v : Word) : State :=
  match r with
  | .z => s
  | .p => { s with regs.p := v }
  | .l => { s with regs.l := v }
  | .t => { s with regs.t := v }
  | .x1 => { s with regs.x1 := v }
  | .x2 => { s with regs.x2 := v }
  | .e => { s with regs.e := v }
  | .a => { s with regs.a := v }

/-- Write O and C. -/
def State.setOC (s : State) (o c : Bool) : State := { s with ind.o := o, ind.c := c }

/-- Write PP; without the protection option PP reads 0 (R32). -/
def State.setPP (s : State) (b : Bool) : State := { s with ind.pp := s.cfg.protect && b }

/-- A status word with the five indicators in bits 8, 10, 11, 14, 15 and zeros elsewhere (R31, R49). -/
def statusWord (i : Indicators) : Word :=
  0#8 ++ BitVec.ofBool i.pp ++ 0#1 ++ BitVec.ofBool i.ii ++ BitVec.ofBool i.ei ++ 0#2 ++ BitVec.ofBool i.o ++ BitVec.ofBool i.c

/-- Load the five indicators from a status word, the other bits ignored (R49, R125, R229). -/
def State.loadStatus (s : State) (w : Word) : State :=
  { s with
    ind := { pp := s.cfg.protect && bitAt w 8, ii := bitAt w 10, ei := bitAt w 11, o := bitAt w 14, c := bitAt w 15 } }

/-! Memory words. -/

/-- The location is implemented (R60). -/
def State.existsAt (s : State) (a : Word) : Bool := a.toNat < s.cfg.memWords

/-- `MemRead(a, 1)` without its parity event: zeros from a location that does not exist (R63, R64). -/
def State.wordAt (s : State) (a : Word) : Word :=
  if s.existsAt a then s.mem.readWord a.toNat else 0

/-- A read of this word comes with a parity event: the location does not exist, or the stored parity is bad (R63, R79). -/
def State.parityEvent (s : State) (a : Word) : Bool :=
  !s.existsAt a || s.badParity.contains a.toNat

/-- `MemWrite(a, 1, v)`: nothing happens at a location that does not exist (R63, R65); a store writes the parity too (R60). -/
def State.storeWord (s : State) (a v : Word) : State :=
  if s.existsAt a then
    { s with mem := s.mem.writeWord a.toNat v, badParity := removeAddress s.badParity a.toNat }
  else s

/-! Switches and protection. -/

/-- The PARITY ERROR switches as the processor sees them: a locked key forces INTERRUPT (R402). -/
def State.parityMode (s : State) : ParitySwitch :=
  if s.panel.key = .unlocked then s.panel.parity else .interrupt

/-- COMPUTE as the processor sees it: a locked key forces RUN (R402). -/
def State.computeMode (s : State) : Compute := if s.panel.key = .unlocked then s.panel.compute else .run

/-- `SW_PROTECT` as the processor sees it (R402). -/
def State.protectSwitch (s : State) : Bool :=
  match s.panel.key with
  | .unlocked => s.panel.protect
  | .protectOn => true
  | .protectOff => false

/-- The protection system is operative: installed and switched on (R360). -/
def State.operative (s : State) : Bool := s.cfg.protect && s.protectSwitch

/-- `ProtBit(a)`: bit `a<4:7>` of protection register `a<0:3>`; 0 without the option (R37). -/
def State.protBit (s : State) (a : Word) : Bool :=
  s.cfg.protect && bitAt (s.prot.get (Fin.ofNat 16 (field a 0 3))) (field a 4 7)

/-- The level is waiting or active. -/
def State.busyLevel (s : State) (l : Level) : Bool :=
  installed s.cfg l && ((s.level l).state == .waiting || (s.level l).state == .active)

/-- `PowerLevelBusy()` (R364). -/
def State.powerLevelBusy (s : State) : Bool := s.busyLevel .powerOn || s.busyLevel .powerOff

/-- Rule 1 (R212, R361): READ DIRECT and WRITE DIRECT execute only from protected memory. -/
def checkPrivileged (s : State) : Except Trap Unit :=
  if s.operative && !s.protBit s.h && !s.powerLevelBusy then .error .protection else .ok ()

/-- Rule 3 (R70, R363): STA and IM store into protected memory only from protected memory. -/
def checkStore (s : State) (a : Word) : Except Trap Unit :=
  if s.operative && !s.protBit s.h && s.protBit a && !s.powerLevelBusy then .error .protection else .ok ()

/-- Rule 2 and the PP indicator (R362 `FetchCheck`), for the instruction at H. -/
def fetchCheck (s : State) : Except Trap State :=
  if s.operative && s.protBit s.h && !s.ind.pp && !s.powerLevelBusy then .error .protection
  else if s.cfg.protect then .ok (s.setPP (s.protBit s.h)) else .ok s

/-- The processor ignores parity errors while the memory parity level is active (R372). -/
def State.parityMasked (s : State) : Bool :=
  s.cfg.parityInt && (s.level .memoryParity).state == .active

/-- A read of an instruction, a direct address or an operand, with the effect of a parity event (R64, R372). -/
def readChecked (s : State) (a : Word) : Except Trap Word :=
  if s.parityEvent a then
    match s.parityMode with
    | .ignore => .ok (s.wordAt a)
    | .halt => .error .parityHalt
    | .interrupt => if s.parityMasked then .ok (s.wordAt a) else .error .parityInterrupt
  else .ok (s.wordAt a)

/-! Taking an exception, interrupt entry, and the return. -/

/-- Abort of the current instruction: P points at it again, and the exit condition is reset (R350, R372, D8). -/
def State.abort (s : State) : State := { s with regs.p := s.h, exitCond := false }

/-- Taking an exception (R350, R372): the instruction is aborted and the level of the exception triggered; the entry follows when
the level is selected. A parity error with the switches at HALT halts instead; at INTERRUPT it also sets the wait flip-flop. -/
def takeTrap (t : Trap) (s : State) : State :=
  match t with
  | .protection => trigger .protection s.abort
  | .multiply => trigger .multiply s.abort
  | .divide => trigger .divide s.abort
  | .parityHalt => { s.abort with panel.parityHalt := true, panel.parityLamp := true }
  | .parityInterrupt => trigger .memoryParity { s.abort with wff := true }

/-- Entry to a normal level (R346): the level becomes active and the wait ends; the status word and P are stored at Q and Q + 1,
Q being the contents of the dedicated location; P becomes Q + 2 and PP 1. No parity event and no protection test (R71, R372). -/
def enterLevel (l : Level) (s : State) : State :=
  let s1 : State := { s.setLevelState l .active with wff := false }
  let q : Word := s1.wordAt (BitVec.ofNat 16 (levelLocation l))
  let s2 := (s1.storeWord q (statusWord s.ind)).storeWord (q + 1) s.regs.p
  (s2.setReg .p (q + 2)).setPP true

/-- The exit operations of LDX (R125): the indicators and P from the effective doubleword, the highest active level armed, the
exit condition reset. -/
def exitLevel (status address : Word) (s : State) : State :=
  let s1 : State := { (s.loadStatus status).setReg .p address with exitCond := false }
  match highestActive s with
  | some l => s1.setLevelState l .armed
  | none => s1

/-- Service of a counter level (R340): its location is incremented, the level is armed again, and a result of zero triggers its
counter-equals-zero level (R341). Registers and indicators are not touched. -/
def serviceCounter (n : Fin 4) (s : State) : State :=
  let loc : Word := BitVec.ofNat 16 (levelLocation (.counter n))
  let s1 : State := { s.setLevelState (.counter n) .active with wff := false }
  let v : Word := s1.wordAt loc + 1
  let s2 := (s1.storeWord loc v).setLevelState (.counter n) .armed
  if v = 0 then trigger (.counterZero n) s2 else s2

/-! Combinators of the meanings. -/

/-- Continue with the value, or take the exception. -/
def attempt {α : Type} (s : State) (r : Except Trap α) (k : α → Result) : Result :=
  match r with
  | .ok v => k v
  | .error t => .next (takeTrap t s)

/-- An instruction other than LDX executed with the exit condition set is outside the model (R126 (b), D8). -/
def unlessExit (s : State) (k : Result) : Result :=
  if s.exitCond then .refused .exitWithoutLdx else k

/-- Record something sent to the outside. -/
def State.send (s : State) (x : Sent) : State := { s with env.sent := x :: s.env.sent }

end Sys2Proof.Machine
end

