-- ==== Sys2Proof/Machine/Operands.lean ====
section
/-! DEFINITION. Operand forms: the effective address in its three steps with every addressing form (rules R100 to R103), the
effective word, the target of a conditional branch (R160), and the operands of the copy instruction (R182 steps 1 and 2). -/

namespace Sys2Proof.Machine

/-- Step 1 (R100): the reference address. -/
def referenceAddr (f : AddrForm) (s : State) : Word :=
  match f with
  | .nonrelative d => zext d
  | .baseRelative d => zext d + s.regs.x2
  | .selfRelative k => s.h + sext9 k

/-- Step 2 (R100): the direct address, one level of indirection (R102). -/
def directAddr (m : MemRef) (s : State) : Except Trap Word :=
  if m.indirect then readChecked s (referenceAddr m.form s) else .ok (referenceAddr m.form s)

/-- `EA(w)` (R100): the direct address, plus X1 if the instruction is indexed. -/
def effAddr (m : MemRef) (s : State) : Except Trap Word :=
  match directAddr m s with
  | .ok d => .ok (if m.indexed then d + s.regs.x1 else d)
  | .error t => .error t

/-- Continue with the effective address (R120 step 2), in an instruction other than LDX. -/
def withAddr (m : MemRef) (s : State) (k : Word → Result) : Result :=
  unlessExit s (attempt s (effAddr m s) k)

/-- Continue with the effective word (R120), in an instruction other than LDX. -/
def withOperand (m : MemRef) (s : State) (k : Word → Result) : Result :=
  withAddr m s fun ea => attempt s (readChecked s ea) k

/-- The target of a conditional branch: the offset from the branch's own address (R160). -/
def branchTarget (k : BitVec 9) (s : State) : Word := s.h + sext9 k

/-- The source operand of a copy: the register, or its one's complement (R182). -/
def copySource (c : CopyArgs) (s : State) : Word :=
  if c.invert then ~~~ s.getReg c.src else s.getReg c.src

/-- The destination operand of a copy: zero if it is cleared first or register 0 (R182, R185). -/
def copyDest (cd : Bool) (c : CopyArgs) (s : State) : Word :=
  if cd then 0 else s.getReg c.dst

/-- The increment of a copy: AI adds 1 whatever the carry; AC alone adds the carry indicator (R182). -/
def copyIncrement (ac ai : Bool) (s : State) : Nat :=
  if ai then 1 else if ac then s.ind.c.toNat else 0

end Sys2Proof.Machine
end

