-- ==== Sys2Proof/Machine/Direct.lean ====
section
/-! DEFINITION. READ DIRECT and WRITE DIRECT up to their five I/O functions: which function an effective address selects (rules
R211 to R214, R221, R222, R224, R234, R235), the register block (R215, R216, R225, R227), the direct I/O interface (R246, R247) and
the Watchdog Timer's instructions (R248). -/

namespace Sys2Proof.Machine

/-- What the effective address of a READ DIRECT selects (R211, R214). -/
inductive ReadFunction where
  | register (n : Nat)
  | sio | tio | tdv | hio | aio
  | dataSwitches
  | saveStatus
  | saveAndInhibit (set i e : Bool)
  | direct
  | undefined (r : Refusal)
  deriving DecidableEq, Repr

/-- What the effective address of a WRITE DIRECT selects (R211, R224, R235). -/
inductive WriteFunction where
  | register (n : Nat)
  | testAndClear (n : Nat)
  | protection (n : Nat)
  | loadStatus
  | wait
  | exit
  | inhibit (set i e : Bool)
  | control (op : LevelOp) (g : Nat)
  | direct
  | undefined (r : Refusal)
  deriving DecidableEq, Repr

/-- Table 3: the internal functions of READ DIRECT, `f` being effective address bits 8 to 15 (R214, R221). -/
def readInternal (ea : Word) : ReadFunction :=
  let f := field ea 8 15
  if f < 0x40 then .register f
  else if f = 0x41 then .sio
  else if f = 0x42 then .tio
  else if f = 0x44 then .tdv
  else if f = 0x48 then .hio
  else if f = 0x50 then .aio
  else if f = 0x80 then .dataSwitches
  else if f = 0xC0 then .saveStatus
  else if field ea 8 11 = 0xE ∧ field ea 14 15 = 0 then .saveAndInhibit false (bitAt ea 12) (bitAt ea 13)
  else if field ea 8 11 = 0xF ∧ field ea 14 15 = 0 then .saveAndInhibit true (bitAt ea 12) (bitAt ea 13)
  else .undefined .readFunctionUnassigned

/-- The function of a READ DIRECT (R211, R213, R222, R223). -/
def readFunction (ea : Word) : ReadFunction :=
  if field ea 0 3 = 0 then
    if field ea 4 7 = 0 then readInternal ea else .undefined .internalBitsNotZero
  else if field ea 0 3 = 1 then .undefined .readInterruptControl
  else .direct

/-- Table 4: the internal functions of WRITE DIRECT (R224, R234). -/
def writeInternal (ea : Word) : WriteFunction :=
  let f := field ea 8 15
  if f < 0x40 then .register f
  else if f < 0x80 then .testAndClear (f - 0x40)
  else if f < 0x90 then .protection (f - 0x80)
  else if f = 0xC0 then .loadStatus
  else if f = 0xD0 then .wait
  else if f = 0xD8 then .exit
  else if field ea 8 11 = 0xE ∧ field ea 14 15 = 0 then .inhibit false (bitAt ea 12) (bitAt ea 13)
  else if field ea 8 11 = 0xF ∧ field ea 14 15 = 0 then .inhibit true (bitAt ea 12) (bitAt ea 13)
  else .undefined .writeFunctionUnassigned

/-- The operation of an interrupt-control function code, bits 5 to 7 (R237 to R244). -/
def levelOpOf (code : Nat) : Option LevelOp :=
  match code with
  | 1 => some .disarm
  | 2 => some .armEnable
  | 3 => some .armDisable
  | 4 => some .enable
  | 5 => some .disable
  | 6 => some .enableOnly
  | 7 => some .trigger
  | _ => none

/-- The interrupt control mode of WRITE DIRECT (R235, R244, R245). -/
def writeControl (ea : Word) : WriteFunction :=
  if bitAt ea 4 ∨ field ea 8 11 ≠ 0 then .undefined .controlBitsNotZero
  else
    match levelOpOf (field ea 5 7) with
    | some op => .control op (field ea 12 15)
    | none => .undefined .controlCodeUndefined

/-- The function of a WRITE DIRECT (R211, R213, R246). -/
def writeFunction (ea : Word) : WriteFunction :=
  if field ea 0 3 = 0 then
    if field ea 4 7 = 0 then writeInternal ea else .undefined .internalBitsNotZero
  else if field ea 0 3 = 1 then writeControl ea
  else .direct

/-! The register block. -/

/-- Register number `n` names an installed I/O channel register (R36, R216). -/
def hasChannelReg (c : Config) (n : Nat) : Bool := 8 ≤ n && n < 8 + 2 * c.channels && n < 48

/-- The general register of a number below 8 (R21). -/
def regOfNat (n : Nat) : Reg :=
  match n with
  | 0 => .z
  | 1 => .p
  | 2 => .l
  | 3 => .t
  | 4 => .x1
  | 5 => .x2
  | 6 => .e
  | _ => .a

/-- `CH[n]` (R36). -/
def State.getChannel (s : State) (n : Nat) : Word := s.chan.get (Fin.ofNat 40 (n - 8))

/-- `CH[n] <- v` (R36); nothing happens where the register is not installed. -/
def State.setChannel (s : State) (n : Nat) (v : Word) : State :=
  if hasChannelReg s.cfg n then
    { s with chan := s.chan.set (Fin.ofNat 40 (n - 8)).val v (Fin.ofNat 40 (n - 8)).isLt }
  else s

/-- A register of the register block, if the number names one (R215, R216). -/
def State.getBlock (s : State) (n : Nat) : Option Word :=
  if n < 8 then some (s.getReg (regOfNat n))
  else if hasChannelReg s.cfg n then some (s.getChannel n)
  else none

/-- Write a register of the register block (R225, R226). -/
def State.setBlock (s : State) (n : Nat) (v : Word) : State :=
  if n < 8 then s.setReg (regOfNat n) v else s.setChannel n v

/-- Set or reset the inhibits an effective address selects (R219, R232, R233). -/
def State.setInhibits (s : State) (set i e : Bool) : State :=
  { s with ind.ii := if i then set else s.ind.ii, ind.ei := if e then set else s.ind.ei }

/-- Load a protection register; without the option there is none and nothing happens (R228). -/
def State.setProtection (s : State) (n : Nat) (v : Word) : State :=
  if s.cfg.protect then { s with prot := s.prot.set (Fin.ofNat 16 n).val v (Fin.ofNat 16 n).isLt } else s

/-! Direct I/O and the Watchdog Timer. -/

/-- The next free word and two free bits are taken as A, O and C (U12, U14). -/
def State.freeAOC (s : State) : State :=
  { (s.setReg .a (Config.freeWord s.env.freeCount)).setOC (Config.freeBit s.env.freeCount)
      (Config.freeBit (s.env.freeCount + 1)) with
    env.freeCount := s.env.freeCount + 2 }

/-- Two free bits are taken as O and C (U12). -/
def State.freeOC (s : State) : State :=
  { s.setOC (Config.freeBit s.env.freeCount) (Config.freeBit (s.env.freeCount + 1)) with
    env.freeCount := s.env.freeCount + 2 }

/-- A direct I/O instruction that no device acknowledges: the Watchdog Timer aborts it and will signal after the instruction that
follows it, also if that one is aborted in its turn; without one the processor waits for ever (R246, R248, R380, U13, U14, D25). -/
def unacknowledged (s : State) : Result :=
  if s.cfg.watchdog.isSome then .next { s.freeAOC with watchdog.aborted := true }
  else .fault .directIoNeverAcknowledged

/-- The answers left after the one at the head. -/
def State.dropAnswer (s : State) : State := { s with env.answers := s.env.answers.tail }

/-- READ DIRECT in an external mode (R246, R247). With no answer listed the device's data and status are free (U12). -/
def directRead (ea : Word) (s : State) : Result :=
  if s.cfg.directIo then
    let s1 := s.send (.directRead ea)
    match s.env.answers.head? with
    | some (.acknowledge d o c) => .next ((s1.dropAnswer.setReg .a d).setOC o c)
    | some .silent => unacknowledged s1.dropAnswer
    | none => .next s1.freeAOC
  else .refused .directIoAbsent

/-- The Watchdog Timer's instructions: Enable, Disable, Reset Timer (R248). -/
inductive WatchdogOp where
  | enable | disable | reset
  deriving DecidableEq, Repr

/-- The Watchdog Timer instruction an effective address is, if any; the timer needs the direct I/O feature (R46, R248). -/
def watchdogOp (c : Config) (ea : Word) : Option WatchdogOp :=
  match c.watchdog with
  | none => none
  | some w =>
    if !c.directIo then none
    else if ea = w.enableEa then some .enable
    else if ea = w.disableEa then some .disable
    else if ea = w.resetEa then some .reset
    else none

/-- Enable starts the timer, Disable stops it; Reset Timer restarts the interval, which is not modelled (R248, R424). -/
def State.watchdogDo (s : State) (op : WatchdogOp) : State :=
  match op with
  | .enable => { s with watchdog.enabled := true }
  | .disable => { s with watchdog.enabled := false }
  | .reset => s

/-- What a Watchdog Timer instruction does in either mode: the strobe goes out and the timer acts (R248). -/
def watchdogWrite (op : WatchdogOp) (ea : Word) (s : State) : State :=
  (s.send (.directWrite ea s.regs.a)).watchdogDo op

/-- WRITE DIRECT in an external mode (R246, R247, R248): O and C are the status bits of the unit that acknowledges (R35); those of the
Watchdog Timer are free (log entry 32). -/
def directWrite (ea : Word) (s : State) : Result :=
  if s.cfg.directIo then
    let s1 := s.send (.directWrite ea s.regs.a)
    match watchdogOp s.cfg ea with
    | some op => .next (watchdogWrite op ea s).freeOC
    | none =>
      match s.env.answers.head? with
      | some (.acknowledge _ o c) => .next (s1.dropAnswer.setOC o c)
      | some .silent => unacknowledged s1.dropAnswer
      | none => .next s1.freeOC
  else .refused .directIoAbsent

/-- WRITE DIRECT of an effective address that nothing assigns: the Watchdog Timer may respond to it (R221, R248), O and C unchanged since
the mode is not external (R35, D15); else it is refused (D7). -/
def unassignedWrite (ea : Word) (r : Refusal) (s : State) : Result :=
  match watchdogOp s.cfg ea with
  | some op => .next (watchdogWrite op ea s)
  | none => .refused r

end Sys2Proof.Machine
end

