-- ==== Sys2Proof/Machine/Channel.lean ====
section
/-! DEFINITION. The byte-oriented I/O system: device numbers and channels (rules R263, R264), the device status byte (R286), the five
I/O functions (R280 to R285, R289), and the channel's service of a byte, data chaining, and the end of an operation (R265 to
R272). -/

namespace Sys2Proof.Machine

/-- The channel a device number designates, if the installation has it (R263). -/
def channelOf (c : Config) (dev : Byte) : Option Nat :=
  let n := if dev.toNat < 128 then dev.toNat % 32 else dev.toNat / 16 % 8
  if n < c.channels then some n else none

/-- The even-numbered register of a channel: the word address (R264, R265). -/
def evenReg (ch : Nat) : Nat := 2 * ch + 8

/-- The odd-numbered register of a channel: flags and byte count (R264, R265). -/
def oddReg (ch : Nat) : Nat := 2 * ch + 9

/-! Devices. -/

/-- The two-bit code of a condition (R286). -/
def conditionCode : Condition → BitVec 2
  | .ready => 0
  | .notOperational => 1
  | .unavailable => 2
  | .busy => 3

/-- The device status byte of SIO, TIO and HIO (R286). -/
def statusByte (d : Device) : Byte :=
  BitVec.ofBool d.pending ++ conditionCode d.condition ++ BitVec.ofBool d.own.automatic ++ BitVec.ofBool d.unusualEnd
    ++ conditionCode d.controller ++ BitVec.ofBool d.own.bit7

/-- Two device numbers of one controller: the same number, or multiunit numbers with the same controller number (R263). -/
def sameController (m n : Byte) : Bool :=
  m == n || (128 ≤ m.toNat && 128 ≤ n.toNat && m.toNat / 16 == n.toNat / 16)

/-- The device that recognizes a number (R285). -/
def State.findDevice (s : State) (dev : Byte) : Option Device := s.devices.find? (·.number == dev)

/-- Change the device of a number. -/
def State.updateDevice (s : State) (dev : Byte) (f : Device → Device) : State :=
  { s with devices := s.devices.map fun d => if d.number == dev then f d else d }

/-- Set the controller condition of every device on the controller of `dev`. -/
def State.setController (s : State) (dev : Byte) (c : Condition) : State :=
  { s with devices := s.devices.map fun d => if sameController d.number dev then { d with controller := c } else d }

/-- The register is one of a channel that has a busy device, which owns it (R414). -/
def State.channelRegBusy (s : State) (n : Nat) : Bool :=
  s.devices.any fun d =>
    d.condition == .busy && (channelOf s.cfg d.number).any fun ch => n == evenReg ch || n == oddReg ch

/-- An SIO can be accepted: device and controller ready, no device interrupt pending, in either mode (R280). -/
def canStart (d : Device) : Bool := d.condition == .ready && d.controller == .ready && !d.pending

/-- A device has begun to operate, or can begin: one in the manual mode "cannot begin to operate until it is placed in the 'automatic'
mode" (R280). It begins with its order byte (R273; log entry 40). -/
def Device.operates (d : Device) : Bool := d.own.automatic || d.order == .notAwaited

/-- The device and its controller become busy and await the order byte (R280, R273). -/
def State.startDevice (s : State) (dev : Byte) (order : OrderSource) : State :=
  (s.updateDevice dev fun d => { d with condition := .busy, order := order }).setController dev .busy

/-- The device is no longer busy, nor its controller (R269, R283). -/
def State.endDevice (s : State) (dev : Byte) : State :=
  (s.updateDevice dev fun d => { d with condition := .ready, order := .notAwaited }).setController dev .ready

/-- A device remembers that it has generated an interrupt (R275). -/
def State.raiseDevice (s : State) (dev : Byte) : State := s.updateDevice dev fun d => { d with pending := true }

/-- The response of a device that recognizes its number: status into A bits 0 to 7, the number kept in bits 8 to 15, the
condition code in O and C (R285). -/
def State.respond (s : State) (status dev : Byte) (c : Bool) : State := (s.setReg .a (status ++ dev)).setOC false c

/-- No device answers: O and C are 1, A unchanged (R285, D16). -/
def State.noResponse (s : State) : State := s.setOC true true

/-- SIO without the load condition (R280); `order` is where the order byte will come from. -/
def startIo (order : OrderSource) (s : State) : State :=
  let dev := byte1 s.regs.a
  match s.findDevice dev with
  | none => s.noResponse
  | some d =>
    if canStart d then
      let shown := if d.own.sioShowsBusy then { d with condition := .busy, controller := .busy } else d
      (s.startDevice dev order).respond (statusByte shown) dev false
    else s.respond (statusByte d) dev true

/-- SIO under the load condition: the processor supplies the I/O control doubleword X'00000080' and the read order, clears P and S
and waits (R289, R398). -/
def startLoad (s : State) : State :=
  let s1 := startIo .processor s
  let s2 :=
    match channelOf s.cfg (byte1 s.regs.a) with
    | some ch => (s1.setChannel (evenReg ch) 0).setChannel (oddReg ch) 0x80
    | none => s1
  { s2.setReg .p 0 with panel.loadCond := false, panel.sReg := 0, wff := true }

/-- The function SIO (R280, R289). -/
def doSio (s : State) : State := if s.panel.loadCond then startLoad s else startIo .memory s

/-- The function TIO: SIO's response without its effect (R281). -/
def doTio (s : State) : State :=
  let dev := byte1 s.regs.a
  match s.findDevice dev with
  | none => s.noResponse
  | some d => s.respond (statusByte d) dev (!canStart d)

/-- The function TDV (R282). -/
def doTdv (s : State) : State :=
  let dev := byte1 s.regs.a
  match s.findDevice dev with
  | none => s.noResponse
  | some d => s.respond d.own.tdvStatus dev d.own.tdvCondition

/-- The function HIO: the device stops and its pending interrupt is reset; the channel registers stay (R283, D18). Whether the halted
operation counts as an unusual end is the device's own (U23; log entry 40). -/
def doHio (s : State) : State :=
  let dev := byte1 s.regs.a
  match s.findDevice dev with
  | none => s.noResponse
  | some d =>
    let s1 :=
      if d.condition == .busy then (s.endDevice dev).updateDevice dev fun d => { d with unusualEnd := d.own.haltUnusual } else s
    let s2 := s1.updateDevice dev fun d => { d with pending := false }
    s2.respond (statusByte d) dev (d.controller == .busy)

/-- The function AIO: the pending device of highest priority clears its interrupt and identifies itself (R284). -/
def doAio (s : State) : State :=
  match s.devices.find? (·.pending) with
  | none => s.noResponse
  | some d =>
    (s.updateDevice d.number fun d => { d with pending := false }).respond d.own.aioStatus d.number d.own.aioUnusual

/-! The channel. -/

/-- The E flag of an odd register (R265, R267). -/
def iocdError : Word := 0x8000

/-- The byte count of an odd register (R265). -/
def iocdCount (c : Config) (odd : Word) : Word := odd &&& c.iocdCount

/-- The odd register with the count field one less (R268). -/
def countDown (c : Config) (odd : Word) : Word := (odd &&& ~~~ c.iocdCount) ||| ((iocdCount c odd - 1) &&& c.iocdCount)

/-- Replace the byte at a position of a word: the left byte, bits 0 to 7, or the right byte (R268). -/
def putByte (right : Bool) (w : Word) (b : Byte) : Word := if right then joinBytes (byte0 w) b else joinBytes b (byte1 w)

/-- Set the E flag of a channel's odd register (R267). -/
def State.setError (s : State) (ch : Nat) (err : Bool) : State :=
  if err then s.setChannel (oddReg ch) (s.getChannel (oddReg ch) ||| iocdError) else s

/-- The I/O level sees a signal as long as a device is pending (R275, D28). -/
def holdIoSignal (s : State) : State := if s.devices.any (·.pending) then trigger .inputOutput s else s

/-- The move of one byte at the position the remaining count gives (R268): odd is the right byte. -/
def moveByte (ch : Nat) (dev : Byte) (tr : Transfer) (s : State) : State :=
  let addr := s.getChannel (evenReg ch)
  let right := (s.getChannel (oddReg ch)).getLsbD 0
  match tr with
  | .output =>
    let w := s.wordAt addr
    (s.send (.channelByte dev (if right then byte1 w else byte0 w))).setError ch (s.parityEvent addr)
  | .input b parityOk => (s.storeWord addr (putByte right (s.wordAt addr) b)).setError ch (!parityOk)

/-- The update of a channel's registers after a byte: the address moves on after a right-hand byte, the count goes down (R268). -/
def stepChannel (ch : Nat) (s : State) : State :=
  let even := s.getChannel (evenReg ch)
  let odd := s.getChannel (oddReg ch)
  (s.setChannel (evenReg ch) (if odd.getLsbD 0 then even + 1 else even)).setChannel (oddReg ch) (countDown s.cfg odd)

/-- Data chaining (R270, R271): the interrupt flag of the completed doubleword asks for a device interrupt, and the doubleword after
the table replaces both registers. A new count of 0 is outside the model (U25). -/
def chain (ch : Nat) (dev : Byte) (s : State) : Except Refusal State :=
  let odd := s.getChannel (oddReg ch)
  let addr := s.getChannel (evenReg ch)
  let s1 := if odd &&& s.cfg.iocdI = 0 then s else s.raiseDevice dev
  let s2 := (s1.setChannel (evenReg ch) (s.wordAt addr)).setChannel (oddReg ch) (s.wordAt (addr + 1))
  if iocdCount s.cfg (s.wordAt (addr + 1)) = 0 then .error .chainedCountZero else .ok s2

/-- One byte of service for a channel whose count is not 0, with what follows when the count reaches 0 (R268 to R270). -/
def serviceByte (ch : Nat) (dev : Byte) (tr : Transfer) (s : State) : Except Refusal State :=
  if iocdCount s.cfg (s.getChannel (oddReg ch)) = 0 then .ok s
  else
    let s1 := stepChannel ch (moveByte ch dev tr s)
    let odd := s1.getChannel (oddReg ch)
    if iocdCount s.cfg odd ≠ 0 then .ok s1
    else if odd &&& s.cfg.iocdDc ≠ 0 then chain ch dev s1
    else .ok (s1.send (.countDone dev))

/-- A device's request for the service of a byte (R262, R268, R273): only a busy device is served, and its order byte, the first one, only
in the automatic mode (R280); under the load condition that byte comes from the processor (R289). With a count of 0 an order byte
from memory is neither sent nor taken as received (log entry 25). -/
def serviceDevice (dev : Byte) (tr : Transfer) (s : State) : Except Refusal State :=
  match s.findDevice dev, channelOf s.cfg dev with
  | some d, some ch =>
    if d.condition == .busy && d.operates then
      match d.order, tr with
      | .notAwaited, tr => serviceByte ch dev tr s
      | .memory, .output =>
        if iocdCount s.cfg (s.getChannel (oddReg ch)) = 0 then .ok s
        else serviceByte ch dev .output (s.updateDevice dev fun d => { d with order := .notAwaited })
      | .processor, .output =>
        .ok ((s.send (.channelByte dev 0x02)).updateDevice dev fun d => { d with order := .notAwaited })
      | .memory, .input _ _ => .ok s
      | .processor, .input _ _ => .ok s
    else .ok s
  | _, _ => .ok s

/-- The operational status byte in bits 0 to 7 of a word, zeros in the rest (R272). -/
def operationalStatus (te il cm ce ue : Bool) : Word :=
  BitVec.ofBool te ++ BitVec.ofBool il ++ BitVec.ofBool cm ++ BitVec.ofBool ce ++ BitVec.ofBool ue ++ 0#11

/-- Channel end or unusual end (R269, R271, R272): the operational status byte into the even register, a device interrupt if the
interrupt flag is set, the device no longer busy. Unusual end is remembered and ends every operation of the controller; it "may occur
at any time", while an operation that cannot begin comes to no channel end (R280; log entry 40). -/
def endOperation (dev : Byte) (te il cm ce ue : Bool) (s : State) : State :=
  match s.findDevice dev, channelOf s.cfg dev with
  | some d, some ch =>
    if d.condition == .busy && (d.operates || ue) then
      let s1 := s.setChannel (evenReg ch) (operationalStatus te il cm ce ue)
      let s2 := if s1.getChannel (oddReg ch) &&& s.cfg.iocdI = 0 then s1 else s1.raiseDevice dev
      let s3 := (s2.endDevice dev).updateDevice dev fun d => { d with unusualEnd := ue }
      if ue then
        { s3 with
          devices := s3.devices.map fun d =>
            if sameController d.number dev && d.condition == .busy then
              { d with condition := .ready, order := .notAwaited } else d }
      else s3
    else s
  | _, _ => s

end Sys2Proof.Machine
end

