-- ==== Sys2Proof/Machine/Panel.lean ====
section
/-! DEFINITION. What the environment may do between two steps (rule R345, decision D11, U47): level signals (R326, R327), other
memory agents (R72, R288), parity events (R79), the devices (R262), the Watchdog Timer (R380), and the operator's panel as far as
it resets, loads, starts and stops the processor (R391, R395 to R402). -/

namespace Sys2Proof.Machine

/-- The switches other than INTERRUPT and DATA are operative: key UNLOCKED and COMPUTE in IDLE (R391, R401). -/
def State.panelOperative (s : State) : Bool := s.panel.key == .unlocked && s.panel.compute == .idle

/-- The processor enters IDLE (R395, R39): the wait ends; P, H and S hold the address of the next instruction and D the
instruction. -/
def enterIdle (s : State) : State :=
  { s with
    wff := false, h := s.regs.p, panel.firstFromD := false, panel.sReg := s.regs.p, panel.dReg := s.wordAt s.regs.p }

/-- The processor leaves IDLE: the first instruction is the word in D (R396, R397), and no interrupt is recognised before it, which for
STEP is a DESIGN CHOICE (log entry 28; `recognition`). -/
def leaveIdle (s : State) : State := { s with panel.firstFromD := true }

/-- What a change of the key or of COMPUTE does, `s` being the state before it and `t` the state with the new positions: only a change
of what the processor sees as COMPUTE has an effect (R395, R396, R402; log entry 28). -/
def computeEffect (s t : State) : State :=
  if s.computeMode ≠ .idle ∧ t.computeMode = .idle then enterIdle t
  else if s.computeMode = .idle ∧ t.computeMode ≠ .idle then leaveIdle t
  else t

/-- COMPUTE is moved; STEP is momentary and entered from IDLE only, so with the key locked it leaves the switch in IDLE (R395 to R397,
R402). -/
def moveCompute (c : Compute) (s : State) : State :=
  match c with
  | .idle => computeEffect s { s with panel.compute := .idle }
  | .run => if s.panel.compute = .idle then computeEffect s { s with panel.compute := .run } else s
  | .step => if s.panelOperative then computeEffect s { s with panel.compute := .step } else s

/-- A device after INITIALIZE RESET: ready, nothing pending, its operation abandoned (R391; the unusual-end bit, log entry 6). -/
def resetDevice (d : Device) : Device :=
  { d with condition := .ready, controller := .ready, unusualEnd := false, pending := false, order := .notAwaited }

/-- INITIALIZE RESET (R391, R45, D12). With the protection option installed and switched off PP is free (U50). DESIGN CHOICE (log
entry 46): the Watchdog Timer, unspecified after RESET (R45), keeps its enabled flag and the signal of an abort. -/
def initializeReset (s : State) : State :=
  { s with
    ind :=
      { pp := if s.operative then true else s.cfg.protect && Config.freeBit s.env.freeCount
        ii := false, ei := false, o := false, c := false }
    env.freeCount := if s.cfg.protect && !s.operative then s.env.freeCount + 1 else s.env.freeCount
    panel.parityHalt := false, panel.parityLamp := false, panel.loadCond := false, panel.sReg := 0
    levels := resetLevels
    wff := false, exitCond := false
    devices := s.devices.map resetDevice }

/-- INITIALIZE LOAD (R398): A and P are cleared, the load condition set, an SIO set up in D (its encoding X'1041' is presumed,
U53; log entry 15). -/
def initializeLoad (s : State) : State :=
  { (s.setReg .a 0).setReg .p 0 with panel.loadCond := true, panel.dReg := 0x1041 }

/-- The register the SELECT switch chooses (R401). -/
def State.panelRead (s : State) : PanelReg → Word
  | .e => s.regs.e
  | .a => s.regs.a
  | .s => s.panel.sReg
  | .d => s.panel.dReg
  | .p => s.regs.p
  | .l => s.regs.l
  | .t => s.regs.t
  | .x1 => s.regs.x1
  | .x2 => s.regs.x2

/-- Load the register the SELECT switch chooses (R401). -/
def State.panelWrite (s : State) (r : PanelReg) (v : Word) : State :=
  match r with
  | .e => s.setReg .e v
  | .a => s.setReg .a v
  | .s => { s with panel.sReg := v }
  | .d => { s with panel.dReg := v }
  | .p => s.setReg .p v
  | .l => s.setReg .l v
  | .t => s.setReg .t v
  | .x1 => s.setReg .x1 v
  | .x2 => s.setReg .x2 v

/-- Show the location `a`: S and P hold it and D its contents (R401 MEMORY FETCH, INCREMENT ADDRESS). -/
def showLocation (a : Word) (s : State) : State :=
  { s.setReg .p a with panel.sReg := a, panel.dReg := s.wordAt a }

/-- The Watchdog Timer signals: its relay closes, and the level it is connected to, if any, is triggered (R248, R380). -/
def watchdogSignal (s : State) : State :=
  match s.cfg.watchdog with
  | some w => match w.level with
    | some l => trigger l s
    | none => s
  | none => s

/-- The parity of a stored word becomes bad or good (R60, R79). -/
def setParityOf (a : Word) (bad : Bool) (s : State) : State :=
  if s.existsAt a then
    { s with
      badParity := if bad then insertAddress s.badParity a.toNat else removeAddress s.badParity a.toNat }
  else s

/-- A parity halt ends when the processor sees the right PARITY ERROR switch at IGNORE: the key unlocked and the switch there (R42,
R372). That unlocking the key over a switch already at IGNORE ends it too is a DESIGN CHOICE (log entry 30). -/
def endParityHalt (s : State) : State :=
  { s with panel.parityHalt := s.panel.parityHalt && !(s.parityMode == .ignore) }

/-- The key-operated switch is turned: the processor sees other positions of the switches (R402). -/
def turnKey (k : KeySwitch) (s : State) : State :=
  endParityHalt (computeEffect s { s with panel.key := k })

/-- The conditions of a device and its controller change by themselves (R286): a busy device keeps both, a busy controller its own; the
controller's condition is that of all its devices, and that of a single device's controller is the device's. -/
def changeCondition (dev : Byte) (device controller : Condition) (s : State) : State :=
  match s.findDevice dev with
  | none => s
  | some d =>
    if d.condition == .busy || device == .busy || controller == .busy then s
    else
      let s1 := s.updateDevice dev fun x => { x with condition := device }
      if dev.toNat < 128 then s1.setController dev device
      else if d.controller == .busy then s1
      else s1.setController dev controller

/-- One event of the environment. -/
def applyInput (i : Input) (s : State) : Except Refusal State :=
  match i with
  | .signal l => .ok (if externallySignalled l then trigger l s else s)
  | .agentWrite a v => .ok (if s.cfg.integralWords ≤ a.toNat then s.storeWord a v else s)
  | .parity a bad => .ok (setParityOf a bad s)
  | .service dev tr => if s.computeMode = .idle then .ok s else serviceDevice dev tr s
  | .ending dev te il cm ce ue => .ok (if s.computeMode = .idle then s else endOperation dev te il cm (ce || !te && !ue) ue s)
  | .deviceInterrupt dev => .ok (s.raiseDevice dev)
  | .deviceCondition dev d c => .ok (changeCondition dev d c s)
  | .deviceOwn dev own => .ok (s.updateDevice dev fun d => { d with own := own })
  | .watchdogExpires => .ok (if s.watchdog.enabled then watchdogSignal (s.send .hangUp) else s)
  | .setData v => .ok { s with panel.data := v }
  | .setProtect on => .ok { s with panel.protect := on }
  | .setParity sw => .ok (endParityHalt { s with panel.parity := sw })
  | .setProgAdd hold => .ok { s with panel.progAddHold := hold }
  | .setKey k => .ok (turnKey k s)
  | .computeIdle => .ok (moveCompute .idle s)
  | .computeRun => .ok (moveCompute .run s)
  | .computeStep => .ok (moveCompute .step s)
  | .initializeReset => .ok (if s.panelOperative then initializeReset s else s)
  | .initializeLoad => .ok (if s.panelOperative then initializeLoad s else s)
  | .registerClear r => .ok (if s.panelOperative then s.panelWrite r 0 else s)
  | .registerEnter r => .ok (if s.panelOperative then s.panelWrite r (s.panelRead r ||| s.panel.data) else s)
  | .memoryStore => .ok (if s.panelOperative then s.storeWord s.panel.sReg s.panel.dReg else s)
  | .memoryFetch => .ok (if s.panelOperative then showLocation s.panel.sReg s else s)
  | .incrementAddress => .ok (if s.panelOperative then showLocation (s.panel.sReg + 1) s else s)

/-- The events of one batch, in order. -/
def applyInputs : List Input → State → Except Refusal State
  | [], s => .ok s
  | i :: rest, s =>
    match applyInput i s with
    | .ok t => applyInputs rest t
    | .error r => .error r

/-- Everything that happens outside between two steps: the next batch of events, and the held signal of the I/O level (R345, R275). -/
def takeInputs (s : State) : Except Refusal State :=
  match applyInputs (s.env.inputs.headD []) { s with env.inputs := s.env.inputs.tail } with
  | .ok t => .ok (holdIoSignal t)
  | .error r => .error r

end Sys2Proof.Machine
end

