-- ==== Sys2Proof/Machine/Cycle.lean ====
section
/-! DEFINITION. The parts of the processor's step around the execution of an instruction (rule R345): interrupt recognition with
counter service and entry (part A), the fetch with its checks (the first half of part B), and what follows an instruction. -/

namespace Sys2Proof.Machine

/-- The processor runs: COMPUTE, as the key lets it see the switch, is not in IDLE and no parity halt holds it (R41, R42, R402). -/
def State.running (s : State) : Bool := s.computeMode != .idle && !s.panel.parityHalt

/-- Part A (R345): levels are selected again and again as long as the selected level is a counter, which is serviced; the first
normal level selected is entered. Each service leaves its counter armed, so four services and one entry are the most that can
happen, and a fuel of five suffices. -/
def recognise : Nat → State → State
  | 0, s => s
  | k + 1, s =>
    match select s with
    | none => s
    | some (.counter n) => recognise k (serviceCounter n s)
    | some l => enterLevel l s

/-- Part A where it applies: not with the exit condition set, not before the first instruction after IDLE (R345, R396). DESIGN CHOICE
(log entry 28): this holds for STEP as R396 says it of RUN, so no level is recognised and no counter serviced in a STEP; R397 does
not speak of interrupts. -/
def recognition (s : State) : State :=
  if s.running && !s.exitCond && !s.panel.firstFromD then recognise 5 s else s

/-- P after the fetch: the next address, unless PROG ADD is at HOLD, which a locked key makes NORMAL (R345, R401, R402). -/
def nextP (s : State) : Word :=
  if s.panel.progAddHold && s.panel.key == .unlocked then s.regs.p else s.regs.p + 1

/-- The instruction word at H: from D after IDLE, else from memory (R345, R396). -/
def instructionWord (fromD : Bool) (s : State) : Except Trap Word :=
  if fromD then .ok s.panel.dReg else readChecked s s.h

/-- The start of a fetch (R345): H from P; the word in D is taken at most once (R396). -/
def startFetch (s : State) : State := { s with h := s.regs.p, panel.firstFromD := false }

/-- The fetch (R345): H from P, the check of rule 2, the word, P to the next address. -/
def fetch (s : State) : Fetched :=
  if !s.running || s.wff then .rest s
  else
    match fetchCheck (startFetch s) with
    | .error t => .rest (takeTrap t (startFetch s))
    | .ok s2 =>
      match instructionWord s.panel.firstFromD s2 with
      | .error t => .rest (takeTrap t s2)
      | .ok w => .run w (s2.setReg .p (nextP s2))

/-- COMPUTE at STEP returns to IDLE after one instruction (R397); with the key locked only the lever does (R402). -/
def endStep (s : State) : State := if s.panel.compute = .step then moveCompute .idle s else s

/-- One instruction is completed: the signal of an abort in it falls due with the next one. -/
def State.tickWatchdog (s : State) : State := { s with watchdog.aborted := false, watchdog.signalDue := s.watchdog.aborted }

/-- The Watchdog Timer's signal after the instruction that follows an aborted direct I/O instruction (R380). -/
def countWatchdog (s : State) : State :=
  if s.watchdog.signalDue then watchdogSignal s.tickWatchdog else s.tickWatchdog

/-- What follows the execution of an instruction. -/
def afterInstruction (r : Result) : Result :=
  match r with
  | .next s => .next (endStep (countWatchdog s))
  | .fault f => .fault f
  | .refused f => .refused f

end Sys2Proof.Machine
end

