-- ==== Sys2Proof/Machine/Flags.lean ====
section
/-! DEFINITION. The overflow and carry of each operation that sets them (rules R34, R35, R130): add, subtract, increment, compare,
shift. -/

namespace Sys2Proof.Machine

/-- Overflow of an add with operands `d` and `s`: equal signs and a result of the other sign (R127, R186). -/
def addOverflow (d s res : Word) : Bool := bitAt d 0 == bitAt s 0 && bitAt res 0 != bitAt d 0

/-- Carry of an add: the true sum does not fit in 16 bits (R127, R186). -/
def carryOut (sum : Nat) : Bool := 2 ^ 16 ≤ sum

/-- The adder's sum for a subtract: A plus the one's complement of the effective word plus 1 (R129). -/
def subtractSum (a m : Word) : Nat := a.toNat + (0xFFFF - m.toNat) + 1

/-- Overflow of a subtract: the result has the effective word's sign and A had the other (R129). -/
def subOverflow (a m res : Word) : Bool := bitAt res 0 == bitAt m 0 && bitAt a 0 != bitAt m 0

/-- O and C of COMPARE, (O, C): less (0, 0), greater (0, 1), equal (1, 1), as signed values (R145, R146). -/
def compareCode (a m : Word) : Bool × Bool :=
  if a.toInt < m.toInt then (false, false) else if m.toInt < a.toInt then (false, true) else (true, true)

/-- Overflow of INCREMENT MEMORY: the result is X'8000' (R137). -/
def incrementOverflow (res : Word) : Bool := res == 0x8000

/-- Carry of INCREMENT MEMORY: the result is X'0000' (R137). -/
def incrementCarry (res : Word) : Bool := res == 0

end Sys2Proof.Machine
end

