-- ==== Sys2Proof/Machine/Arith.lean ====
section
/-! DEFINITION. The shared computations of the arithmetic, shift and copy instructions: multiply (rule R131), divide (R133, R134),
the shift step and its repetition (R141), and the copy operation (R182). -/

namespace Sys2Proof.Machine

/-- The doubleword E:A, E the more significant half (R66, R133). -/
def State.pair (s : State) : BitVec 32 := s.regs.e ++ s.regs.a

/-- Load E and A from a doubleword (R131, R141). -/
def State.setPair (s : State) (v : BitVec 32) : State :=
  (s.setReg .e (v.extractLsb' 16 16)).setReg .a (v.extractLsb' 0 16)

/-- The exact product of two signed words as a two's complement doubleword (R131). -/
def product (a m : Word) : BitVec 32 := BitVec.ofInt 32 (a.toInt * m.toInt)

/-- What DIVIDE does: quotient and remainder, or the overflow exit (R133). -/
def divide (dividend : BitVec 32) (divisor : Word) : Option (Word × Word) :=
  let q := dividend.toInt.tdiv divisor.toInt
  if divisor = 0 ∨ 32768 ≤ q.natAbs then none
  else some (BitVec.ofInt 16 q, BitVec.ofInt 16 (dividend.toInt.tmod divisor.toInt))

/-- A shift under way: the value, whether the sign has changed, and the parity of the 1s that left the sign position. -/
structure ShiftState (w : Nat) where
  v : BitVec w
  ovf : Bool
  cy : Bool
  deriving DecidableEq, Repr

/-- One position of a shift (R141). -/
def shiftStep {w : Nat} (left circ : Bool) (x : ShiftState w) : ShiftState w :=
  if left then
    let out := x.v.msb
    let v := (x.v <<< 1) ||| (if circ && out then 1#w else 0#w)
    { v := v, ovf := x.ovf || (!circ && v.msb != out), cy := x.cy != out }
  else
    let enter := if circ then x.v.getLsbD 0 else x.v.msb
    { x with v := (x.v >>> 1) ||| (if enter then BitVec.intMin w else 0#w) }

/-- `n` positions of a shift (R141). -/
def shiftRun {w : Nat} (left circ : Bool) : Nat → ShiftState w → ShiftState w
  | 0, x => x
  | n + 1, x => shiftRun left circ n (shiftStep left circ x)

/-- A shift of `n` positions from the start, O and C clear (R141). -/
def shiftValue {w : Nat} (left circ : Bool) (n : Nat) (v : BitVec w) : ShiftState w :=
  shiftRun left circ n { v := v, ovf := false, cy := false }

/-- SHIFT by a specification: bit 8 double, bit 9 circular, bit 10 left, bits 11 to 15 the count; bits 0 to 7 ignored (R141). -/
def shift (spec : Word) (s : State) : State :=
  let circ := bitAt spec 9
  let left := bitAt spec 10
  let n := field spec 11 15
  if bitAt spec 8 then
    let r := shiftValue left circ n s.pair
    (s.setPair r.v).setOC r.ovf r.cy
  else
    let r := shiftValue left circ n s.regs.a
    (s.setReg .a r.v).setOC r.ovf r.cy

/-- The value of a copy before it is cut to 16 bits (R182 step 3). -/
def copySum (op : CopyOp) (d s : Word) (inc : Nat) : Nat :=
  match op with
  | .and => (d &&& s).toNat + inc
  | .or => (d ||| s).toNat + inc
  | .xor => (d ^^^ s).toNat + inc
  | .add => d.toNat + s.toNat + inc

/-- The copy instruction (R182): the operands are captured first; the add writes O and C, the logical operations do not. -/
def copyOp (op : CopyOp) (ac ai cd : Bool) (c : CopyArgs) (s : State) : State :=
  let src := copySource c s
  let dst := copyDest cd c s
  let sum := copySum op dst src (copyIncrement ac ai s)
  let res : Word := BitVec.ofNat 16 sum
  let s1 := s.setReg c.dst res
  match op with
  | .add => s1.setOC (addOverflow dst src res) (carryOut sum)
  | .and => s1
  | .or => s1
  | .xor => s1

end Sys2Proof.Machine
end

