-- ==== Sys2Proof/Machine/ArithLogic.lean ====
section
/-! DEFINITION. The meanings of ADD, SUB, MUL, DIV, AND, IM, S and CP (rules R127 to R145). -/

namespace Sys2Proof.Machine

/-- ADD (R127). -/
def execAdd (m : MemRef) (s : State) : Result :=
  withOperand m s fun v =>
    let sum := s.regs.a.toNat + v.toNat
    let res : Word := BitVec.ofNat 16 sum
    .next ((s.setReg .a res).setOC (addOverflow s.regs.a v res) (carryOut sum))

/-- SUB, SUBTRACT (R129). -/
def execSub (m : MemRef) (s : State) : Result :=
  withOperand m s fun v =>
    let sum := subtractSum s.regs.a v
    let res : Word := BitVec.ofNat 16 sum
    .next ((s.setReg .a res).setOC (subOverflow s.regs.a v res) (carryOut sum))

/-- The multiply/divide option is installed, or the instruction takes its exception (R370). -/
def requireMulDiv (t : Trap) (s : State) : Except Trap Unit := if s.cfg.mulDiv then .ok () else .error t

/-- MUL, MULTIPLY (R131, R370): the product in E and A, its sign in C, O unchanged. -/
def execMul (m : MemRef) (s : State) : Result :=
  withAddr m s fun ea =>
    attempt s (requireMulDiv .multiply s) fun _ =>
      attempt s (readChecked s ea) fun v =>
        .next ((s.setPair (product s.regs.a v)).setOC s.ind.o (product s.regs.a v).msb)

/-- DIV, DIVIDE (R133, R134, R370): quotient in A, remainder in E, the remainder's sign in C; on overflow and for a divisor of zero
E and A stay and C is the dividend's sign. -/
def execDiv (m : MemRef) (s : State) : Result :=
  withAddr m s fun ea =>
    attempt s (requireMulDiv .divide s) fun _ =>
      attempt s (readChecked s ea) fun v =>
        match divide s.pair v with
        | some (q, r) => .next (((s.setReg .a q).setReg .e r).setOC false (bitAt r 0))
        | none => .next (s.setOC true (bitAt s.regs.e 0))

/-- AND, LOGICAL AND (R135). -/
def execAnd (m : MemRef) (s : State) : Result :=
  withOperand m s fun v => .next (s.setReg .a (s.regs.a &&& v))

/-- IM, INCREMENT MEMORY (R137, R70). -/
def execIm (m : MemRef) (s : State) : Result :=
  withAddr m s fun ea =>
    attempt s (checkStore s ea) fun _ =>
      attempt s (readChecked s ea) fun v =>
        .next ((s.storeWord ea (v + 1)).setOC (incrementOverflow (v + 1)) (incrementCarry (v + 1)))

/-- S, SHIFT (R141): the effective address is the specification; the effective location is not read. -/
def execS (m : MemRef) (s : State) : Result :=
  withAddr m s fun ea => .next (shift ea s)

/-- CP, COMPARE (R145). -/
def execCp (m : MemRef) (s : State) : Result :=
  withOperand m s fun v => .next (s.setOC (compareCode s.regs.a v).1 (compareCode s.regs.a v).2)

end Sys2Proof.Machine
end

