-- ==== Sys2Proof/Machine/Branch.lean ====
section
/-! DEFINITION. The meanings of B (rule R139) and of the eight conditional branches (R160 to R170). -/

namespace Sys2Proof.Machine

/-- B, BRANCH (R139): the effective location is not read. -/
def execB (m : MemRef) (s : State) : Result :=
  withAddr m s fun ea => .next (s.setReg .p ea)

/-- A conditional branch on a condition already settled (R160). -/
def branchIf (taken : Bool) (k : BitVec 9) (s : State) : Result :=
  unlessExit s (.next (if taken then s.setReg .p (branchTarget k s) else s))

/-- X1 incremented, and a branch if the result is not zero (R165). -/
def branchIndex (k : BitVec 9) (s : State) : Result :=
  branchIf (s.regs.x1 + 1 != 0) k (s.setReg .x1 (s.regs.x1 + 1))

/-- BNO, BRANCH IF NO OVERFLOW (R162). -/
def execBno (k : BitVec 9) (s : State) : Result := branchIf (!s.ind.o) k s

/-- BNC, BRANCH IF NO CARRY (R163). -/
def execBnc (k : BitVec 9) (s : State) : Result := branchIf (!s.ind.c) k s

/-- BAZ, BRANCH IF ACCUMULATOR ZERO (R164). -/
def execBaz (k : BitVec 9) (s : State) : Result := branchIf (s.regs.a == 0) k s

/-- BIX, BRANCH ON INCREMENTING INDEX (R165). -/
def execBix (k : BitVec 9) (s : State) : Result := branchIndex k s

/-- BXNO, BRANCH ON INCREMENTING INDEX AND NO OVERFLOW (R166). -/
def execBxno (k : BitVec 9) (s : State) : Result := if s.ind.o then branchIf false k s else branchIndex k s

/-- BXNC, BRANCH ON INCREMENTING INDEX AND NO CARRY (R167). -/
def execBxnc (k : BitVec 9) (s : State) : Result := if s.ind.c then branchIf false k s else branchIndex k s

/-- BEN, BRANCH IF EXTENDED ACCUMULATOR NEGATIVE (R168). -/
def execBen (k : BitVec 9) (s : State) : Result := branchIf (bitAt s.regs.e 0) k s

/-- BAN, BRANCH IF ACCUMULATOR NEGATIVE (R169). -/
def execBan (k : BitVec 9) (s : State) : Result := branchIf (bitAt s.regs.a 0) k s

end Sys2Proof.Machine
end

