-- ==== Sys2Proof/Machine/Copy.lean ====
section
/-! DEFINITION. The meanings of the copy instruction under its fifteen mnemonics (rules R187 to R201) and in general (R182, R202):
each is the copy operation of Machine/Arith.lean with bits 4 to 8 as R106 fixes them. -/

namespace Sys2Proof.Machine

/-- RCPY, REGISTER COPY (R187). -/
def execRcpy (c : CopyArgs) (s : State) : Result := unlessExit s (.next (copyOp .or false false true c s))

/-- RADD, REGISTER ADD (R188). -/
def execRadd (c : CopyArgs) (s : State) : Result := unlessExit s (.next (copyOp .add false false false c s))

/-- ROR, REGISTER OR (R189). -/
def execRor (c : CopyArgs) (s : State) : Result := unlessExit s (.next (copyOp .or false false false c s))

/-- REOR, REGISTER EXCLUSIVE OR (R190). -/
def execReor (c : CopyArgs) (s : State) : Result := unlessExit s (.next (copyOp .xor false false false c s))

/-- RAND, REGISTER AND (R191). -/
def execRand (c : CopyArgs) (s : State) : Result := unlessExit s (.next (copyOp .and false false false c s))

/-- RCPYI, REGISTER COPY AND INCREMENT (R192). -/
def execRcpyi (c : CopyArgs) (s : State) : Result := unlessExit s (.next (copyOp .or false true true c s))

/-- RADDI, REGISTER ADD AND INCREMENT (R193). -/
def execRaddi (c : CopyArgs) (s : State) : Result := unlessExit s (.next (copyOp .add false true false c s))

/-- RORI, REGISTER OR AND INCREMENT (R194). -/
def execRori (c : CopyArgs) (s : State) : Result := unlessExit s (.next (copyOp .or false true false c s))

/-- REORI, REGISTER EXCLUSIVE OR AND INCREMENT (R195). -/
def execReori (c : CopyArgs) (s : State) : Result := unlessExit s (.next (copyOp .xor false true false c s))

/-- RANDI, REGISTER AND AND INCREMENT (R196). -/
def execRandi (c : CopyArgs) (s : State) : Result := unlessExit s (.next (copyOp .and false true false c s))

/-- RCPYC, REGISTER COPY AND CARRY (R197). -/
def execRcpyc (c : CopyArgs) (s : State) : Result := unlessExit s (.next (copyOp .or true false true c s))

/-- RADDC, REGISTER ADD AND CARRY (R198). -/
def execRaddc (c : CopyArgs) (s : State) : Result := unlessExit s (.next (copyOp .add true false false c s))

/-- RORC, REGISTER OR AND CARRY (R199). -/
def execRorc (c : CopyArgs) (s : State) : Result := unlessExit s (.next (copyOp .or true false false c s))

/-- REORC, REGISTER EXCLUSIVE OR AND CARRY (R200). -/
def execReorc (c : CopyArgs) (s : State) : Result := unlessExit s (.next (copyOp .xor true false false c s))

/-- RANDC, REGISTER AND AND CARRY (R201). -/
def execRandc (c : CopyArgs) (s : State) : Result := unlessExit s (.next (copyOp .and true false false c s))

/-- A copy instruction by its fields (R182), which the seventeen settings without a mnemonic use (R202). -/
def execCopy (op : CopyOp) (ac ai cd : Bool) (c : CopyArgs) (s : State) : Result :=
  unlessExit s (.next (copyOp op ac ai cd c s))

end Sys2Proof.Machine
end

