-- ==== Sys2Proof/Machine/DirectControl.lean ====
section
/-! DEFINITION. The meanings of READ DIRECT and WRITE DIRECT (rules R210 to R249) and of the five I/O instructions (R280 to R285),
which are READ DIRECT with a fixed effective address. All are privileged (R212). -/

namespace Sys2Proof.Machine

/-- The functions of READ DIRECT (R214 to R223). -/
def readDirect (ea : Word) (s : State) : Result :=
  match readFunction ea with
  | .register n =>
    match s.getBlock n with
    | some v => .next (s.setReg .a v)
    | none => .refused .noSuchRegister
  | .sio => .next (doSio s)
  | .tio => .next (doTio s)
  | .tdv => .next (doTdv s)
  | .hio => .next (doHio s)
  | .aio => .next (doAio s)
  | .dataSwitches => .next (s.setReg .a s.panel.data)
  | .saveStatus => .next (s.setReg .a (statusWord s.ind))
  | .saveAndInhibit set i e => .next ((s.setReg .a (statusWord s.ind)).setInhibits set i e)
  | .direct => directRead ea s
  | .undefined r => .refused r

/-- The functions of WRITE DIRECT (R224 to R247). -/
def writeDirect (ea : Word) (s : State) : Result :=
  match writeFunction ea with
  | .register n =>
    if s.channelRegBusy n then .refused .channelRegisterBusy
    else if (s.getBlock n).isSome then .next (s.setBlock n s.regs.a)
    else .refused .noSuchRegister
  | .testAndClear n =>
    match s.getBlock n with
    | some v => .next ((s.setBlock n (v &&& 0x7FFF)).setOC (bitAt v 0) s.ind.c)
    | none => .refused .noSuchRegister
  | .protection n => .next (s.setProtection n s.regs.a)
  | .loadStatus => .next (s.loadStatus s.regs.a)
  | .wait => .next { s with wff := true }
  | .exit => .next { s with exitCond := true }
  | .inhibit set i e => .next (s.setInhibits set i e)
  | .control op g => .next (controlGroup op g s.regs.a s)
  | .direct => directWrite ea s
  | .undefined r => unassignedWrite ea r s

/-- RD, READ DIRECT (R210, R212, R214). -/
def execRd (m : MemRef) (s : State) : Result :=
  withAddr m s fun ea => attempt s (checkPrivileged s) fun _ => readDirect ea s

/-- WD, WRITE DIRECT (R210, R212, R224). -/
def execWd (m : MemRef) (s : State) : Result :=
  withAddr m s fun ea => attempt s (checkPrivileged s) fun _ => writeDirect ea s

/-- A privileged I/O function (R212, R285). -/
def privileged (s : State) (t : State) : Result :=
  unlessExit s (attempt s (checkPrivileged s) fun _ => .next t)

/-- SIO, START INPUT/OUTPUT (R280, R289). -/
def execSio (s : State) : Result := privileged s (doSio s)

/-- TIO, TEST INPUT/OUTPUT (R281). -/
def execTio (s : State) : Result := privileged s (doTio s)

/-- TDV, TEST DEVICE (R282). -/
def execTdv (s : State) : Result := privileged s (doTdv s)

/-- HIO, HALT INPUT/OUTPUT (R283). -/
def execHio (s : State) : Result := privileged s (doHio s)

/-- AIO, ACKNOWLEDGE I/O INTERRUPT (R284). -/
def execAio (s : State) : Result := privileged s (doAio s)

end Sys2Proof.Machine
end

