-- ==== Sys2Proof/Machine/LoadStore.lean ====
section
/-! DEFINITION. The meanings of LDA, STA and LDX (rules R121 to R126). -/

namespace Sys2Proof.Machine

/-- LDA, LOAD ACCUMULATOR (R121). -/
def execLda (m : MemRef) (s : State) : Result :=
  withOperand m s fun v => .next (s.setReg .a v)

/-- STA, STORE ACCUMULATOR (R122, R70). -/
def execSta (m : MemRef) (s : State) : Result :=
  withAddr m s fun ea => attempt s (checkStore s ea) fun _ => .next (s.storeWord ea s.regs.a)

/-- LDX, LOAD INDEX (R123), and with the exit condition set the exit from an interrupt routine (R124, R125). -/
def execLdx (m : MemRef) (s : State) : Result :=
  attempt s (effAddr m s) fun ea =>
    attempt s (readChecked s ea) fun v =>
      if s.exitCond then attempt s (readChecked s (ea + 1)) fun next => .next (exitLevel v next s)
      else .next (s.setReg .x1 v)

end Sys2Proof.Machine
end

