-- ==== Sys2Proof/Machine/Dispatch.lean ====
section
/-! DEFINITION. The meaning of every instruction: one arm per constructor of `Instr`. -/

namespace Sys2Proof.Machine

def exec (i : Instr) (s : State) : Host.Outcome State Fault Refusal :=
  match i with
  | .wd m => Sys2Proof.Machine.execWd m s
  | .rd m => Sys2Proof.Machine.execRd m s
  | .s m => Sys2Proof.Machine.execS m s
  | .mul m => Sys2Proof.Machine.execMul m s
  | .b m => Sys2Proof.Machine.execB m s
  | .div m => Sys2Proof.Machine.execDiv m s
  | .lda m => Sys2Proof.Machine.execLda m s
  | .and m => Sys2Proof.Machine.execAnd m s
  | .add m => Sys2Proof.Machine.execAdd m s
  | .sub m => Sys2Proof.Machine.execSub m s
  | .ldx m => Sys2Proof.Machine.execLdx m s
  | .cp m => Sys2Proof.Machine.execCp m s
  | .sta m => Sys2Proof.Machine.execSta m s
  | .im m => Sys2Proof.Machine.execIm m s
  | .bno k => Sys2Proof.Machine.execBno k s
  | .bnc k => Sys2Proof.Machine.execBnc k s
  | .baz k => Sys2Proof.Machine.execBaz k s
  | .bix k => Sys2Proof.Machine.execBix k s
  | .bxno k => Sys2Proof.Machine.execBxno k s
  | .bxnc k => Sys2Proof.Machine.execBxnc k s
  | .ben k => Sys2Proof.Machine.execBen k s
  | .ban k => Sys2Proof.Machine.execBan k s
  | .rcpy c => Sys2Proof.Machine.execRcpy c s
  | .radd c => Sys2Proof.Machine.execRadd c s
  | .ror c => Sys2Proof.Machine.execRor c s
  | .reor c => Sys2Proof.Machine.execReor c s
  | .rand c => Sys2Proof.Machine.execRand c s
  | .rcpyi c => Sys2Proof.Machine.execRcpyi c s
  | .raddi c => Sys2Proof.Machine.execRaddi c s
  | .rori c => Sys2Proof.Machine.execRori c s
  | .reori c => Sys2Proof.Machine.execReori c s
  | .randi c => Sys2Proof.Machine.execRandi c s
  | .rcpyc c => Sys2Proof.Machine.execRcpyc c s
  | .raddc c => Sys2Proof.Machine.execRaddc c s
  | .rorc c => Sys2Proof.Machine.execRorc c s
  | .reorc c => Sys2Proof.Machine.execReorc c s
  | .randc c => Sys2Proof.Machine.execRandc c s
  | .copy op ac ai cd c => Sys2Proof.Machine.execCopy op ac ai cd c s
  | .sio => Sys2Proof.Machine.execSio s
  | .tio => Sys2Proof.Machine.execTio s
  | .tdv => Sys2Proof.Machine.execTdv s
  | .hio => Sys2Proof.Machine.execHio s
  | .aio => Sys2Proof.Machine.execAio s

end Sys2Proof.Machine
end

