-- ==== Sys2Proof/Machine/Step.lean ====
section
/-! DEFINITION. One step of the machine (rule R345): what happens outside, interrupt recognition, the fetch, and the execution of
the instruction fetched. -/

namespace Sys2Proof.Machine

/-- The step (R345). -/
def step (s : State) : Host.Outcome State Fault Refusal :=
  match takeInputs s with
  | .error r => .refused r
  | .ok t =>
    match fetch (recognition t) with
    | .rest u => .next (endStep u)
    | .run w u => afterInstruction (exec (decode w) u)

/-- The instruction stored where the step fetches its next instruction: at P in memory, and in D if the processor is to take its
first instruction from there (R345, R396). -/
def State.withFetchWord (s : State) (nbits w : Nat) : State :=
  let v : Word := BitVec.ofNat 16 (w % 2 ^ nbits)
  let t := s.storeWord s.regs.p v
  if s.panel.firstFromD then { t with panel.dReg := v } else t

end Sys2Proof.Machine
end

