-- ==== Sys2Proof/Safety.lean ====
section
/-! DEFINITION. The words the statements use: the invariant of the machine, when a privileged instruction and a store are
allowed, what an aborted instruction leaves, and what a write of a register or of a memory word leaves. -/

namespace Sys2Proof.Machine

/-! The invariant. -/

/-- Core memory is in its canonical form and lists only bytes of implemented words (R60). -/
def State.MemoryInv (s : State) : Prop :=
  s.mem.wf ∧ (∀ c ∈ s.mem, c.1 < 2 * s.cfg.memWords) ∧ s.badParity.Pairwise (· < ·) ∧ ∀ a ∈ s.badParity, a < s.cfg.memWords

/-- What the flip-flops of the levels never show between two steps: an override level disarmed or disabled (R38, R313), a counter
level active (R340), a level that is not installed waiting or active (R316). -/
def State.LevelInv (s : State) : Prop :=
  ∀ l : Level,
    (isOverride l = true → (s.level l).state ≠ .disarmed ∧ (s.level l).enabled = true) ∧
    (∀ n, l = .counter n → (s.level l).state ≠ .active) ∧
    (installed s.cfg l = false → (s.level l).state ≠ .waiting ∧ (s.level l).state ≠ .active)

/-- The invariant: memory, levels, PP zero without the protection option (R32), and the exit condition never set while the
processor waits (R126, R230). -/
def State.Inv (s : State) : Prop :=
  s.MemoryInv ∧ s.LevelInv ∧ (s.cfg.protect = false → s.ind.pp = false) ∧ (s.exitCond = true → s.wff = false)

/-! When an instruction is allowed. -/

/-- Rule 1 lets the instruction at H control the machine (R212): it lies in protected memory, or the protection system does not
object. -/
def State.MayControl (s : State) : Prop :=
  s.operative = false ∨ s.protBit s.h = true ∨ s.powerLevelBusy = true

/-- Rule 3 lets the instruction at H store at an address (R70). -/
def State.MayStore (s : State) (a : Word) : Prop :=
  s.operative = false ∨ s.protBit s.h = true ∨ s.protBit a = false ∨ s.powerLevelBusy = true

/-- The instruction with this operand is executed with the exit condition clear, and its effective address is `ea`. -/
def Addresses (m : MemRef) (s : State) (ea : Word) : Prop :=
  s.exitCond = false ∧ effAddr m s = .ok ea

/-- The instruction with this operand is executed with the exit condition clear, its effective address is `ea` and the word it
reads there, without an abort, is `v`. -/
def Reads (m : MemRef) (s : State) (ea v : Word) : Prop :=
  Addresses m s ea ∧ readChecked s ea = .ok v

/-! What an instruction leaves. -/

/-- Nothing but the general registers, O and C differs between the two states, and O and C are as given. -/
def OnlyRegsOC (s t : State) (o c : Bool) : Prop :=
  t = { s with regs := t.regs, ind.o := o, ind.c := c }

/-- One general register holds the value, every other what it held; register 0 reads zero and a write to it is lost (R22). -/
def RegWritten (s t : State) (r : Reg) (v : Word) : Prop :=
  ∀ q, t.getReg q = if q = r ∧ q ≠ .z then v else s.getReg q

/-- One word is stored at a word address, if the location exists; every byte outside it reads as before, and a stored word has good
parity (R60, R63, R65). -/
def WordStored (s t : State) (a v : Word) : Prop :=
  (s.existsAt a = true → t.mem.readWord a.toNat = v) ∧
  (∀ b, (s.existsAt a = true → b ≠ 2 * a.toNat ∧ b ≠ 2 * a.toNat + 1) → t.mem.readByte b = s.mem.readByte b) ∧
  ∀ k, k ∈ t.badParity ↔ k ∈ s.badParity ∧ (s.existsAt a = true → k ≠ a.toNat)

/-- The levels of the second state are those of the first with a signal at the input of one (R326): an installed armed level waits, and
no other flip-flop changes. -/
def LevelSignalled (l : Level) (s t : State) : Prop :=
  ∀ k, t.level k =
    if k = l ∧ installed s.cfg l = true ∧ (s.level l).state = .armed then { s.level l with state := .waiting } else s.level k

/-- The instruction at H was aborted and signalled a level (R350): P points at it, the exit condition is reset, the level waits if
it was installed and armed, and nothing else changed, the wait flip-flop apart, which is as given. -/
def AbortedTo (l : Level) (s t : State) (wff : Bool) : Prop :=
  t = { s with regs.p := s.h, exitCond := false, wff := wff, levels := t.levels } ∧ LevelSignalled l s t

/-- The instruction reads its operand, and every abort of its two reads takes the exception and does nothing else (R120). -/
def AbortsOnRead (i : Instr) (m : MemRef) (s : State) : Prop :=
  (∀ t, effAddr m s = .error t → exec i s = .next (takeTrap t s)) ∧
  ∀ ea t, effAddr m s = .ok ea → readChecked s ea = .error t → exec i s = .next (takeTrap t s)

/-- The meaning ends with one general register written and nothing else changed. -/
def WritesOnly (r : Result) (s : State) (dst : Reg) (v : Word) : Prop :=
  ∃ t, r = .next t ∧ RegWritten s t dst v ∧ t = { s with regs := t.regs }

/-- The meaning ends with one general register, O and C written and nothing else changed. -/
def WritesWithFlags (r : Result) (s : State) (dst : Reg) (v : Word) (o c : Bool) : Prop :=
  ∃ t, r = .next t ∧ RegWritten s t dst v ∧ OnlyRegsOC s t o c

/-- Every device but one is as before, but that those on its controller show the controller condition given (R286). -/
def OthersShow (c : Condition) (dev : Byte) (s t : State) : Prop :=
  ∀ n, n ≠ dev →
    t.findDevice n = (s.findDevice n).map fun x => if sameController n dev then { x with controller := c } else x

/-- The words whose parity is bad are as before, but that a store makes that of an existing location good (R60, R63, R65). -/
def ParityMended (s t : State) (stored : List Word) : Prop :=
  ∀ k, k ∈ t.badParity ↔ k ∈ s.badParity ∧ ∀ a ∈ stored, s.existsAt a = true → k ≠ a.toNat

/-! Values the statements compare with. -/

/-- The place of a level in the priority chain (R312 column "pri", R314): the ten override and counter levels, then sixteen places for
each group in the order of the installation. -/
def chainPlace (c : Config) : Level → Nat
  | .powerOn => 0
  | .powerOff => 1
  | .counter n => 5 - n.val
  | .memoryParity => 6
  | .protection => 7
  | .multiply => 8
  | .divide => 9
  | .inputOutput => 16 * (c.groupOrder.idxOf .inputOutput + 1)
  | .controlPanel => 16 * (c.groupOrder.idxOf .inputOutput + 1) + 1
  | .counterZero n => 16 * (c.groupOrder.idxOf .inputOutput + 1) + 5 - n.val
  | .integral n => 16 * (c.groupOrder.idxOf .inputOutput + 1) + 6 + n.val
  | .external g i => 16 * (c.groupOrder.idxOf (.external g) + 1) + i.val

/-- Effective addresses of WRITE DIRECT in the internal and the interrupt control mode to which the rules give no function (R213, R234,
R244, R245). -/
def WriteUnassigned (ea : Nat) : Prop :=
  0x90 ≤ ea ∧ ea ≤ 0xBF ∨ 0xC1 ≤ ea ∧ ea ≤ 0xCF ∨ 0xD1 ≤ ea ∧ ea ≤ 0xD7 ∨ 0xD9 ≤ ea ∧ ea ≤ 0xDF ∨
    0xE0 ≤ ea ∧ ea ≤ 0xFF ∧ ea % 4 ≠ 0 ∨ 0x100 ≤ ea ∧ ea < 0x1010 ∨
    0x1000 ≤ ea ∧ ea < 0x2000 ∧ (0x800 ≤ ea % 0x1000 ∨ 0x10 ≤ ea % 0x100)

/-- A signed result that 16 bits cannot hold (R130). -/
def outOfRange (x : Int) : Bool := x < -32768 || 32767 < x

/-- The status word as a sum of weights (R31). -/
def statusValue (i : Indicators) : Word :=
  BitVec.ofNat 16 (128 * i.pp.toNat + 32 * i.ii.toNat + 16 * i.ei.toNat + 2 * i.o.toNat + i.c.toNat)

/-- A value shifted by `n` positions at once (R141, R143). -/
def shifted {w : Nat} (left circ : Bool) (n : Nat) (v : BitVec w) : BitVec w :=
  match left, circ with
  | true, true => v.rotateLeft n
  | true, false => v <<< n
  | false, true => v.rotateRight n
  | false, false => v.sshiftRight n

/-- The sign position changes at some step of an arithmetic left shift: two neighbours among the first n + 1 bits, zeros entering
at the right, differ (R141). -/
def shiftOverflow {w : Nat} (left circ : Bool) (n : Nat) (v : BitVec w) : Bool :=
  left && !circ && (List.range n).any fun i => v.getMsbD i != v.getMsbD (i + 1)

/-- The number of ones that leave the sign position in a left shift is odd (R141). -/
def shiftCarry {w : Nat} (left circ : Bool) (n : Nat) (v : BitVec w) : Bool :=
  left && ((List.range n).filter fun i => v.getMsbD (if circ then i % w else i)).length % 2 == 1

/-- What an interrupt-control function code does to a level whose accumulator bit is `bit` (R237 to R243). -/
def levelUnder (code : Nat) (bit : Bool) (v : LevelFF) : LevelFF :=
  match code, bit with
  | 1, true => { v with state := .disarmed }
  | 2, true => ⟨.armed, true⟩
  | 3, true => ⟨.armed, false⟩
  | 4, true => { v with enabled := true }
  | 5, true => { v with enabled := false }
  | 6, b => { v with enabled := b }
  | 7, true => if v.state = .armed then { v with state := .waiting } else v
  | _, _ => v

end Sys2Proof.Machine
end

