-- ==== Sys2Proof/Certificates/Slice0/Obligations.lean ====
section
/-! DEFINITION. The statements for the provers (OBLIGATIONS.json lists them). Each docstring names the rules it formalises; where a
clause rests on a decision of the spec or of the model the docstring names it. -/

open Sys2Proof Sys2Proof.Machine

/-! Encoding. -/

/-- Decoding the word of a well-formed instruction gives the instruction back, every operand at every value (R92 to R94, R104 to
R107). -/
def Obligations.EncodeThenDecode : Prop :=
  ∀ i : Instr, i.wf = true → decode (encode i) = i

/-- Every word is a defined instruction (R109): it decodes to a well-formed one, and encoding that gives the word back. -/
def Obligations.DecodeThenEncode : Prop :=
  ∀ w : Word, (decode w).wf = true ∧ encode (decode w) = w

/-- Words written out in the rules decode to the instructions the rules say they are (R113, R114, R107 and the examples of R121,
R125, R139, R141, R163, R165, R192, R193, R202, R225). -/
def Obligations.WrittenWordsDecode : Prop :=
  decode 0x8050 = .lda ⟨.nonrelative 0x50, false, false⟩ ∧
  decode 0x8E03 = .lda ⟨.selfRelative 3, true, true⟩ ∧
  decode 0xC410 = .ldx ⟨.nonrelative 0x10, true, false⟩ ∧
  decode 0x4C05 = .b ⟨.selfRelative 5, true, false⟩ ∧
  decode 0x2021 = .s ⟨.nonrelative 0x21, false, false⟩ ∧
  decode 0x63FE = .bnc (BitVec.ofInt 9 (-2)) ∧
  decode 0x67FF = .bix (BitVec.ofInt 9 (-1)) ∧
  decode 0x75A1 = .rcpyi ⟨.l, false, .p⟩ ∧
  decode 0x7D7B = .raddi ⟨.a, true, .t⟩ ∧
  decode 0x7CF3 = .copy .add false false true ⟨.a, false, .t⟩ ∧
  decode 0x0008 = .wd ⟨.nonrelative 0x08, false, false⟩ ∧
  decode 0x1041 = .sio

/-! The step. -/

/-- A step runs the decoded instruction (R345, R13). The events of the environment and interrupt recognition leave a state that runs
and does not wait, and its fetch check passes with `x`. If the two bytes at P, read without a parity event, decode to `i`, the
step is `i` executed with H at its address and P past it, and what follows an instruction. A word that the PARITY ERROR switches
let through in spite of its parity event (R372, CheckedReads) runs in the same way; one that they do not let through aborts the
fetch (R365, R350). What follows an instruction is nothing unless COMPUTE is at STEP, which then goes back to IDLE (R397), or the
watchdog has to signal (WatchdogTimer). -/
def Obligations.StepRunsDecodedInstruction : Prop :=
  ∀ (s u x : State),
    takeInputs s = .ok u → (recognition u).running = true → (recognition u).wff = false →
    (recognition u).panel.firstFromD = false → fetchCheck (startFetch (recognition u)) = .ok x →
    let r := recognition u
    let run := fun (i : Instr) => afterInstruction (exec i (x.setReg .p (nextP x)))
    (∀ i, r.existsAt r.regs.p = true → r.regs.p.toNat ∉ r.badParity →
      decodeBytes [r.mem.readByte (2 * r.regs.p.toNat), r.mem.readByte (2 * r.regs.p.toNat + 1)] = .ok (i, []) →
      step s = run i) ∧
    (∀ w, readChecked r r.regs.p = .ok w → step s = run (decode w)) ∧
    (∀ e, readChecked r r.regs.p = .error e → step s = .next (endStep (takeTrap e x))) ∧
    x.h = r.regs.p ∧ (x.panel.progAddHold = false → nextP x = x.h + 1) ∧
    (∀ t, t.watchdog.aborted = false → t.watchdog.signalDue = false → afterInstruction (.next t) = .next (endStep t)) ∧
    (∀ t, t.panel.compute ≠ .step → endStep t = t) ∧
    ∀ t, t.panel.compute = .step → applyInput .computeIdle t = .ok (endStep t)

/-- COMPUTE leaves IDLE when it is moved to RUN or STEP, or (log entry 28, DEDUCED from R402) when the key is locked, since a
locked key acts as RUN. The first instruction then is the word in D, taken without a parity check, and no interrupt is recognised
before it (R396; for STEP, of which R397 does not say it, that is the model's choice, log entry 28; that a fetch takes D at most once is log
entry 44). -/
def Obligations.FirstInstructionFromD : Prop :=
  (∀ s : State, s.panel.key = .unlocked → s.panel.compute = .idle →
    applyInput .computeRun s = .ok { s with panel.compute := .run, panel.firstFromD := true } ∧
    applyInput .computeStep s = .ok { s with panel.compute := .step, panel.firstFromD := true } ∧
    ∀ k, k ≠ .unlocked → applyInput (.setKey k) s = .ok { s with panel.key := k, panel.firstFromD := true }) ∧
  ∀ s x : State,
    s.panel.firstFromD = true → s.running = true → s.wff = false →
    fetchCheck (startFetch s) = .ok x →
    recognition s = s ∧ fetch s = .run s.panel.dReg (x.setReg .p (nextP x)) ∧
    x.h = s.regs.p ∧ x.panel.firstFromD = false

/-- Rule 2 and the PP indicator (R362), before a fetch at P. That every fetch sets PP is decision D1 (log entry 8); that the abort
resets the exit condition is D8 (log entry 14); that rule 2 is tested before the parity of the word fetched is D26 (log entry
21). -/
def Obligations.FetchCheckRuleTwo : Prop :=
  ∀ s : State, s.running = true → s.wff = false →
    (s.operative = true → s.protBit s.regs.p = true → s.ind.pp = false → s.powerLevelBusy = false →
      ∃ t, fetch s = .rest t ∧ AbortedTo .protection (startFetch s) t s.wff ∧ t.regs.p = s.regs.p) ∧
    (s.operative = false ∨ s.protBit s.regs.p = false ∨ s.ind.pp = true ∨ s.powerLevelBusy = true →
      fetchCheck (startFetch s) =
        .ok { startFetch s with ind.pp := if s.cfg.protect then s.protBit s.regs.p else s.ind.pp })

/-- While the processor waits or COMPUTE is in IDLE no instruction is executed, and with nothing arriving from outside nothing at
all happens (R39, R387, R395); moving COMPUTE to IDLE ends the wait and shows the next instruction (R395, R39). COMPUTE is as
the processor sees it, at RUN with the key locked (R402, log entry 28). That in IDLE no level is recognised and no counter
serviced is log entry 29 (DEDUCED). -/
def Obligations.WaitingAndIdle : Prop :=
  (∀ s : State, s.env.inputs = [] → (∀ d ∈ s.devices, d.pending = false) →
    (s.computeMode = .idle → step s = .next s) ∧
    (s.panel.compute ≠ .step → s.wff = true → select s = none → step s = .next s)) ∧
  ∀ s : State, s.panel.key = .unlocked → s.panel.compute ≠ .idle →
    applyInput .computeIdle s = .ok
      { s with
        wff := false, h := s.regs.p, panel.compute := .idle, panel.firstFromD := false, panel.sReg := s.regs.p
        panel.dReg := if s.regs.p.toNat < s.cfg.memWords then s.mem.readWord s.regs.p.toNat else 0 }

/-! Addresses, memory, exceptions. -/

/-- The effective address in its three steps, all sums modulo 2^16 (R100). -/
def Obligations.EffectiveAddressFormation : Prop :=
  ∀ s : State,
    (∀ d, (referenceAddr (.nonrelative d) s).toNat = d.toNat) ∧
    (∀ d, (referenceAddr (.baseRelative d) s).toNat = (d.toNat + s.regs.x2.toNat) % 65536) ∧
    (∀ k, referenceAddr (.selfRelative k) s = BitVec.ofInt 16 (s.h.toNat + k.toInt)) ∧
    ∀ f,
      effAddr ⟨f, false, false⟩ s = .ok (referenceAddr f s) ∧
      effAddr ⟨f, false, true⟩ s = .ok (BitVec.ofNat 16 ((referenceAddr f s).toNat + s.regs.x1.toNat)) ∧
      (∀ v, readChecked s (referenceAddr f s) = .ok v →
        effAddr ⟨f, true, false⟩ s = .ok v ∧
        effAddr ⟨f, true, true⟩ s = .ok (BitVec.ofNat 16 (v.toNat + s.regs.x1.toNat))) ∧
      ∀ t x, readChecked s (referenceAddr f s) = .error t → effAddr ⟨f, true, x⟩ s = .error t

/-- What a read of an instruction, an address or an operand gives, by the PARITY ERROR switches (R64, R372, R402); a location that
does not exist reads as zero with a parity event, and a store into it does nothing (R63, R65). -/
def Obligations.CheckedReads : Prop :=
  ∀ (s : State) (a : Word),
    (s.existsAt a = true → a.toNat ∉ s.badParity → readChecked s a = .ok (s.mem.readWord a.toNat)) ∧
    (s.existsAt a = false ∨ a.toNat ∈ s.badParity →
      (s.panel.key = .unlocked → s.panel.parity = .ignore → readChecked s a = .ok (s.wordAt a)) ∧
      (s.panel.key = .unlocked → s.panel.parity = .halt → readChecked s a = .error .parityHalt) ∧
      (s.panel.key ≠ .unlocked ∨ s.panel.parity = .interrupt →
        readChecked s a =
          if s.cfg.parityInt = true ∧ (s.level .memoryParity).state = .active then .ok (s.wordAt a)
          else .error .parityInterrupt)) ∧
    (s.cfg.memWords ≤ a.toNat →
      s.wordAt a = 0 ∧ s.parityEvent a = true ∧ (∀ v, s.storeWord a v = s) ∧
      (s.parityMode = .ignore → readChecked s a = .ok 0))

/-- Taking an exception (R350, R372; that every abort resets the exit condition is decision D8): P is set back to the instruction,
the level of the exception is signalled, and nothing else changes; a parity error also waits, or halts. -/
def Obligations.ExceptionEffects : Prop :=
  ∀ s : State,
    AbortedTo .protection s (takeTrap .protection s) s.wff ∧
    AbortedTo .multiply s (takeTrap .multiply s) s.wff ∧
    AbortedTo .divide s (takeTrap .divide s) s.wff ∧
    AbortedTo .memoryParity s (takeTrap .parityInterrupt s) true ∧
    takeTrap .parityHalt s =
      { s with regs.p := s.h, exitCond := false, panel.parityHalt := true, panel.parityLamp := true }

/-! Memory-reference instructions. -/

/-- LDA, AND, and LDX with the exit condition clear: the result, the frame, and the aborts (R121, R135, R123). -/
def Obligations.LoadsAndLogicalAnd : Prop :=
  ∀ (m : MemRef) (s : State),
    (∀ ea v, Reads m s ea v →
      exec (.lda m) s = .next { s with regs.a := v } ∧
      exec (.and m) s = .next { s with regs.a := s.regs.a &&& v } ∧
      exec (.ldx m) s = .next { s with regs.x1 := v }) ∧
    (s.exitCond = false → AbortsOnRead (.lda m) m s ∧ AbortsOnRead (.and m) m s ∧ AbortsOnRead (.ldx m) m s)

/-- STA (R122, R70): the word of A at the effective address and nothing else, or the protection violation, or the abort of the
indirect read. -/
def Obligations.StoreAccumulator : Prop :=
  ∀ (m : MemRef) (s : State), s.mem.wf → s.exitCond = false →
    (∀ ea, effAddr m s = .ok ea →
      (s.MayStore ea →
        ∃ t, exec (.sta m) s = .next t ∧ t = { s with mem := t.mem, badParity := t.badParity } ∧
          WordStored s t ea s.regs.a) ∧
      (¬ s.MayStore ea → ∃ t, exec (.sta m) s = .next t ∧ AbortedTo .protection s t s.wff)) ∧
    ∀ t, effAddr m s = .error t → exec (.sta m) s = .next (takeTrap t s)

/-- IM (R137, R70): the effective word plus 1 stored, O and C from the result; the violation and the aborts as the rules order
them. -/
def Obligations.IncrementMemory : Prop :=
  ∀ (m : MemRef) (s : State), s.mem.wf → s.exitCond = false →
    (∀ ea, effAddr m s = .ok ea →
      (∀ v, s.MayStore ea → readChecked s ea = .ok v →
        ∃ t, exec (.im m) s = .next t ∧ WordStored s t ea (v + 1) ∧
          t = { s with mem := t.mem, badParity := t.badParity, ind.o := v == 0x7FFF, ind.c := v == 0xFFFF }) ∧
      (∀ x, s.MayStore ea → readChecked s ea = .error x → exec (.im m) s = .next (takeTrap x s)) ∧
      (¬ s.MayStore ea → ∃ t, exec (.im m) s = .next t ∧ AbortedTo .protection s t s.wff)) ∧
    ∀ t, effAddr m s = .error t → exec (.im m) s = .next (takeTrap t s)

/-- ADD (R127, R130): the sum modulo 2^16, O the signed overflow, C the unsigned carry. -/
def Obligations.AddResult : Prop :=
  ∀ (m : MemRef) (s : State),
    (∀ ea v, Reads m s ea v →
      exec (.add m) s = .next
        { s with
          regs.a := s.regs.a + v
          ind.o := outOfRange (s.regs.a.toInt + v.toInt)
          ind.c := decide (65536 ≤ s.regs.a.toNat + v.toNat) }) ∧
    (s.exitCond = false → AbortsOnRead (.add m) m s)

/-- SUB (R129, R130): the difference modulo 2^16, O the signed overflow, C = 1 exactly when the effective word is not greater than A
as an unsigned number. -/
def Obligations.SubtractResult : Prop :=
  ∀ (m : MemRef) (s : State),
    (∀ ea v, Reads m s ea v →
      exec (.sub m) s = .next
        { s with
          regs.a := s.regs.a - v
          ind.o := outOfRange (s.regs.a.toInt - v.toInt)
          ind.c := decide (v.toNat ≤ s.regs.a.toNat) }) ∧
    (s.exitCond = false → AbortsOnRead (.sub m) m s)

/-- MUL (R131, R370): with the option, the exact product in E and A and its sign in C, O unchanged; without it, the multiply
exception before the operand is read; with or without it, the abort of the indirect read first (R352, R365). -/
def Obligations.MultiplyResult : Prop :=
  ∀ (m : MemRef) (s : State),
    (∀ ea v, s.cfg.mulDiv = true → Reads m s ea v →
      ∃ t, exec (.mul m) s = .next t ∧
        t = { s with regs.e := t.regs.e, regs.a := t.regs.a, ind.c := t.ind.c } ∧
        (t.regs.e ++ t.regs.a).toInt = s.regs.a.toInt * v.toInt ∧
        t.ind.c = decide (s.regs.a.toInt * v.toInt < 0)) ∧
    (∀ ea, s.cfg.mulDiv = false → Addresses m s ea →
      ∃ t, exec (.mul m) s = .next t ∧ AbortedTo .multiply s t s.wff) ∧
    (∀ t, s.exitCond = false → effAddr m s = .error t → exec (.mul m) s = .next (takeTrap t s)) ∧
    (s.cfg.mulDiv = true → s.exitCond = false → AbortsOnRead (.mul m) m s)

/-- DIV (R133, R370): quotient and remainder, or the overflow exit; without the option, the divide exception; with or without it,
the abort of the indirect read first (R352, R365). That a divisor of zero takes the overflow exit is decision D3, that C is the
sign of the remainder as loaded is D4. -/
def Obligations.DivideResult : Prop :=
  ∀ (m : MemRef) (s : State),
    (∀ ea v, s.cfg.mulDiv = true → Reads m s ea v →
      let n := (s.regs.e ++ s.regs.a).toInt
      (v = 0 ∨ 32768 ≤ (n.tdiv v.toInt).natAbs →
        exec (.div m) s = .next { s with ind.o := true, ind.c := decide (n < 0) }) ∧
      (v ≠ 0 → (n.tdiv v.toInt).natAbs < 32768 →
        ∃ t, exec (.div m) s = .next t ∧
          t = { s with regs.e := t.regs.e, regs.a := t.regs.a, ind.o := false, ind.c := t.ind.c } ∧
          n = t.regs.a.toInt * v.toInt + t.regs.e.toInt ∧
          t.regs.e.toInt.natAbs < v.toInt.natAbs ∧
          (t.regs.e = 0 ∨ (t.regs.e.toInt < 0 ↔ n < 0)) ∧
          t.ind.c = decide (t.regs.e.toInt < 0))) ∧
    (∀ ea, s.cfg.mulDiv = false → Addresses m s ea →
      ∃ t, exec (.div m) s = .next t ∧ AbortedTo .divide s t s.wff) ∧
    (∀ t, s.exitCond = false → effAddr m s = .error t → exec (.div m) s = .next (takeTrap t s)) ∧
    (s.cfg.mulDiv = true → s.exitCond = false → AbortsOnRead (.div m) m s)

/-- CP (R145): O and C record the signed comparison and nothing else changes. The code of equality, (1, 1), is decision D6. -/
def Obligations.CompareResult : Prop :=
  ∀ (m : MemRef) (s : State),
    (∀ ea v, Reads m s ea v →
      (s.regs.a.toInt < v.toInt → exec (.cp m) s = .next { s with ind.o := false, ind.c := false }) ∧
      (v.toInt < s.regs.a.toInt → exec (.cp m) s = .next { s with ind.o := false, ind.c := true }) ∧
      (s.regs.a = v → exec (.cp m) s = .next { s with ind.o := true, ind.c := true })) ∧
    (s.exitCond = false → AbortsOnRead (.cp m) m s)

/-- S (R141): bits 8 to 15 of the effective address, here counted from the least significant, say which shift and by how much; the
positions move at once as a rotation, a left shift or a signed right shift. -/
def Obligations.ShiftResult : Prop :=
  ∀ (m : MemRef) (s : State), s.exitCond = false →
    (∀ ea, effAddr m s = .ok ea →
      let circ := ea.getLsbD 6
      let left := ea.getLsbD 5
      let n := ea.toNat % 32
      (ea.getLsbD 7 = false →
        exec (.s m) s = .next
          { s with
            regs.a := shifted left circ n s.regs.a
            ind.o := shiftOverflow left circ n s.regs.a
            ind.c := shiftCarry left circ n s.regs.a }) ∧
      (ea.getLsbD 7 = true →
        ∃ t, exec (.s m) s = .next t ∧
          t = { s with
            regs.e := t.regs.e, regs.a := t.regs.a
            ind.o := shiftOverflow left circ n (s.regs.e ++ s.regs.a)
            ind.c := shiftCarry left circ n (s.regs.e ++ s.regs.a) } ∧
          t.regs.e ++ t.regs.a = shifted left circ n (s.regs.e ++ s.regs.a))) ∧
    ∀ t, effAddr m s = .error t → exec (.s m) s = .next (takeTrap t s)

/-- B (R139). -/
def Obligations.BranchResult : Prop :=
  ∀ (m : MemRef) (s : State),
    (∀ ea, Addresses m s ea → exec (.b m) s = .next { s with regs.p := ea }) ∧
    ∀ t, s.exitCond = false → effAddr m s = .error t → exec (.b m) s = .next (takeTrap t s)

/-- LDX with the exit condition set (R125): the indicators and P from the effective doubleword, the highest active level armed,
which is the first active one of the priority chain (R331), the exit condition reset, X1 and everything else unchanged; and the
abort of each of its reads. -/
def Obligations.ExitFromInterruptRoutine : Prop :=
  ∀ (m : MemRef) (s : State), s.exitCond = true →
    (∀ ea, effAddr m s = .ok ea →
      (∀ w p, readChecked s ea = .ok w → readChecked s (ea + 1) = .ok p →
        ∃ t, exec (.ldx m) s = .next t ∧
          t = { s with
            regs.p := p
            ind :=
              { pp := s.cfg.protect && w.getLsbD 7, ii := w.getLsbD 5, ei := w.getLsbD 4, o := w.getLsbD 1, c := w.getLsbD 0 }
            exitCond := false
            levels := t.levels } ∧
          (∀ above l below, priorityChain s.cfg = above ++ l :: below → (s.level l).state = .active →
            (∀ x ∈ above, (s.level x).state ≠ .active) →
            ∀ k, t.level k = if k = l then { s.level l with state := .armed } else s.level k) ∧
          ((∀ l ∈ priorityChain s.cfg, (s.level l).state ≠ .active) → ∀ k, t.level k = s.level k)) ∧
      (∀ x, readChecked s ea = .error x → exec (.ldx m) s = .next (takeTrap x s)) ∧
      ∀ w x, readChecked s ea = .ok w → readChecked s (ea + 1) = .error x → exec (.ldx m) s = .next (takeTrap x s)) ∧
    ∀ x, effAddr m s = .error x → exec (.ldx m) s = .next (takeTrap x s)

/-- With the exit condition set every instruction but LDX is refused (R126 (b), decision D8). -/
def Obligations.ExitWithoutLdxRefused : Prop :=
  ∀ (i : Instr) (s : State), s.exitCond = true → (∀ m, i ≠ .ldx m) → exec i s = .refused .exitWithoutLdx

/-! Conditional branches. -/

/-- The eight conditional branches. BNO, BNC, BAZ, BEN, BAN (R162, R163, R164, R168, R169): P becomes the branch's own address
plus the signed offset, or nothing changes. BIX, BXNO, BXNC (R165, R166, R167): X1 counts up and the branch is taken unless it
reaches zero; with the indicator set BXNO and BXNC do nothing. -/
def Obligations.ConditionalBranches : Prop :=
  ∀ (k : BitVec 9) (s : State), s.exitCond = false →
    let taken : State := { s with regs.p := BitVec.ofInt 16 (s.h.toNat + k.toInt) }
    let counted : State :=
      if s.regs.x1 = 0xFFFF then { s with regs.x1 := 0 }
      else { s with regs.x1 := s.regs.x1 + 1, regs.p := BitVec.ofInt 16 (s.h.toNat + k.toInt) }
    exec (.bno k) s = .next (if s.ind.o then s else taken) ∧
    exec (.bnc k) s = .next (if s.ind.c then s else taken) ∧
    exec (.baz k) s = .next (if s.regs.a = 0 then taken else s) ∧
    exec (.ben k) s = .next (if s.regs.e.toInt < 0 then taken else s) ∧
    exec (.ban k) s = .next (if s.regs.a.toInt < 0 then taken else s) ∧
    exec (.bix k) s = .next counted ∧
    exec (.bxno k) s = .next (if s.ind.o then s else counted) ∧
    exec (.bxnc k) s = .next (if s.ind.c then s else counted)

/-! The copy instruction. -/

/-- The twelve logical copies (R187, R189 to R192, R194 to R197, R199 to R201): the destination and nothing else, O and C not
affected. -/
def Obligations.LogicalCopies : Prop :=
  ∀ (c : CopyArgs) (s : State), s.exitCond = false →
    let src := if c.invert then s.getReg c.src ^^^ 0xFFFF else s.getReg c.src
    let dst := s.getReg c.dst
    let carry : Word := if s.ind.c then 1 else 0
    WritesOnly (exec (.rcpy c) s) s c.dst src ∧
    WritesOnly (exec (.ror c) s) s c.dst (dst ||| src) ∧
    WritesOnly (exec (.reor c) s) s c.dst (dst ^^^ src) ∧
    WritesOnly (exec (.rand c) s) s c.dst (dst &&& src) ∧
    WritesOnly (exec (.rcpyi c) s) s c.dst (src + 1) ∧
    WritesOnly (exec (.rori c) s) s c.dst ((dst ||| src) + 1) ∧
    WritesOnly (exec (.reori c) s) s c.dst ((dst ^^^ src) + 1) ∧
    WritesOnly (exec (.randi c) s) s c.dst ((dst &&& src) + 1) ∧
    WritesOnly (exec (.rcpyc c) s) s c.dst (src + carry) ∧
    WritesOnly (exec (.rorc c) s) s c.dst ((dst ||| src) + carry) ∧
    WritesOnly (exec (.reorc c) s) s c.dst ((dst ^^^ src) + carry) ∧
    WritesOnly (exec (.randc c) s) s c.dst ((dst &&& src) + carry)

/-- The three adding copies (R188, R193, R198) with O and C as R186 says, also when the result is disregarded. -/
def Obligations.AddingCopies : Prop :=
  ∀ (c : CopyArgs) (s : State), s.exitCond = false →
    let src := if c.invert then s.getReg c.src ^^^ 0xFFFF else s.getReg c.src
    let dst := s.getReg c.dst
    let sums := fun (r : Result) (n : Nat) =>
      WritesWithFlags r s c.dst (BitVec.ofNat 16 (dst.toNat + src.toNat + n))
        (outOfRange (dst.toInt + src.toInt + n)) (decide (65536 ≤ dst.toNat + src.toNat + n))
    sums (exec (.radd c) s) 0 ∧ sums (exec (.raddi c) s) 1 ∧ sums (exec (.raddc c) s) s.ind.c.toNat

/-- The copy instruction by its fields (R182), with or without a mnemonic. -/
def Obligations.GeneralCopy : Prop :=
  ∀ (op : CopyOp) (ac ai cd : Bool) (c : CopyArgs) (s : State), s.exitCond = false →
    let src := if c.invert then s.getReg c.src ^^^ 0xFFFF else s.getReg c.src
    let dst := if cd then 0 else s.getReg c.dst
    let inc := if ai then 1 else if ac && s.ind.c then 1 else 0
    match op with
    | .and => WritesOnly (exec (.copy op ac ai cd c) s) s c.dst ((dst &&& src) + BitVec.ofNat 16 inc)
    | .or => WritesOnly (exec (.copy op ac ai cd c) s) s c.dst ((dst ||| src) + BitVec.ofNat 16 inc)
    | .xor => WritesOnly (exec (.copy op ac ai cd c) s) s c.dst ((dst ^^^ src) + BitVec.ofNat 16 inc)
    | .add =>
      WritesWithFlags (exec (.copy op ac ai cd c) s) s c.dst (BitVec.ofNat 16 (dst.toNat + src.toNat + inc))
        (outOfRange (dst.toInt + src.toInt + inc)) (decide (65536 ≤ dst.toNat + src.toNat + inc))

/-- The six examples of the source (R204), each word decoded and executed. -/
def Obligations.CopyWorkedExamples : Prop :=
  ∀ s : State, s.exitCond = false →
    exec (decode 0x74F0) s = .next { s with regs.a := 0 } ∧
    exec (decode 0x74FF) s = .next { s with regs.a := ~~~ s.regs.a } ∧
    exec (decode 0x7DFF) s = .next
      { s with regs.a := - s.regs.a, ind.o := s.regs.a == 0x8000, ind.c := s.regs.a == 0 } ∧
    exec (decode 0x7C78) s = .next
      { s with regs.a := s.regs.a - 1, ind.o := s.regs.a == 0x8000, ind.c := s.regs.a != 0 } ∧
    exec (decode 0x7D7B) s = .next
      { s with
        regs.a := s.regs.a - s.regs.t
        ind.o := outOfRange (s.regs.a.toInt - s.regs.t.toInt)
        ind.c := decide (s.regs.t.toNat ≤ s.regs.a.toNat) } ∧
    (s.regs.p = s.h + 1 → exec (decode 0x75A1) s = .next { s with regs.l := s.h + 2 })

/-! READ DIRECT and WRITE DIRECT. -/

/-- A privileged instruction in unprotected memory is not executed; the protection violation level is signalled instead (R361,
R212). The abort of the indirect read of RD and WD is reported in preference to it (R212). -/
def Obligations.PrivilegeViolation : Prop :=
  ∀ (m : MemRef) (s : State),
    (∀ ea, Addresses m s ea → ¬ s.MayControl →
      ∀ i ∈ [Instr.rd m, .wd m, .sio, .tio, .tdv, .hio, .aio],
        ∃ t, exec i s = .next t ∧ AbortedTo .protection s t s.wff) ∧
    ∀ x, s.exitCond = false → effAddr m s = .error x →
      exec (.rd m) s = .next (takeTrap x s) ∧ exec (.wd m) s = .next (takeTrap x s)

/-- RD of a register of the register block (R215; O and C unchanged by decision D15, Z reads zero by D5; the refusal of a number
without a register is D7). -/
def Obligations.ReadRegisterBlock : Prop :=
  ∀ (m : MemRef) (s : State) (ea : Word), Addresses m s ea → s.MayControl → s.cfg.channels ≤ 20 →
    (∀ r : Reg, ea = (encodeReg r).setWidth 16 → exec (.rd m) s = .next { s with regs.a := s.getReg r }) ∧
    (∀ k : Fin 40, ea.toNat = 8 + k.val → k.val < 2 * s.cfg.channels →
      exec (.rd m) s = .next { s with regs.a := s.chan.get k }) ∧
    (8 + 2 * s.cfg.channels ≤ ea.toNat → ea.toNat < 64 → exec (.rd m) s = .refused .noSuchRegister)

/-- RD of the status word, with or without a change of the inhibits, and of the DATA switches (R218, R219, R220). -/
def Obligations.ReadStatusAndSwitches : Prop :=
  ∀ (m : MemRef) (s : State) (ea : Word), Addresses m s ea → s.MayControl →
    (ea = 0x0080 → exec (.rd m) s = .next { s with regs.a := s.panel.data }) ∧
    (ea = 0x00C0 → exec (.rd m) s = .next { s with regs.a := statusValue s.ind }) ∧
    ∀ i e : Bool,
      (ea.toNat = 0xE0 + 8 * i.toNat + 4 * e.toNat →
        exec (.rd m) s = .next
          { s with regs.a := statusValue s.ind, ind.ii := s.ind.ii && !i, ind.ei := s.ind.ei && !e }) ∧
      (ea.toNat = 0xF0 + 8 * i.toNat + 4 * e.toNat →
        exec (.rd m) s = .next
          { s with regs.a := statusValue s.ind, ind.ii := s.ind.ii || i, ind.ei := s.ind.ei || e })

/-- WD of the register block. WD 00nnnnnn writes a register (R225, R226); of a channel that has a busy device it is refused, since
"the source gives no meaning" to it (R414, U26). WD 01nnnnnn puts bit 0 of the register into O and resets that bit (R227), also of
a busy channel (log entry 24, DESIGN CHOICE). O and C unchanged by the write is decision D15 (log entry 18), a write to Z lost D5
(log entry 11), the refusal of a number without a register D7 (log entry 13). -/
def Obligations.WriteRegisterBlock : Prop :=
  ∀ (m : MemRef) (s : State) (ea : Word), Addresses m s ea → s.MayControl → s.cfg.channels ≤ 20 →
    (∀ r : Reg, ea = (encodeReg r).setWidth 16 → WritesOnly (exec (.wd m) s) s r s.regs.a) ∧
    (∀ k : Fin 40, ea.toNat = 8 + k.val → k.val < 2 * s.cfg.channels →
      (∀ d ∈ s.devices, d.condition = .busy → channelOf s.cfg d.number ≠ some (k.val / 2)) →
      exec (.wd m) s = .next { s with chan := s.chan.set k.val s.regs.a k.isLt }) ∧
    (∀ k : Fin 40, ea.toNat = 8 + k.val → ∀ d ∈ s.devices, d.condition = .busy → channelOf s.cfg d.number = some (k.val / 2) →
      exec (.wd m) s = .refused .channelRegisterBusy) ∧
    (8 + 2 * s.cfg.channels ≤ ea.toNat → ea.toNat < 64 → exec (.wd m) s = .refused .noSuchRegister) ∧
    (∀ r : Reg, ea = 0x40 + (encodeReg r).setWidth 16 →
      WritesWithFlags (exec (.wd m) s) s r (s.getReg r &&& 0x7FFF) (s.getReg r).msb s.ind.c) ∧
    (∀ k : Fin 40, ea.toNat = 0x48 + k.val → k.val < 2 * s.cfg.channels →
      exec (.wd m) s = .next
        { s with chan := s.chan.set k.val (s.chan.get k &&& 0x7FFF) k.isLt, ind.o := (s.chan.get k).msb }) ∧
    (0x48 + 2 * s.cfg.channels ≤ ea.toNat → ea.toNat < 0x80 → exec (.wd m) s = .refused .noSuchRegister)

/-- WD 1000xxxx (R228): A into a protection register, which then holds the protection bits of sixteen pages (R37); without the
option nothing happens (decision D7). -/
def Obligations.LoadProtectionRegister : Prop :=
  ∀ (m : MemRef) (s : State) (ea : Word) (r : Fin 16), Addresses m s ea → s.MayControl → ea.toNat = 0x80 + r.val →
    (s.cfg.protect = true →
      exec (.wd m) s = .next { s with prot := s.prot.set r.val s.regs.a r.isLt } ∧
      ∀ a : Word, State.protBit { s with prot := s.prot.set r.val s.regs.a r.isLt } a =
        if a.toNat / 4096 = r.val then s.regs.a.getMsbD (a.toNat / 256 % 16) else s.protBit a) ∧
    (s.cfg.protect = false → exec (.wd m) s = .next s)

/-- WD X'C0', X'Ex' and X'Fx' (R229, R232, R233). -/
def Obligations.LoadStatusAndInhibits : Prop :=
  ∀ (m : MemRef) (s : State) (ea : Word), Addresses m s ea → s.MayControl →
    (ea = 0x00C0 →
      exec (.wd m) s = .next
        { s with
          ind :=
            { pp := s.cfg.protect && s.regs.a.getMsbD 8, ii := s.regs.a.getMsbD 10, ei := s.regs.a.getMsbD 11
              o := s.regs.a.getMsbD 14, c := s.regs.a.getMsbD 15 } }) ∧
    ∀ i e : Bool,
      (ea.toNat = 0xE0 + 8 * i.toNat + 4 * e.toNat →
        exec (.wd m) s = .next { s with ind.ii := s.ind.ii && !i, ind.ei := s.ind.ei && !e }) ∧
      (ea.toNat = 0xF0 + 8 * i.toNat + 4 * e.toNat →
        exec (.wd m) s = .next { s with ind.ii := s.ind.ii || i, ind.ei := s.ind.ei || e })

/-- WD X'D0' sets the wait flip-flop and WD X'D8' the exit condition, and while it is set no level is activated (R230, R231,
R345). -/
def Obligations.WaitAndExitCondition : Prop :=
  (∀ (m : MemRef) (s : State) (ea : Word), Addresses m s ea → s.MayControl →
    (ea = 0x00D0 → exec (.wd m) s = .next { s with wff := true }) ∧
    (ea = 0x00D8 → exec (.wd m) s = .next { s with exitCond := true })) ∧
  ∀ s : State, s.exitCond = true → recognition s = s

/-- Which level an accumulator bit of an interrupt-control WD selects, by its dedicated location (R236, R312). -/
def Obligations.LevelOfAccumulatorBit : Prop :=
  ∀ (c : Config) (g : Nat) (i : Fin 16) (l : Level),
    selectedLevel c g i = some l ↔
      installed c l = true ∧ isOverride l = false ∧
      (g = 0 ∧ levelLocation l = (if i.val < 4 then 0xFC + i.val else 0x100 + i.val) ∨
        5 ≤ g ∧ g ≤ 12 ∧ levelLocation l = 0x110 + 16 * (g - 5) + i.val)

/-- WD in the interrupt control mode (R235 to R243; decision D9 for levels that are waiting or active): every level an accumulator
bit selects changes as the function code says, and nothing else changes. -/
def Obligations.InterruptControl : Prop :=
  ∀ (m : MemRef) (s : State) (ea : Word) (code g : Nat), Addresses m s ea → s.MayControl →
    1 ≤ code → code ≤ 7 → g < 16 → ea.toNat = 0x1000 + 0x100 * code + g →
    ∃ t, exec (.wd m) s = .next t ∧ t = { s with levels := t.levels } ∧
      (∀ i l, selectedLevel s.cfg g i = some l → t.level l = levelUnder code (s.regs.a.getMsbD i.val) (s.level l)) ∧
      ∀ l, (∀ i, selectedLevel s.cfg g i ≠ some l) → t.level l = s.level l

/-- RD and WD in an external mode (R246; which status bit is which is decision D24, log entry 22): the device's answer, a free
answer where none is listed (log entry 16), and a device that never acknowledges, without a Watchdog Timer (U13, log entry 33) and
with one (decision D25), which acknowledges whether enabled or not (log entry 32, DEDUCED). -/
def Obligations.ExternalMode : Prop :=
  ∀ (m : MemRef) (s : State) (ea : Word), Addresses m s ea → s.MayControl → s.cfg.directIo = true → 0x2000 ≤ ea.toNat →
    (∀ d o c rest, s.env.answers = .acknowledge d o c :: rest →
      exec (.rd m) s = .next
        { s with
          regs.a := d, ind.o := o, ind.c := c, env.answers := rest, env.sent := .directRead ea :: s.env.sent } ∧
      (watchdogOp s.cfg ea = none →
        exec (.wd m) s = .next
          { s with
            ind.o := o, ind.c := c, env.answers := rest, env.sent := .directWrite ea s.regs.a :: s.env.sent })) ∧
    (s.env.answers = [] →
      (∃ d o c, exec (.rd m) s = .next
        { s with
          regs.a := d, ind.o := o, ind.c := c, env.sent := .directRead ea :: s.env.sent
          env.freeCount := s.env.freeCount + 2 }) ∧
      (watchdogOp s.cfg ea = none →
        ∃ o c, exec (.wd m) s = .next
          { s with
            ind.o := o, ind.c := c, env.sent := .directWrite ea s.regs.a :: s.env.sent
            env.freeCount := s.env.freeCount + 2 })) ∧
    (∀ rest, s.env.answers = .silent :: rest →
      (s.cfg.watchdog = none →
        exec (.rd m) s = .fault .directIoNeverAcknowledged ∧ exec (.wd m) s = .fault .directIoNeverAcknowledged) ∧
      (s.cfg.watchdog ≠ none →
        ∃ d o c, exec (.rd m) s = .next
          { s with
            regs.a := d, ind.o := o, ind.c := c, watchdog.aborted := true, env.answers := rest
            env.sent := .directRead ea :: s.env.sent, env.freeCount := s.env.freeCount + 2 }) ∧
      (s.cfg.watchdog ≠ none → watchdogOp s.cfg ea = none →
        ∃ d o c, exec (.wd m) s = .next
          { s with
            regs.a := d, ind.o := o, ind.c := c, watchdog.aborted := true, env.answers := rest
            env.sent := .directWrite ea s.regs.a :: s.env.sent, env.freeCount := s.env.freeCount + 2 }))

/-- The Watchdog Timer. Its three WRITE DIRECT instructions (R248): Enable and Disable set and reset the enabled flag, Reset Timer
restarts the interval, which is not modelled. In an external mode O and C are status bits of the timer and free (R35; log entry
32, DEDUCED); at an address that nothing assigns (R221) they are unchanged (R35, D15). When the interval of an enabled timer runs
out it closes its relay and signals its level (R248, R380). The signal of an aborted direct I/O instruction comes when the
instruction after it is completed (R380; that an instruction which takes an exception counts is log entry 32). -/
def Obligations.WatchdogTimer : Prop :=
  (∀ (m : MemRef) (s : State) (ea : Word) (w : WatchdogConfig), Addresses m s ea → s.MayControl → s.cfg.directIo = true →
    s.cfg.watchdog = some w →
    ∀ en : Bool,
      (ea = w.enableEa ∧ en = true ∨ ea ≠ w.enableEa ∧ ea = w.disableEa ∧ en = false ∨
          ea ≠ w.enableEa ∧ ea ≠ w.disableEa ∧ ea = w.resetEa ∧ en = s.watchdog.enabled) →
      (0x2000 ≤ ea.toNat →
        ∃ o c, exec (.wd m) s = .next
          { s with
            ind.o := o, ind.c := c, watchdog.enabled := en, env.sent := .directWrite ea s.regs.a :: s.env.sent
            env.freeCount := s.env.freeCount + 2 }) ∧
      (WriteUnassigned ea.toNat →
        exec (.wd m) s = .next
          { s with watchdog.enabled := en, env.sent := .directWrite ea s.regs.a :: s.env.sent })) ∧
  ∀ (s : State) (w : WatchdogConfig), s.cfg.watchdog = some w →
    (∃ t, applyInput .watchdogExpires s = .ok t ∧
      (s.watchdog.enabled = true →
        t = { s with levels := t.levels, env.sent := .hangUp :: s.env.sent } ∧
        (∀ l, w.level = some l → LevelSignalled l s t) ∧ (w.level = none → t.levels = s.levels)) ∧
      (s.watchdog.enabled = false → t = s)) ∧
    (s.panel.compute ≠ .step →
      ∃ t, afterInstruction (.next s) = .next t ∧
        t = { s with levels := t.levels, watchdog.aborted := false, watchdog.signalDue := s.watchdog.aborted } ∧
        (∀ l, w.level = some l → s.watchdog.signalDue = true → LevelSignalled l s t) ∧
        (w.level = none ∨ s.watchdog.signalDue = false → t.levels = s.levels))

/-- The effective addresses that select nothing are refused by name (decision D7 at R213, R221, R222, R234, R244, R245, R247; log
entry 13), those of WD where no Watchdog Timer responds to them (R221, R248). -/
def Obligations.UndefinedDirectFunctions : Prop :=
  ∀ (m : MemRef) (s : State) (ea : Word), Addresses m s ea → s.MayControl →
    (0x0100 ≤ ea.toNat → ea.toNat < 0x1000 → exec (.rd m) s = .refused .internalBitsNotZero) ∧
    (0x1000 ≤ ea.toNat → ea.toNat < 0x2000 → exec (.rd m) s = .refused .readInterruptControl) ∧
    (ea.toNat = 0x40 ∨ ea.toNat = 0x43 ∨ 0x45 ≤ ea.toNat ∧ ea.toNat ≤ 0x47 ∨ 0x49 ≤ ea.toNat ∧ ea.toNat ≤ 0x4F ∨
        0x51 ≤ ea.toNat ∧ ea.toNat ≤ 0x7F ∨ 0x81 ≤ ea.toNat ∧ ea.toNat ≤ 0xBF ∨ 0xC1 ≤ ea.toNat ∧ ea.toNat ≤ 0xDF ∨
        0xE0 ≤ ea.toNat ∧ ea.toNat ≤ 0xFF ∧ ea.toNat % 4 ≠ 0 →
      exec (.rd m) s = .refused .readFunctionUnassigned) ∧
    (watchdogOp s.cfg ea = none →
      (0x0100 ≤ ea.toNat → ea.toNat < 0x1000 → exec (.wd m) s = .refused .internalBitsNotZero) ∧
      (0x90 ≤ ea.toNat ∧ ea.toNat ≤ 0xBF ∨ 0xC1 ≤ ea.toNat ∧ ea.toNat ≤ 0xCF ∨ 0xD1 ≤ ea.toNat ∧ ea.toNat ≤ 0xD7 ∨
          0xD9 ≤ ea.toNat ∧ ea.toNat ≤ 0xDF ∨ 0xE0 ≤ ea.toNat ∧ ea.toNat ≤ 0xFF ∧ ea.toNat % 4 ≠ 0 →
        exec (.wd m) s = .refused .writeFunctionUnassigned) ∧
      (0x1000 ≤ ea.toNat → ea.toNat < 0x1010 → exec (.wd m) s = .refused .controlCodeUndefined) ∧
      (0x1000 ≤ ea.toNat → ea.toNat < 0x2000 → 0x800 ≤ ea.toNat % 0x1000 ∨ 0x10 ≤ ea.toNat % 0x100 →
        exec (.wd m) s = .refused .controlBitsNotZero)) ∧
    (0x2000 ≤ ea.toNat → s.cfg.directIo = false →
      exec (.rd m) s = .refused .directIoAbsent ∧ exec (.wd m) s = .refused .directIoAbsent)

/-! Input and output. -/

/-- A READ DIRECT whose effective address computes to X'0041', X'0042', X'0044', X'0048' or X'0050' is the I/O instruction (R107,
R285). -/
def Obligations.ReadDirectSelectsIo : Prop :=
  ∀ (m : MemRef) (s : State) (ea : Word), Addresses m s ea →
    (ea = 0x41 → exec (.rd m) s = exec .sio s) ∧ (ea = 0x42 → exec (.rd m) s = exec .tio s) ∧
    (ea = 0x44 → exec (.rd m) s = exec .tdv s) ∧ (ea = 0x48 → exec (.rd m) s = exec .hio s) ∧
    (ea = 0x50 → exec (.rd m) s = exec .aio s)

/-- SIO to a device that recognizes its number (R280), without the load condition: accepted when the device and its controller are
ready and no interrupt is pending, in either mode, and then they are busy and no device of another controller changes; else only
the status. The status of an accepted SIO shows the device before or after acceptance (U21, log entry 7). That another device of
the same channel may be busy (U27) is log entry 24 (DESIGN CHOICE). While COMPUTE is in IDLE, or the device not busy, it gets no
service and ends nothing (R262), and one in the manual mode cannot begin: it gets no order byte and comes to no channel end. That
an unusual end may still occur, and that a change of the mode after the order byte stops nothing, is log entry 40 (DEDUCED). -/
def Obligations.StartInputOutput : Prop :=
  (∀ (s : State) (d : Device), s.exitCond = false → s.MayControl → s.panel.loadCond = false →
    s.findDevice (byte1 s.regs.a) = some d →
    (d.condition = .ready ∧ d.controller = .ready ∧ d.pending = false →
      ∃ (t : State) (st : Byte), exec .sio s = .next t ∧
        t = { s with regs.a := st ++ byte1 s.regs.a, ind.o := false, ind.c := false, devices := t.devices } ∧
        (st = statusByte d ∨ st = statusByte { d with condition := .busy, controller := .busy }) ∧
        t.findDevice (byte1 s.regs.a) = some { d with condition := .busy, controller := .busy, order := .memory } ∧
        OthersShow .busy (byte1 s.regs.a) s t) ∧
    (¬ (d.condition = .ready ∧ d.controller = .ready ∧ d.pending = false) →
      exec .sio s = .next { s with regs.a := statusByte d ++ byte1 s.regs.a, ind.o := false, ind.c := true })) ∧
  ∀ (s : State) (d : Device) (dev : Byte), s.findDevice dev = some d →
    let idle := s.computeMode = .idle ∨ d.condition ≠ .busy
    let notBegun := d.own.automatic = false ∧ d.order ≠ .notAwaited
    (∀ tr, idle ∨ notBegun → applyInput (.service dev tr) s = .ok s) ∧
    ∀ te il cm ce ue, idle ∨ notBegun ∧ ue = false → applyInput (.ending dev te il cm ce ue) s = .ok s

/-- TIO and TDV to a device that recognizes its number (R281, R282): the responses, and the device not touched. -/
def Obligations.TestDevices : Prop :=
  ∀ (s : State) (d : Device), s.exitCond = false → s.MayControl → s.findDevice (byte1 s.regs.a) = some d →
    exec .tio s = .next
      { s with
        regs.a := statusByte d ++ byte1 s.regs.a, ind.o := false
        ind.c := !(d.condition == .ready && d.controller == .ready && !d.pending) } ∧
    exec .tdv s = .next
      { s with regs.a := d.own.tdvStatus ++ byte1 s.regs.a, ind.o := false, ind.c := d.own.tdvCondition }

/-- HIO to a device that recognizes its number (R283; the channel registers stay by decision D18): a busy device stops, its pending
interrupt is reset, C says whether the controller was busy. That device and controller are ready at once, what becomes of the
unusual-end bit (U23), and that a device that was not busy changes in nothing but its pending interrupt, is log entry 40
(DEDUCED). Of the other devices only those on the same controller change, and only in its condition. -/
def Obligations.HaltInputOutput : Prop :=
  ∀ (s : State) (d : Device), s.exitCond = false → s.MayControl → s.findDevice (byte1 s.regs.a) = some d →
    ∃ t, exec .hio s = .next t ∧
      t = { s with
        regs.a := statusByte d ++ byte1 s.regs.a, ind.o := false, ind.c := d.controller == .busy, devices := t.devices } ∧
      (d.condition = .busy →
        t.findDevice (byte1 s.regs.a) = some
          { d with
            condition := .ready, controller := .ready, order := .notAwaited, unusualEnd := d.own.haltUnusual, pending := false } ∧
        OthersShow .ready (byte1 s.regs.a) s t) ∧
      (d.condition ≠ .busy →
        t.findDevice (byte1 s.regs.a) = some { d with pending := false } ∧
        ∀ n, n ≠ byte1 s.regs.a → t.findDevice n = s.findDevice n)

/-- AIO (R284): the first pending device, in the order of the installation's priority, clears its interrupt and identifies
itself. -/
def Obligations.AcknowledgeInterrupt : Prop :=
  ∀ (s : State) (d : Device) (before after : List Device), s.exitCond = false → s.MayControl →
    s.devices = before ++ d :: after → (∀ x ∈ before, x.pending = false) → d.pending = true →
    (∀ x ∈ before ++ after, x.number ≠ d.number) →
    exec .aio s = .next
      { s with
        regs.a := d.own.aioStatus ++ d.number, ind.o := false, ind.c := d.own.aioUnusual
        devices := before ++ { d with pending := false } :: after }

/-- No device recognizes the number, or none is pending for AIO (R285, R280 to R284; C and the unchanged A are decision D16): O
and C are 1 and nothing else changes. -/
def Obligations.NoDeviceResponds : Prop :=
  ∀ s : State, s.exitCond = false → s.MayControl →
    (s.findDevice (byte1 s.regs.a) = none →
      exec .tio s = .next { s with ind.o := true, ind.c := true } ∧
      exec .tdv s = .next { s with ind.o := true, ind.c := true } ∧
      exec .hio s = .next { s with ind.o := true, ind.c := true } ∧
      (s.panel.loadCond = false → exec .sio s = .next { s with ind.o := true, ind.c := true })) ∧
    ((∀ d ∈ s.devices, d.pending = false) → exec .aio s = .next { s with ind.o := true, ind.c := true })

/-- SIO under the load condition (R289, R398; that it resets the condition is decision D18, log entry 19): the response of SIO as
R280 and R285 give it, accepted, not accepted or not recognized; in each case the I/O control doubleword X'00000080' in the
registers of the channel the number designates, P and S cleared, the processor waiting. Not recognized leaves A unchanged
(decision D16). Accepted makes the device and its controller busy, and no other device changes but in the condition of that
controller. The device's order request is answered with the read order X'02', without a memory read and without a count, once the
device is in the automatic mode (R280). The status shown is before or after acceptance (U21, log entry 7); that another device of
the channel may be busy is log entry 24 (DESIGN CHOICE); that the order request is answered in a parity halt too is log entry 29
(DEDUCED). -/
def Obligations.StartUnderLoadCondition : Prop :=
  (∀ s : State, s.exitCond = false → s.MayControl → s.panel.loadCond = true → s.cfg.channels ≤ 20 →
    let dev := byte1 s.regs.a
    ∃ t, exec .sio s = .next t ∧
      t = { s with
        regs.a := t.regs.a, regs.p := 0, ind.o := t.ind.o, ind.c := t.ind.c, devices := t.devices, chan := t.chan
        panel.loadCond := false, panel.sReg := 0, wff := true } ∧
      (∀ ch, channelOf s.cfg dev = some ch →
        t.getBlock (evenReg ch) = some 0 ∧ t.getBlock (oddReg ch) = some 0x80 ∧
        ∀ n, n ≠ evenReg ch → n ≠ oddReg ch → 8 ≤ n → n < 48 → t.getChannel n = s.getChannel n) ∧
      (channelOf s.cfg dev = none → t.chan = s.chan) ∧
      (s.findDevice dev = none → t.regs.a = s.regs.a ∧ t.ind.o = true ∧ t.ind.c = true ∧ t.devices = s.devices) ∧
      ∀ d, s.findDevice dev = some d →
        (d.condition = .ready ∧ d.controller = .ready ∧ d.pending = false →
          (∃ st, t.regs.a = st ++ dev ∧
            (st = statusByte d ∨ st = statusByte { d with condition := .busy, controller := .busy })) ∧
          t.ind.o = false ∧ t.ind.c = false ∧
          t.findDevice dev = some { d with condition := .busy, controller := .busy, order := .processor } ∧
          OthersShow .busy dev s t) ∧
        (¬ (d.condition = .ready ∧ d.controller = .ready ∧ d.pending = false) →
          t.regs.a = statusByte d ++ dev ∧ t.ind.o = false ∧ t.ind.c = true ∧ t.devices = s.devices)) ∧
  ∀ (s : State) (d : Device) (dev : Byte) (ch : Nat), s.computeMode ≠ .idle → s.findDevice dev = some d → d.condition = .busy →
    d.own.automatic = true → d.order = .processor → channelOf s.cfg dev = some ch →
    ∃ t, applyInput (.service dev .output) s = .ok t ∧
      t = { s with devices := t.devices, env.sent := .channelByte dev 0x02 :: s.env.sent } ∧
      t.findDevice dev = some { d with order := .notAwaited } ∧ ∀ n, n ≠ dev → t.findDevice n = s.findDevice n

/-- One byte of service, the masks of the I/O control doubleword at their default places (R268, R267, R273; decisions D17, D18,
log entry 19). The byte is in the half of the word that the parity of the remaining count names: an input byte is stored there and
its parity error sets E; an output byte, the order byte among them, is sent from there and the parity event of the word sets E.
The address moves on after a right-hand byte, the count goes down, count done is sent when it reaches zero; no other byte of
memory, no other channel register and no other device changes, and no word's parity but that of the word stored into, which
becomes good (R60, log entry 26). The order byte is served in the automatic mode only (R280). The count reaching zero with the
chaining flag set is DataChaining. That service goes on in a parity halt is log entry 29 (DEDUCED, unsafe). -/
def Obligations.ChannelByte : Prop :=
  ∀ (s : State) (d : Device) (dev : Byte) (ch : Nat) (a odd : Word), s.cfg.channels ≤ 20 →
    s.cfg.iocdCount = 0x1FFF → s.cfg.iocdDc = 0x4000 → s.computeMode ≠ .idle →
    s.findDevice dev = some d → d.condition = .busy → channelOf s.cfg dev = some ch →
    s.getChannel (evenReg ch) = a → s.getChannel (oddReg ch) = odd → 0 < odd.toNat % 8192 →
    1 < odd.toNat % 8192 ∨ odd.getMsbD 1 = false →
    let byteAt := 2 * a.toNat + odd.toNat % 2
    let done : List Sent := if odd.toNat % 8192 = 1 then [.countDone dev] else []
    let counted := fun (t : State) (bad : Bool) =>
      t.getChannel (evenReg ch) = (if odd.toNat % 2 = 1 then a + 1 else a) ∧
      t.getChannel (oddReg ch) = (if bad then (odd - 1) ||| 0x8000 else odd - 1) ∧
      ∀ n, n ≠ evenReg ch → n ≠ oddReg ch → 8 ≤ n → n < 48 → t.getChannel n = s.getChannel n
    (∀ b ok, s.mem.wf → d.order = .notAwaited →
      ∃ t, applyInput (.service dev (.input b ok)) s = .ok t ∧
        t = { s with mem := t.mem, badParity := t.badParity, chan := t.chan, env.sent := done ++ s.env.sent } ∧
        (s.existsAt a = true → t.mem.readByte byteAt = b) ∧
        (∀ x, (s.existsAt a = true → x ≠ byteAt) → t.mem.readByte x = s.mem.readByte x) ∧
        ParityMended s t [a] ∧ counted t (!ok)) ∧
    (d.order ≠ .processor → d.own.automatic = true ∨ d.order = .notAwaited →
      ∃ t, applyInput (.service dev .output) s = .ok t ∧
        t = { s with
          chan := t.chan, devices := t.devices
          env.sent := done ++ .channelByte dev (if s.existsAt a = true then s.mem.readByte byteAt else 0) :: s.env.sent } ∧
        t.findDevice dev = some { d with order := .notAwaited } ∧ (∀ n, n ≠ dev → t.findDevice n = s.findDevice n) ∧
        counted t (!s.existsAt a || s.badParity.contains a.toNat))

/-- Data chaining, the masks at their default places (R270, R271 reason 2; decision D18, log entry 19): with the last byte of a
table whose chaining flag is set, the doubleword after the table replaces both channel registers whole, the device requests an
interrupt if the interrupt flag of the completed doubleword is set, and no count done is sent. That last byte may be the order
byte, sent in the automatic mode (R280). An input byte makes the parity of its word good (R60, log entry 26). That a chained count
of zero is refused is U25 (log entry 25), that a parity error of the doubleword raises nothing log entry 27, service in a parity
halt log entry 29. -/
def Obligations.DataChaining : Prop :=
  ∀ (s : State) (d : Device) (dev : Byte) (ch : Nat) (a odd : Word) (tr : Transfer), s.mem.wf → s.cfg.channels ≤ 20 →
    s.cfg.iocdCount = 0x1FFF → s.cfg.iocdDc = 0x4000 → s.cfg.iocdI = 0x2000 → s.computeMode ≠ .idle →
    s.findDevice dev = some d → d.condition = .busy → channelOf s.cfg dev = some ch →
    d.order = .notAwaited ∨ d.order = .memory ∧ d.own.automatic = true ∧ tr = .output →
    s.getChannel (evenReg ch) = a → s.getChannel (oddReg ch) = odd → odd.toNat % 8192 = 1 → odd.getMsbD 1 = true →
    ((s.wordAt (a + 2)).toNat % 8192 ≠ 0 →
      ∃ t, applyInput (.service dev tr) s = .ok t ∧
        t = { s with mem := t.mem, badParity := t.badParity, chan := t.chan, devices := t.devices, env.sent := t.env.sent } ∧
        t.getChannel (evenReg ch) = s.wordAt (a + 1) ∧ t.getChannel (oddReg ch) = s.wordAt (a + 2) ∧
        (∀ n, n ≠ evenReg ch → n ≠ oddReg ch → 8 ≤ n → n < 48 → t.getChannel n = s.getChannel n) ∧
        t.findDevice dev = some { d with order := .notAwaited, pending := d.pending || odd.getMsbD 2 } ∧
        (∀ n, n ≠ dev → t.findDevice n = s.findDevice n) ∧
        match tr with
        | .output =>
          t.mem = s.mem ∧ t.badParity = s.badParity ∧
            t.env.sent = .channelByte dev (if s.existsAt a = true then s.mem.readByte (2 * a.toNat + 1) else 0) :: s.env.sent
        | .input b _ =>
          (s.existsAt a = true → t.mem.readByte (2 * a.toNat + 1) = b) ∧
            (∀ x, (s.existsAt a = true → x ≠ 2 * a.toNat + 1) → t.mem.readByte x = s.mem.readByte x) ∧
            ParityMended s t [a] ∧ t.env.sent = s.env.sent) ∧
    ((s.wordAt (a + 2)).toNat % 8192 = 0 → applyInput (.service dev tr) s = .error .chainedCountZero)

/-- The end of an operation (R272, R269, R271): the operational status byte replaces the even register, with CE 1 unless there was a
transmission error or an unusual end (U24); the device and its controller are no longer busy; an interrupt is requested if the
interrupt flag is set. An unusual end terminates every operation of the controller (R269); no device of another controller
changes. An operation that a device in the manual mode has not begun can end so by an unusual end only (R280). That, that device and
controller become ready, and CE beside a transmission error, are log entry 40 (DEDUCED); that
operations end in a parity halt too is log entry 29 (DEDUCED). -/
def Obligations.OperationEnd : Prop :=
  ∀ (s : State) (d : Device) (dev : Byte) (ch : Nat) (te il cm ce ue : Bool), s.cfg.channels ≤ 20 →
    s.computeMode ≠ .idle → s.findDevice dev = some d → d.condition = .busy → channelOf s.cfg dev = some ch →
    d.own.automatic = true ∨ d.order = .notAwaited ∨ ue = true →
    ∃ t, applyInput (.ending dev te il cm ce ue) s = .ok t ∧ t = { s with chan := t.chan, devices := t.devices } ∧
      (t.getChannel (evenReg ch)).toNat =
        32768 * te.toNat + 16384 * il.toNat + 8192 * cm.toNat + 4096 * (ce || !(te || ue)).toNat + 2048 * ue.toNat ∧
      (∀ n, n ≠ evenReg ch → 8 ≤ n → n < 48 → t.getChannel n = s.getChannel n) ∧
      t.findDevice dev = some
        { d with
          condition := .ready, controller := .ready, order := .notAwaited, unusualEnd := ue
          pending := d.pending || s.getChannel (oddReg ch) &&& s.cfg.iocdI != 0 } ∧
      ∀ n, n ≠ dev →
        t.findDevice n = (s.findDevice n).map fun x =>
          if sameController n dev then
            if ue && x.condition == .busy then { x with condition := .ready, controller := .ready, order := .notAwaited }
            else { x with controller := .ready }
          else x

/-! Interrupts. -/

/-- The level that becomes active (R330, R331): it is waiting and enabled with its inhibit off, and no level of higher priority is
active or waiting, enabled and uninhibited. That an active level blocks even if disabled or inhibited is decision D22 (log entry
20). The chain of an installation within the ranges of R6 holds every installed level once, the override and counter levels
first in the order of R312 and R315, then the groups in the order of the installation (R314). -/
def Obligations.LevelSelection : Prop :=
  (∀ (s : State) (w : Level),
    select s = some w ↔
      ∃ above below, priorityChain s.cfg = above ++ w :: below ∧
        (s.level w).state = .waiting ∧ (s.level w).enabled = true ∧ inhibited s w = false ∧
        ∀ x ∈ above, (s.level x).state ≠ .active ∧
          ¬ ((s.level x).state = .waiting ∧ (s.level x).enabled = true ∧ inhibited s x = false)) ∧
  ∀ c : Config, c.wf = true →
    (∀ l, l ∈ priorityChain c ↔ installed c l = true) ∧
    (priorityChain c).Pairwise fun x y => chainPlace c x < chainPlace c y

/-- Signals at the levels (R326, R327): a signal from outside makes an installed armed level wait and changes nothing else; the
other levels have no signal from outside. The I/O level sees a signal before every step as long as a device is pending (R275,
R376; that it is held is decision D28, log entry 23), whether a batch of events is left or not. -/
def Obligations.LevelSignals : Prop :=
  (∀ (s : State) (l : Level),
    match l with
    | .powerOn | .powerOff | .counter _ | .controlPanel | .integral _ | .external _ _ =>
      ∃ t, applyInput (.signal l) s = .ok t ∧ t = { s with levels := t.levels } ∧ LevelSignalled l s t
    | .memoryParity | .protection | .multiply | .divide | .inputOutput | .counterZero _ => applyInput (.signal l) s = .ok s) ∧
  ∀ s u : State, applyInputs (s.env.inputs.headD []) { s with env.inputs := s.env.inputs.tail } = .ok u →
    ∃ t, takeInputs s = .ok t ∧ t = { u with levels := t.levels } ∧
      ((∃ d ∈ u.devices, d.pending = true) → LevelSignalled .inputOutput u t) ∧
      ((∀ d ∈ u.devices, d.pending = false) → t = u)

/-- Entry to a normal level (R346): the status word and P at Q and Q + 1, P at Q + 2, PP set, the level active, the wait over, the
parity of the two stored words good (R60), and nothing else changed. The zeros of the status word are decision D2 (R49, log entry
9); that a dedicated word of bad parity is read as it is and raises nothing is log entry 27 (U42). -/
def Obligations.InterruptEntry : Prop :=
  ∀ (s : State) (l : Level), s.mem.wf → s.running = true → s.exitCond = false → s.panel.firstFromD = false →
    select s = some l → (∀ n, l ≠ .counter n) →
    let q := s.wordAt (BitVec.ofNat 16 (levelLocation l))
    let t := recognition s
    t = { s with
      regs.p := q + 2, ind.pp := s.cfg.protect, wff := false, levels := t.levels, mem := t.mem, badParity := t.badParity } ∧
    (∀ k, t.level k = if k = l then { s.level l with state := .active } else s.level k) ∧
    (s.existsAt q = true → t.mem.readWord q.toNat = statusValue s.ind) ∧
    (s.existsAt (q + 1) = true → t.mem.readWord (q + 1).toNat = s.regs.p) ∧
    ParityMended s t [q, q + 1] ∧
    ∀ b, (s.existsAt q = true → b / 2 ≠ q.toNat) → (s.existsAt (q + 1) = true → b / 2 ≠ (q + 1).toNat) →
      t.mem.readByte b = s.mem.readByte b

/-- Service of a counter (R340, R341): its location incremented, the level armed again, the counter-equals-zero level signalled when
the result is zero, the wait over; no register and no indicator touched. Recognition services a selected counter and goes on from
there (R340, R345), and with no level selected it does nothing. That a counter word of bad parity is read as it is and raises
nothing is log entry 27 (U42). -/
def Obligations.CounterService : Prop :=
  (∀ (s : State) (n : Fin 4), s.mem.wf →
    let loc : Word := BitVec.ofNat 16 (0xFF - n.val)
    let v := s.wordAt loc + 1
    let t := serviceCounter n s
    t = { s with wff := false, levels := t.levels, mem := t.mem, badParity := t.badParity } ∧
    WordStored s t loc v ∧
    ∀ l, t.level l =
      if l = .counter n then { s.level l with state := .armed }
      else if l = .counterZero n ∧ v = 0 ∧ installed s.cfg l = true ∧ (s.level l).state = .armed then
        { s.level l with state := .waiting }
      else s.level l) ∧
  ∀ s : State, s.running = true → s.exitCond = false → s.panel.firstFromD = false →
    (∀ n, select s = some (.counter n) → recognition s = recognition (serviceCounter n s)) ∧
    (select s = none → recognition s = s)

/-- Interrupt recognition ends (R345): after four counter services and one entry nothing more can happen before the next
instruction, so the model's fuel of five loses nothing. -/
def Obligations.RecognitionEnds : Prop :=
  ∀ (s : State) (k : Nat), recognise (k + 5) s = recognise 5 s

/-! The whole machine. -/

/-- Every instruction other than RD and WD, executed with the exit condition clear, completes: with its own effect or by taking an
exception the rules describe (R109, R351). -/
def Obligations.NothingElseStops : Prop :=
  ∀ (i : Instr) (s : State), s.exitCond = false → (∀ m, i ≠ .rd m ∧ i ≠ .wd m) → ∃ t, exec i s = .next t

/-- A program in unprotected memory is confined (R360, R361, R363, R382): with the protection system operative and no power level
busy, no instruction it executes changes a protected word, a protection or channel register, an inhibit, PP, a device or the
exit condition, or any level but to signal the level of its own exception. -/
def Obligations.UnprotectedProgramIsConfined : Prop :=
  ∀ (i : Instr) (s t : State), s.mem.wf → s.operative = true → s.protBit s.h = false → s.powerLevelBusy = false →
    s.exitCond = false → exec i s = .next t →
    (∀ a, s.protBit a = true → t.wordAt a = s.wordAt a) ∧
    t.prot = s.prot ∧ t.chan = s.chan ∧ t.devices = s.devices ∧ t.exitCond = false ∧ t.watchdog = s.watchdog ∧
    t.env = s.env ∧ t.ind.pp = s.ind.pp ∧ t.ind.ii = s.ind.ii ∧ t.ind.ei = s.ind.ei ∧
    ∀ l, t.level l = s.level l ∨
      isOverride l = true ∧ (s.level l).state = .armed ∧ t.level l = { s.level l with state := .waiting }

/-- What reset leaves (R45, R391, decision D12): the indicators, the levels, the wait flip-flop, the exit condition, the load
condition, S. That PP is 0 rests on the model's choice of an installation without the protection option (log entry 2). And what
INITIALIZE RESET leaves of any state: that, with every device ready and idle, and the general, channel and protection registers,
memory and the rest as they were. It is operative with the key unlocked and COMPUTE in IDLE only (R391). The unusual-end bit is
log entry 6 (DEDUCED), the Watchdog Timer and the load condition log entry 46. -/
def Obligations.ResetState : Prop :=
  let levelsReset : State → Prop := fun s =>
    ∀ l, s.level l = if isOverride l then ⟨.armed, true⟩ else ⟨.disarmed, false⟩
  (State.reset.ind = { pp := false, ii := false, ei := false, o := false, c := false } ∧
    State.reset.wff = false ∧ State.reset.exitCond = false ∧ State.reset.panel.loadCond = false ∧
    State.reset.panel.parityHalt = false ∧ State.reset.panel.parityLamp = false ∧ State.reset.panel.sReg = 0 ∧
    State.reset.panel.compute = .run ∧ State.reset.regs.p = State.reset.cfg.start ∧ levelsReset State.reset) ∧
  ∀ s : State,
    (s.panel.key = .unlocked → s.panel.compute = .idle →
      ∃ t, applyInput .initializeReset s = .ok t ∧
        t = { s with
          ind := { pp := t.ind.pp, ii := false, ei := false, o := false, c := false }
          panel.parityHalt := false, panel.parityLamp := false, panel.loadCond := false, panel.sReg := 0
          levels := t.levels, wff := false, exitCond := false, env.freeCount := t.env.freeCount
          devices := s.devices.map fun d =>
            { d with
              condition := .ready, controller := .ready, unusualEnd := false, pending := false, order := .notAwaited } } ∧
        (s.operative = true → t.ind.pp = true) ∧ (s.cfg.protect = false → t.ind.pp = false) ∧ levelsReset t) ∧
    (s.panel.key ≠ .unlocked ∨ s.panel.compute ≠ .idle → applyInput .initializeReset s = .ok s)

/-- The invariant holds after reset, for every installation and every setting of the panel. -/
def Obligations.ResetMeetsInvariant : Prop :=
  ∀ (c : Config) (p : Panel), (State.resetWith c p).Inv

/-- Every step keeps the invariant: memory canonical and within the installed words (R60), no override level disarmed or disabled
(R38, R313), no counter level left active (R340), no absent level waiting or active (R316), PP zero without the option
(R32), no wait with the exit condition set (R126). -/
def Obligations.StepKeepsInvariant : Prop :=
  ∀ s t : State, s.Inv → step s = .next t → t.Inv

/-- No step changes the installation (R6, "configuration, fixed for a run"). -/
def Obligations.StepKeepsConfiguration : Prop :=
  ∀ s t : State, step s = .next t → t.cfg = s.cfg
end

