-- ==== Sys2Proof/Laws/State.lean ====
section
/-! SUPPORT. For every update of the state and every shared operation, one lemma per field that it leaves unchanged, so that no
proof unfolds a record update. -/

namespace Sys2Proof.Machine

/-- A fold of updates that each keep a field keeps it. -/
theorem foldl_keeps {α β : Type} (f : State → β) (g : State → α → State) (h : ∀ s i, f (g s i) = f s) (l : List α) (s : State) :
    f (l.foldl g s) = f s := by
  induction l generalizing s with
  | nil => rfl
  | cons i l ih => exact (ih _).trans (h s i)

@[simp] theorem State.setReg_cfg (s : State) (r : Reg) (v : Word) : (s.setReg r v).cfg = s.cfg := by cases r <;> rfl
@[simp] theorem State.setReg_ind (s : State) (r : Reg) (v : Word) : (s.setReg r v).ind = s.ind := by cases r <;> rfl
@[simp] theorem State.setReg_h (s : State) (r : Reg) (v : Word) : (s.setReg r v).h = s.h := by cases r <;> rfl
@[simp] theorem State.setReg_chan (s : State) (r : Reg) (v : Word) : (s.setReg r v).chan = s.chan := by cases r <;> rfl
@[simp] theorem State.setReg_prot (s : State) (r : Reg) (v : Word) : (s.setReg r v).prot = s.prot := by cases r <;> rfl
@[simp] theorem State.setReg_levels (s : State) (r : Reg) (v : Word) : (s.setReg r v).levels = s.levels := by cases r <;> rfl
@[simp] theorem State.setReg_wff (s : State) (r : Reg) (v : Word) : (s.setReg r v).wff = s.wff := by cases r <;> rfl
@[simp] theorem State.setReg_exitCond (s : State) (r : Reg) (v : Word) : (s.setReg r v).exitCond = s.exitCond := by cases r <;> rfl
@[simp] theorem State.setReg_panel (s : State) (r : Reg) (v : Word) : (s.setReg r v).panel = s.panel := by cases r <;> rfl
@[simp] theorem State.setReg_mem (s : State) (r : Reg) (v : Word) : (s.setReg r v).mem = s.mem := by cases r <;> rfl
@[simp] theorem State.setReg_badParity (s : State) (r : Reg) (v : Word) : (s.setReg r v).badParity = s.badParity := by cases r <;> rfl
@[simp] theorem State.setReg_devices (s : State) (r : Reg) (v : Word) : (s.setReg r v).devices = s.devices := by cases r <;> rfl
@[simp] theorem State.setReg_watchdog (s : State) (r : Reg) (v : Word) : (s.setReg r v).watchdog = s.watchdog := by cases r <;> rfl
@[simp] theorem State.setReg_env (s : State) (r : Reg) (v : Word) : (s.setReg r v).env = s.env := by cases r <;> rfl

@[simp] theorem State.setOC_cfg (s : State) (o c : Bool) : (s.setOC o c).cfg = s.cfg := rfl
@[simp] theorem State.setOC_regs (s : State) (o c : Bool) : (s.setOC o c).regs = s.regs := rfl
@[simp] theorem State.setOC_h (s : State) (o c : Bool) : (s.setOC o c).h = s.h := rfl
@[simp] theorem State.setOC_chan (s : State) (o c : Bool) : (s.setOC o c).chan = s.chan := rfl
@[simp] theorem State.setOC_prot (s : State) (o c : Bool) : (s.setOC o c).prot = s.prot := rfl
@[simp] theorem State.setOC_levels (s : State) (o c : Bool) : (s.setOC o c).levels = s.levels := rfl
@[simp] theorem State.setOC_wff (s : State) (o c : Bool) : (s.setOC o c).wff = s.wff := rfl
@[simp] theorem State.setOC_exitCond (s : State) (o c : Bool) : (s.setOC o c).exitCond = s.exitCond := rfl
@[simp] theorem State.setOC_panel (s : State) (o c : Bool) : (s.setOC o c).panel = s.panel := rfl
@[simp] theorem State.setOC_mem (s : State) (o c : Bool) : (s.setOC o c).mem = s.mem := rfl
@[simp] theorem State.setOC_badParity (s : State) (o c : Bool) : (s.setOC o c).badParity = s.badParity := rfl
@[simp] theorem State.setOC_devices (s : State) (o c : Bool) : (s.setOC o c).devices = s.devices := rfl
@[simp] theorem State.setOC_watchdog (s : State) (o c : Bool) : (s.setOC o c).watchdog = s.watchdog := rfl
@[simp] theorem State.setOC_env (s : State) (o c : Bool) : (s.setOC o c).env = s.env := rfl

@[simp] theorem State.setPP_cfg (s : State) (b : Bool) : (s.setPP b).cfg = s.cfg := rfl
@[simp] theorem State.setPP_regs (s : State) (b : Bool) : (s.setPP b).regs = s.regs := rfl
@[simp] theorem State.setPP_h (s : State) (b : Bool) : (s.setPP b).h = s.h := rfl
@[simp] theorem State.setPP_chan (s : State) (b : Bool) : (s.setPP b).chan = s.chan := rfl
@[simp] theorem State.setPP_prot (s : State) (b : Bool) : (s.setPP b).prot = s.prot := rfl
@[simp] theorem State.setPP_levels (s : State) (b : Bool) : (s.setPP b).levels = s.levels := rfl
@[simp] theorem State.setPP_wff (s : State) (b : Bool) : (s.setPP b).wff = s.wff := rfl
@[simp] theorem State.setPP_exitCond (s : State) (b : Bool) : (s.setPP b).exitCond = s.exitCond := rfl
@[simp] theorem State.setPP_panel (s : State) (b : Bool) : (s.setPP b).panel = s.panel := rfl
@[simp] theorem State.setPP_mem (s : State) (b : Bool) : (s.setPP b).mem = s.mem := rfl
@[simp] theorem State.setPP_badParity (s : State) (b : Bool) : (s.setPP b).badParity = s.badParity := rfl
@[simp] theorem State.setPP_devices (s : State) (b : Bool) : (s.setPP b).devices = s.devices := rfl
@[simp] theorem State.setPP_watchdog (s : State) (b : Bool) : (s.setPP b).watchdog = s.watchdog := rfl
@[simp] theorem State.setPP_env (s : State) (b : Bool) : (s.setPP b).env = s.env := rfl

@[simp] theorem State.loadStatus_cfg (s : State) (w : Word) : (s.loadStatus w).cfg = s.cfg := rfl
@[simp] theorem State.loadStatus_regs (s : State) (w : Word) : (s.loadStatus w).regs = s.regs := rfl
@[simp] theorem State.loadStatus_h (s : State) (w : Word) : (s.loadStatus w).h = s.h := rfl
@[simp] theorem State.loadStatus_chan (s : State) (w : Word) : (s.loadStatus w).chan = s.chan := rfl
@[simp] theorem State.loadStatus_prot (s : State) (w : Word) : (s.loadStatus w).prot = s.prot := rfl
@[simp] theorem State.loadStatus_levels (s : State) (w : Word) : (s.loadStatus w).levels = s.levels := rfl
@[simp] theorem State.loadStatus_wff (s : State) (w : Word) : (s.loadStatus w).wff = s.wff := rfl
@[simp] theorem State.loadStatus_exitCond (s : State) (w : Word) : (s.loadStatus w).exitCond = s.exitCond := rfl
@[simp] theorem State.loadStatus_panel (s : State) (w : Word) : (s.loadStatus w).panel = s.panel := rfl
@[simp] theorem State.loadStatus_mem (s : State) (w : Word) : (s.loadStatus w).mem = s.mem := rfl
@[simp] theorem State.loadStatus_badParity (s : State) (w : Word) : (s.loadStatus w).badParity = s.badParity := rfl
@[simp] theorem State.loadStatus_devices (s : State) (w : Word) : (s.loadStatus w).devices = s.devices := rfl
@[simp] theorem State.loadStatus_watchdog (s : State) (w : Word) : (s.loadStatus w).watchdog = s.watchdog := rfl
@[simp] theorem State.loadStatus_env (s : State) (w : Word) : (s.loadStatus w).env = s.env := rfl

@[simp] theorem State.setLevel_cfg (s : State) (l : Level) (v : LevelFF) : (s.setLevel l v).cfg = s.cfg := rfl
@[simp] theorem State.setLevel_regs (s : State) (l : Level) (v : LevelFF) : (s.setLevel l v).regs = s.regs := rfl
@[simp] theorem State.setLevel_ind (s : State) (l : Level) (v : LevelFF) : (s.setLevel l v).ind = s.ind := rfl
@[simp] theorem State.setLevel_h (s : State) (l : Level) (v : LevelFF) : (s.setLevel l v).h = s.h := rfl
@[simp] theorem State.setLevel_chan (s : State) (l : Level) (v : LevelFF) : (s.setLevel l v).chan = s.chan := rfl
@[simp] theorem State.setLevel_prot (s : State) (l : Level) (v : LevelFF) : (s.setLevel l v).prot = s.prot := rfl
@[simp] theorem State.setLevel_wff (s : State) (l : Level) (v : LevelFF) : (s.setLevel l v).wff = s.wff := rfl
@[simp] theorem State.setLevel_exitCond (s : State) (l : Level) (v : LevelFF) : (s.setLevel l v).exitCond = s.exitCond := rfl
@[simp] theorem State.setLevel_panel (s : State) (l : Level) (v : LevelFF) : (s.setLevel l v).panel = s.panel := rfl
@[simp] theorem State.setLevel_mem (s : State) (l : Level) (v : LevelFF) : (s.setLevel l v).mem = s.mem := rfl
@[simp] theorem State.setLevel_badParity (s : State) (l : Level) (v : LevelFF) : (s.setLevel l v).badParity = s.badParity := rfl
@[simp] theorem State.setLevel_devices (s : State) (l : Level) (v : LevelFF) : (s.setLevel l v).devices = s.devices := rfl
@[simp] theorem State.setLevel_watchdog (s : State) (l : Level) (v : LevelFF) : (s.setLevel l v).watchdog = s.watchdog := rfl
@[simp] theorem State.setLevel_env (s : State) (l : Level) (v : LevelFF) : (s.setLevel l v).env = s.env := rfl

@[simp] theorem State.setLevelState_cfg (s : State) (l : Level) (v : LevelState) : (s.setLevelState l v).cfg = s.cfg := rfl
@[simp] theorem State.setLevelState_regs (s : State) (l : Level) (v : LevelState) : (s.setLevelState l v).regs = s.regs := rfl
@[simp] theorem State.setLevelState_ind (s : State) (l : Level) (v : LevelState) : (s.setLevelState l v).ind = s.ind := rfl
@[simp] theorem State.setLevelState_h (s : State) (l : Level) (v : LevelState) : (s.setLevelState l v).h = s.h := rfl
@[simp] theorem State.setLevelState_chan (s : State) (l : Level) (v : LevelState) : (s.setLevelState l v).chan = s.chan := rfl
@[simp] theorem State.setLevelState_prot (s : State) (l : Level) (v : LevelState) : (s.setLevelState l v).prot = s.prot := rfl
@[simp] theorem State.setLevelState_wff (s : State) (l : Level) (v : LevelState) : (s.setLevelState l v).wff = s.wff := rfl
@[simp] theorem State.setLevelState_exitCond (s : State) (l : Level) (v : LevelState) : (s.setLevelState l v).exitCond = s.exitCond := rfl
@[simp] theorem State.setLevelState_panel (s : State) (l : Level) (v : LevelState) : (s.setLevelState l v).panel = s.panel := rfl
@[simp] theorem State.setLevelState_mem (s : State) (l : Level) (v : LevelState) : (s.setLevelState l v).mem = s.mem := rfl
@[simp] theorem State.setLevelState_badParity (s : State) (l : Level) (v : LevelState) : (s.setLevelState l v).badParity = s.badParity := rfl
@[simp] theorem State.setLevelState_devices (s : State) (l : Level) (v : LevelState) : (s.setLevelState l v).devices = s.devices := rfl
@[simp] theorem State.setLevelState_watchdog (s : State) (l : Level) (v : LevelState) : (s.setLevelState l v).watchdog = s.watchdog := rfl
@[simp] theorem State.setLevelState_env (s : State) (l : Level) (v : LevelState) : (s.setLevelState l v).env = s.env := rfl

@[simp] theorem State.setLevelEnabled_cfg (s : State) (l : Level) (b : Bool) : (s.setLevelEnabled l b).cfg = s.cfg := rfl
@[simp] theorem State.setLevelEnabled_regs (s : State) (l : Level) (b : Bool) : (s.setLevelEnabled l b).regs = s.regs := rfl
@[simp] theorem State.setLevelEnabled_ind (s : State) (l : Level) (b : Bool) : (s.setLevelEnabled l b).ind = s.ind := rfl
@[simp] theorem State.setLevelEnabled_h (s : State) (l : Level) (b : Bool) : (s.setLevelEnabled l b).h = s.h := rfl
@[simp] theorem State.setLevelEnabled_chan (s : State) (l : Level) (b : Bool) : (s.setLevelEnabled l b).chan = s.chan := rfl
@[simp] theorem State.setLevelEnabled_prot (s : State) (l : Level) (b : Bool) : (s.setLevelEnabled l b).prot = s.prot := rfl
@[simp] theorem State.setLevelEnabled_wff (s : State) (l : Level) (b : Bool) : (s.setLevelEnabled l b).wff = s.wff := rfl
@[simp] theorem State.setLevelEnabled_exitCond (s : State) (l : Level) (b : Bool) : (s.setLevelEnabled l b).exitCond = s.exitCond := rfl
@[simp] theorem State.setLevelEnabled_panel (s : State) (l : Level) (b : Bool) : (s.setLevelEnabled l b).panel = s.panel := rfl
@[simp] theorem State.setLevelEnabled_mem (s : State) (l : Level) (b : Bool) : (s.setLevelEnabled l b).mem = s.mem := rfl
@[simp] theorem State.setLevelEnabled_badParity (s : State) (l : Level) (b : Bool) : (s.setLevelEnabled l b).badParity = s.badParity := rfl
@[simp] theorem State.setLevelEnabled_devices (s : State) (l : Level) (b : Bool) : (s.setLevelEnabled l b).devices = s.devices := rfl
@[simp] theorem State.setLevelEnabled_watchdog (s : State) (l : Level) (b : Bool) : (s.setLevelEnabled l b).watchdog = s.watchdog := rfl
@[simp] theorem State.setLevelEnabled_env (s : State) (l : Level) (b : Bool) : (s.setLevelEnabled l b).env = s.env := rfl

@[simp] theorem trigger_cfg (l : Level) (s : State) : (trigger l s).cfg = s.cfg := by unfold trigger; split <;> rfl
@[simp] theorem trigger_regs (l : Level) (s : State) : (trigger l s).regs = s.regs := by unfold trigger; split <;> rfl
@[simp] theorem trigger_ind (l : Level) (s : State) : (trigger l s).ind = s.ind := by unfold trigger; split <;> rfl
@[simp] theorem trigger_h (l : Level) (s : State) : (trigger l s).h = s.h := by unfold trigger; split <;> rfl
@[simp] theorem trigger_chan (l : Level) (s : State) : (trigger l s).chan = s.chan := by unfold trigger; split <;> rfl
@[simp] theorem trigger_prot (l : Level) (s : State) : (trigger l s).prot = s.prot := by unfold trigger; split <;> rfl
@[simp] theorem trigger_wff (l : Level) (s : State) : (trigger l s).wff = s.wff := by unfold trigger; split <;> rfl
@[simp] theorem trigger_exitCond (l : Level) (s : State) : (trigger l s).exitCond = s.exitCond := by unfold trigger; split <;> rfl
@[simp] theorem trigger_panel (l : Level) (s : State) : (trigger l s).panel = s.panel := by unfold trigger; split <;> rfl
@[simp] theorem trigger_mem (l : Level) (s : State) : (trigger l s).mem = s.mem := by unfold trigger; split <;> rfl
@[simp] theorem trigger_badParity (l : Level) (s : State) : (trigger l s).badParity = s.badParity := by unfold trigger; split <;> rfl
@[simp] theorem trigger_devices (l : Level) (s : State) : (trigger l s).devices = s.devices := by unfold trigger; split <;> rfl
@[simp] theorem trigger_watchdog (l : Level) (s : State) : (trigger l s).watchdog = s.watchdog := by unfold trigger; split <;> rfl
@[simp] theorem trigger_env (l : Level) (s : State) : (trigger l s).env = s.env := by unfold trigger; split <;> rfl

@[simp] theorem State.storeWord_cfg (s : State) (a v : Word) : (s.storeWord a v).cfg = s.cfg := by unfold State.storeWord; split <;> rfl
@[simp] theorem State.storeWord_regs (s : State) (a v : Word) : (s.storeWord a v).regs = s.regs := by unfold State.storeWord; split <;> rfl
@[simp] theorem State.storeWord_ind (s : State) (a v : Word) : (s.storeWord a v).ind = s.ind := by unfold State.storeWord; split <;> rfl
@[simp] theorem State.storeWord_h (s : State) (a v : Word) : (s.storeWord a v).h = s.h := by unfold State.storeWord; split <;> rfl
@[simp] theorem State.storeWord_chan (s : State) (a v : Word) : (s.storeWord a v).chan = s.chan := by unfold State.storeWord; split <;> rfl
@[simp] theorem State.storeWord_prot (s : State) (a v : Word) : (s.storeWord a v).prot = s.prot := by unfold State.storeWord; split <;> rfl
@[simp] theorem State.storeWord_levels (s : State) (a v : Word) : (s.storeWord a v).levels = s.levels := by unfold State.storeWord; split <;> rfl
@[simp] theorem State.storeWord_wff (s : State) (a v : Word) : (s.storeWord a v).wff = s.wff := by unfold State.storeWord; split <;> rfl
@[simp] theorem State.storeWord_exitCond (s : State) (a v : Word) : (s.storeWord a v).exitCond = s.exitCond := by unfold State.storeWord; split <;> rfl
@[simp] theorem State.storeWord_panel (s : State) (a v : Word) : (s.storeWord a v).panel = s.panel := by unfold State.storeWord; split <;> rfl
@[simp] theorem State.storeWord_devices (s : State) (a v : Word) : (s.storeWord a v).devices = s.devices := by unfold State.storeWord; split <;> rfl
@[simp] theorem State.storeWord_watchdog (s : State) (a v : Word) : (s.storeWord a v).watchdog = s.watchdog := by unfold State.storeWord; split <;> rfl
@[simp] theorem State.storeWord_env (s : State) (a v : Word) : (s.storeWord a v).env = s.env := by unfold State.storeWord; split <;> rfl

@[simp] theorem State.abort_cfg (s : State) : s.abort.cfg = s.cfg := rfl
@[simp] theorem State.abort_ind (s : State) : s.abort.ind = s.ind := rfl
@[simp] theorem State.abort_h (s : State) : s.abort.h = s.h := rfl
@[simp] theorem State.abort_chan (s : State) : s.abort.chan = s.chan := rfl
@[simp] theorem State.abort_prot (s : State) : s.abort.prot = s.prot := rfl
@[simp] theorem State.abort_levels (s : State) : s.abort.levels = s.levels := rfl
@[simp] theorem State.abort_wff (s : State) : s.abort.wff = s.wff := rfl
@[simp] theorem State.abort_panel (s : State) : s.abort.panel = s.panel := rfl
@[simp] theorem State.abort_mem (s : State) : s.abort.mem = s.mem := rfl
@[simp] theorem State.abort_badParity (s : State) : s.abort.badParity = s.badParity := rfl
@[simp] theorem State.abort_devices (s : State) : s.abort.devices = s.devices := rfl
@[simp] theorem State.abort_watchdog (s : State) : s.abort.watchdog = s.watchdog := rfl
@[simp] theorem State.abort_env (s : State) : s.abort.env = s.env := rfl

@[simp] theorem State.send_cfg (s : State) (x : Sent) : (s.send x).cfg = s.cfg := rfl
@[simp] theorem State.send_regs (s : State) (x : Sent) : (s.send x).regs = s.regs := rfl
@[simp] theorem State.send_ind (s : State) (x : Sent) : (s.send x).ind = s.ind := rfl
@[simp] theorem State.send_h (s : State) (x : Sent) : (s.send x).h = s.h := rfl
@[simp] theorem State.send_chan (s : State) (x : Sent) : (s.send x).chan = s.chan := rfl
@[simp] theorem State.send_prot (s : State) (x : Sent) : (s.send x).prot = s.prot := rfl
@[simp] theorem State.send_levels (s : State) (x : Sent) : (s.send x).levels = s.levels := rfl
@[simp] theorem State.send_wff (s : State) (x : Sent) : (s.send x).wff = s.wff := rfl
@[simp] theorem State.send_exitCond (s : State) (x : Sent) : (s.send x).exitCond = s.exitCond := rfl
@[simp] theorem State.send_panel (s : State) (x : Sent) : (s.send x).panel = s.panel := rfl
@[simp] theorem State.send_mem (s : State) (x : Sent) : (s.send x).mem = s.mem := rfl
@[simp] theorem State.send_badParity (s : State) (x : Sent) : (s.send x).badParity = s.badParity := rfl
@[simp] theorem State.send_devices (s : State) (x : Sent) : (s.send x).devices = s.devices := rfl
@[simp] theorem State.send_watchdog (s : State) (x : Sent) : (s.send x).watchdog = s.watchdog := rfl

@[simp] theorem State.setPair_cfg (s : State) (v : BitVec 32) : (s.setPair v).cfg = s.cfg := rfl
@[simp] theorem State.setPair_ind (s : State) (v : BitVec 32) : (s.setPair v).ind = s.ind := rfl
@[simp] theorem State.setPair_h (s : State) (v : BitVec 32) : (s.setPair v).h = s.h := rfl
@[simp] theorem State.setPair_chan (s : State) (v : BitVec 32) : (s.setPair v).chan = s.chan := rfl
@[simp] theorem State.setPair_prot (s : State) (v : BitVec 32) : (s.setPair v).prot = s.prot := rfl
@[simp] theorem State.setPair_levels (s : State) (v : BitVec 32) : (s.setPair v).levels = s.levels := rfl
@[simp] theorem State.setPair_wff (s : State) (v : BitVec 32) : (s.setPair v).wff = s.wff := rfl
@[simp] theorem State.setPair_exitCond (s : State) (v : BitVec 32) : (s.setPair v).exitCond = s.exitCond := rfl
@[simp] theorem State.setPair_panel (s : State) (v : BitVec 32) : (s.setPair v).panel = s.panel := rfl
@[simp] theorem State.setPair_mem (s : State) (v : BitVec 32) : (s.setPair v).mem = s.mem := rfl
@[simp] theorem State.setPair_badParity (s : State) (v : BitVec 32) : (s.setPair v).badParity = s.badParity := rfl
@[simp] theorem State.setPair_devices (s : State) (v : BitVec 32) : (s.setPair v).devices = s.devices := rfl
@[simp] theorem State.setPair_watchdog (s : State) (v : BitVec 32) : (s.setPair v).watchdog = s.watchdog := rfl
@[simp] theorem State.setPair_env (s : State) (v : BitVec 32) : (s.setPair v).env = s.env := rfl

@[simp] theorem shift_cfg (w : Word) (s : State) : (shift w s).cfg = s.cfg := by unfold shift; split <;> simp
@[simp] theorem shift_h (w : Word) (s : State) : (shift w s).h = s.h := by unfold shift; split <;> simp
@[simp] theorem shift_chan (w : Word) (s : State) : (shift w s).chan = s.chan := by unfold shift; split <;> simp
@[simp] theorem shift_prot (w : Word) (s : State) : (shift w s).prot = s.prot := by unfold shift; split <;> simp
@[simp] theorem shift_levels (w : Word) (s : State) : (shift w s).levels = s.levels := by unfold shift; split <;> simp
@[simp] theorem shift_wff (w : Word) (s : State) : (shift w s).wff = s.wff := by unfold shift; split <;> simp
@[simp] theorem shift_exitCond (w : Word) (s : State) : (shift w s).exitCond = s.exitCond := by unfold shift; split <;> simp
@[simp] theorem shift_panel (w : Word) (s : State) : (shift w s).panel = s.panel := by unfold shift; split <;> simp
@[simp] theorem shift_mem (w : Word) (s : State) : (shift w s).mem = s.mem := by unfold shift; split <;> simp
@[simp] theorem shift_badParity (w : Word) (s : State) : (shift w s).badParity = s.badParity := by unfold shift; split <;> simp
@[simp] theorem shift_devices (w : Word) (s : State) : (shift w s).devices = s.devices := by unfold shift; split <;> simp
@[simp] theorem shift_watchdog (w : Word) (s : State) : (shift w s).watchdog = s.watchdog := by unfold shift; split <;> simp
@[simp] theorem shift_env (w : Word) (s : State) : (shift w s).env = s.env := by unfold shift; split <;> simp

@[simp] theorem copyOp_cfg (op : CopyOp) (ac ai cd : Bool) (c : CopyArgs) (s : State) : (copyOp op ac ai cd c s).cfg = s.cfg := by cases op <;> simp [copyOp]
@[simp] theorem copyOp_h (op : CopyOp) (ac ai cd : Bool) (c : CopyArgs) (s : State) : (copyOp op ac ai cd c s).h = s.h := by cases op <;> simp [copyOp]
@[simp] theorem copyOp_chan (op : CopyOp) (ac ai cd : Bool) (c : CopyArgs) (s : State) : (copyOp op ac ai cd c s).chan = s.chan := by cases op <;> simp [copyOp]
@[simp] theorem copyOp_prot (op : CopyOp) (ac ai cd : Bool) (c : CopyArgs) (s : State) : (copyOp op ac ai cd c s).prot = s.prot := by cases op <;> simp [copyOp]
@[simp] theorem copyOp_levels (op : CopyOp) (ac ai cd : Bool) (c : CopyArgs) (s : State) : (copyOp op ac ai cd c s).levels = s.levels := by cases op <;> simp [copyOp]
@[simp] theorem copyOp_wff (op : CopyOp) (ac ai cd : Bool) (c : CopyArgs) (s : State) : (copyOp op ac ai cd c s).wff = s.wff := by cases op <;> simp [copyOp]
@[simp] theorem copyOp_exitCond (op : CopyOp) (ac ai cd : Bool) (c : CopyArgs) (s : State) : (copyOp op ac ai cd c s).exitCond = s.exitCond := by cases op <;> simp [copyOp]
@[simp] theorem copyOp_panel (op : CopyOp) (ac ai cd : Bool) (c : CopyArgs) (s : State) : (copyOp op ac ai cd c s).panel = s.panel := by cases op <;> simp [copyOp]
@[simp] theorem copyOp_mem (op : CopyOp) (ac ai cd : Bool) (c : CopyArgs) (s : State) : (copyOp op ac ai cd c s).mem = s.mem := by cases op <;> simp [copyOp]
@[simp] theorem copyOp_badParity (op : CopyOp) (ac ai cd : Bool) (c : CopyArgs) (s : State) : (copyOp op ac ai cd c s).badParity = s.badParity := by cases op <;> simp [copyOp]
@[simp] theorem copyOp_devices (op : CopyOp) (ac ai cd : Bool) (c : CopyArgs) (s : State) : (copyOp op ac ai cd c s).devices = s.devices := by cases op <;> simp [copyOp]
@[simp] theorem copyOp_watchdog (op : CopyOp) (ac ai cd : Bool) (c : CopyArgs) (s : State) : (copyOp op ac ai cd c s).watchdog = s.watchdog := by cases op <;> simp [copyOp]
@[simp] theorem copyOp_env (op : CopyOp) (ac ai cd : Bool) (c : CopyArgs) (s : State) : (copyOp op ac ai cd c s).env = s.env := by cases op <;> simp [copyOp]

@[simp] theorem State.setChannel_cfg (s : State) (n : Nat) (v : Word) : (s.setChannel n v).cfg = s.cfg := by unfold State.setChannel; split <;> rfl
@[simp] theorem State.setChannel_regs (s : State) (n : Nat) (v : Word) : (s.setChannel n v).regs = s.regs := by unfold State.setChannel; split <;> rfl
@[simp] theorem State.setChannel_ind (s : State) (n : Nat) (v : Word) : (s.setChannel n v).ind = s.ind := by unfold State.setChannel; split <;> rfl
@[simp] theorem State.setChannel_h (s : State) (n : Nat) (v : Word) : (s.setChannel n v).h = s.h := by unfold State.setChannel; split <;> rfl
@[simp] theorem State.setChannel_prot (s : State) (n : Nat) (v : Word) : (s.setChannel n v).prot = s.prot := by unfold State.setChannel; split <;> rfl
@[simp] theorem State.setChannel_levels (s : State) (n : Nat) (v : Word) : (s.setChannel n v).levels = s.levels := by unfold State.setChannel; split <;> rfl
@[simp] theorem State.setChannel_wff (s : State) (n : Nat) (v : Word) : (s.setChannel n v).wff = s.wff := by unfold State.setChannel; split <;> rfl
@[simp] theorem State.setChannel_exitCond (s : State) (n : Nat) (v : Word) : (s.setChannel n v).exitCond = s.exitCond := by unfold State.setChannel; split <;> rfl
@[simp] theorem State.setChannel_panel (s : State) (n : Nat) (v : Word) : (s.setChannel n v).panel = s.panel := by unfold State.setChannel; split <;> rfl
@[simp] theorem State.setChannel_mem (s : State) (n : Nat) (v : Word) : (s.setChannel n v).mem = s.mem := by unfold State.setChannel; split <;> rfl
@[simp] theorem State.setChannel_badParity (s : State) (n : Nat) (v : Word) : (s.setChannel n v).badParity = s.badParity := by unfold State.setChannel; split <;> rfl
@[simp] theorem State.setChannel_devices (s : State) (n : Nat) (v : Word) : (s.setChannel n v).devices = s.devices := by unfold State.setChannel; split <;> rfl
@[simp] theorem State.setChannel_watchdog (s : State) (n : Nat) (v : Word) : (s.setChannel n v).watchdog = s.watchdog := by unfold State.setChannel; split <;> rfl
@[simp] theorem State.setChannel_env (s : State) (n : Nat) (v : Word) : (s.setChannel n v).env = s.env := by unfold State.setChannel; split <;> rfl

@[simp] theorem State.setBlock_cfg (s : State) (n : Nat) (v : Word) : (s.setBlock n v).cfg = s.cfg := by unfold State.setBlock; split <;> simp
@[simp] theorem State.setBlock_ind (s : State) (n : Nat) (v : Word) : (s.setBlock n v).ind = s.ind := by unfold State.setBlock; split <;> simp
@[simp] theorem State.setBlock_h (s : State) (n : Nat) (v : Word) : (s.setBlock n v).h = s.h := by unfold State.setBlock; split <;> simp
@[simp] theorem State.setBlock_prot (s : State) (n : Nat) (v : Word) : (s.setBlock n v).prot = s.prot := by unfold State.setBlock; split <;> simp
@[simp] theorem State.setBlock_levels (s : State) (n : Nat) (v : Word) : (s.setBlock n v).levels = s.levels := by unfold State.setBlock; split <;> simp
@[simp] theorem State.setBlock_wff (s : State) (n : Nat) (v : Word) : (s.setBlock n v).wff = s.wff := by unfold State.setBlock; split <;> simp
@[simp] theorem State.setBlock_exitCond (s : State) (n : Nat) (v : Word) : (s.setBlock n v).exitCond = s.exitCond := by unfold State.setBlock; split <;> simp
@[simp] theorem State.setBlock_panel (s : State) (n : Nat) (v : Word) : (s.setBlock n v).panel = s.panel := by unfold State.setBlock; split <;> simp
@[simp] theorem State.setBlock_mem (s : State) (n : Nat) (v : Word) : (s.setBlock n v).mem = s.mem := by unfold State.setBlock; split <;> simp
@[simp] theorem State.setBlock_badParity (s : State) (n : Nat) (v : Word) : (s.setBlock n v).badParity = s.badParity := by unfold State.setBlock; split <;> simp
@[simp] theorem State.setBlock_devices (s : State) (n : Nat) (v : Word) : (s.setBlock n v).devices = s.devices := by unfold State.setBlock; split <;> simp
@[simp] theorem State.setBlock_watchdog (s : State) (n : Nat) (v : Word) : (s.setBlock n v).watchdog = s.watchdog := by unfold State.setBlock; split <;> simp
@[simp] theorem State.setBlock_env (s : State) (n : Nat) (v : Word) : (s.setBlock n v).env = s.env := by unfold State.setBlock; split <;> simp

@[simp] theorem State.setInhibits_cfg (s : State) (x i e : Bool) : (s.setInhibits x i e).cfg = s.cfg := rfl
@[simp] theorem State.setInhibits_regs (s : State) (x i e : Bool) : (s.setInhibits x i e).regs = s.regs := rfl
@[simp] theorem State.setInhibits_h (s : State) (x i e : Bool) : (s.setInhibits x i e).h = s.h := rfl
@[simp] theorem State.setInhibits_chan (s : State) (x i e : Bool) : (s.setInhibits x i e).chan = s.chan := rfl
@[simp] theorem State.setInhibits_prot (s : State) (x i e : Bool) : (s.setInhibits x i e).prot = s.prot := rfl
@[simp] theorem State.setInhibits_levels (s : State) (x i e : Bool) : (s.setInhibits x i e).levels = s.levels := rfl
@[simp] theorem State.setInhibits_wff (s : State) (x i e : Bool) : (s.setInhibits x i e).wff = s.wff := rfl
@[simp] theorem State.setInhibits_exitCond (s : State) (x i e : Bool) : (s.setInhibits x i e).exitCond = s.exitCond := rfl
@[simp] theorem State.setInhibits_panel (s : State) (x i e : Bool) : (s.setInhibits x i e).panel = s.panel := rfl
@[simp] theorem State.setInhibits_mem (s : State) (x i e : Bool) : (s.setInhibits x i e).mem = s.mem := rfl
@[simp] theorem State.setInhibits_badParity (s : State) (x i e : Bool) : (s.setInhibits x i e).badParity = s.badParity := rfl
@[simp] theorem State.setInhibits_devices (s : State) (x i e : Bool) : (s.setInhibits x i e).devices = s.devices := rfl
@[simp] theorem State.setInhibits_watchdog (s : State) (x i e : Bool) : (s.setInhibits x i e).watchdog = s.watchdog := rfl
@[simp] theorem State.setInhibits_env (s : State) (x i e : Bool) : (s.setInhibits x i e).env = s.env := rfl

@[simp] theorem State.setProtection_cfg (s : State) (n : Nat) (v : Word) : (s.setProtection n v).cfg = s.cfg := by unfold State.setProtection; split <;> rfl
@[simp] theorem State.setProtection_regs (s : State) (n : Nat) (v : Word) : (s.setProtection n v).regs = s.regs := by unfold State.setProtection; split <;> rfl
@[simp] theorem State.setProtection_ind (s : State) (n : Nat) (v : Word) : (s.setProtection n v).ind = s.ind := by unfold State.setProtection; split <;> rfl
@[simp] theorem State.setProtection_h (s : State) (n : Nat) (v : Word) : (s.setProtection n v).h = s.h := by unfold State.setProtection; split <;> rfl
@[simp] theorem State.setProtection_chan (s : State) (n : Nat) (v : Word) : (s.setProtection n v).chan = s.chan := by unfold State.setProtection; split <;> rfl
@[simp] theorem State.setProtection_levels (s : State) (n : Nat) (v : Word) : (s.setProtection n v).levels = s.levels := by unfold State.setProtection; split <;> rfl
@[simp] theorem State.setProtection_wff (s : State) (n : Nat) (v : Word) : (s.setProtection n v).wff = s.wff := by unfold State.setProtection; split <;> rfl
@[simp] theorem State.setProtection_exitCond (s : State) (n : Nat) (v : Word) : (s.setProtection n v).exitCond = s.exitCond := by unfold State.setProtection; split <;> rfl
@[simp] theorem State.setProtection_panel (s : State) (n : Nat) (v : Word) : (s.setProtection n v).panel = s.panel := by unfold State.setProtection; split <;> rfl
@[simp] theorem State.setProtection_mem (s : State) (n : Nat) (v : Word) : (s.setProtection n v).mem = s.mem := by unfold State.setProtection; split <;> rfl
@[simp] theorem State.setProtection_badParity (s : State) (n : Nat) (v : Word) : (s.setProtection n v).badParity = s.badParity := by unfold State.setProtection; split <;> rfl
@[simp] theorem State.setProtection_devices (s : State) (n : Nat) (v : Word) : (s.setProtection n v).devices = s.devices := by unfold State.setProtection; split <;> rfl
@[simp] theorem State.setProtection_watchdog (s : State) (n : Nat) (v : Word) : (s.setProtection n v).watchdog = s.watchdog := by unfold State.setProtection; split <;> rfl
@[simp] theorem State.setProtection_env (s : State) (n : Nat) (v : Word) : (s.setProtection n v).env = s.env := by unfold State.setProtection; split <;> rfl

@[simp] theorem State.freeAOC_cfg (s : State) : s.freeAOC.cfg = s.cfg := rfl
@[simp] theorem State.freeAOC_h (s : State) : s.freeAOC.h = s.h := rfl
@[simp] theorem State.freeAOC_chan (s : State) : s.freeAOC.chan = s.chan := rfl
@[simp] theorem State.freeAOC_prot (s : State) : s.freeAOC.prot = s.prot := rfl
@[simp] theorem State.freeAOC_levels (s : State) : s.freeAOC.levels = s.levels := rfl
@[simp] theorem State.freeAOC_wff (s : State) : s.freeAOC.wff = s.wff := rfl
@[simp] theorem State.freeAOC_exitCond (s : State) : s.freeAOC.exitCond = s.exitCond := rfl
@[simp] theorem State.freeAOC_panel (s : State) : s.freeAOC.panel = s.panel := rfl
@[simp] theorem State.freeAOC_mem (s : State) : s.freeAOC.mem = s.mem := rfl
@[simp] theorem State.freeAOC_badParity (s : State) : s.freeAOC.badParity = s.badParity := rfl
@[simp] theorem State.freeAOC_devices (s : State) : s.freeAOC.devices = s.devices := rfl
@[simp] theorem State.freeAOC_watchdog (s : State) : s.freeAOC.watchdog = s.watchdog := rfl

@[simp] theorem State.freeOC_cfg (s : State) : s.freeOC.cfg = s.cfg := rfl
@[simp] theorem State.freeOC_regs (s : State) : s.freeOC.regs = s.regs := rfl
@[simp] theorem State.freeOC_h (s : State) : s.freeOC.h = s.h := rfl
@[simp] theorem State.freeOC_chan (s : State) : s.freeOC.chan = s.chan := rfl
@[simp] theorem State.freeOC_prot (s : State) : s.freeOC.prot = s.prot := rfl
@[simp] theorem State.freeOC_levels (s : State) : s.freeOC.levels = s.levels := rfl
@[simp] theorem State.freeOC_wff (s : State) : s.freeOC.wff = s.wff := rfl
@[simp] theorem State.freeOC_exitCond (s : State) : s.freeOC.exitCond = s.exitCond := rfl
@[simp] theorem State.freeOC_panel (s : State) : s.freeOC.panel = s.panel := rfl
@[simp] theorem State.freeOC_mem (s : State) : s.freeOC.mem = s.mem := rfl
@[simp] theorem State.freeOC_badParity (s : State) : s.freeOC.badParity = s.badParity := rfl
@[simp] theorem State.freeOC_devices (s : State) : s.freeOC.devices = s.devices := rfl
@[simp] theorem State.freeOC_watchdog (s : State) : s.freeOC.watchdog = s.watchdog := rfl

@[simp] theorem State.dropAnswer_cfg (s : State) : s.dropAnswer.cfg = s.cfg := rfl
@[simp] theorem State.dropAnswer_regs (s : State) : s.dropAnswer.regs = s.regs := rfl
@[simp] theorem State.dropAnswer_ind (s : State) : s.dropAnswer.ind = s.ind := rfl
@[simp] theorem State.dropAnswer_h (s : State) : s.dropAnswer.h = s.h := rfl
@[simp] theorem State.dropAnswer_chan (s : State) : s.dropAnswer.chan = s.chan := rfl
@[simp] theorem State.dropAnswer_prot (s : State) : s.dropAnswer.prot = s.prot := rfl
@[simp] theorem State.dropAnswer_levels (s : State) : s.dropAnswer.levels = s.levels := rfl
@[simp] theorem State.dropAnswer_wff (s : State) : s.dropAnswer.wff = s.wff := rfl
@[simp] theorem State.dropAnswer_exitCond (s : State) : s.dropAnswer.exitCond = s.exitCond := rfl
@[simp] theorem State.dropAnswer_panel (s : State) : s.dropAnswer.panel = s.panel := rfl
@[simp] theorem State.dropAnswer_mem (s : State) : s.dropAnswer.mem = s.mem := rfl
@[simp] theorem State.dropAnswer_badParity (s : State) : s.dropAnswer.badParity = s.badParity := rfl
@[simp] theorem State.dropAnswer_devices (s : State) : s.dropAnswer.devices = s.devices := rfl
@[simp] theorem State.dropAnswer_watchdog (s : State) : s.dropAnswer.watchdog = s.watchdog := rfl

@[simp] theorem State.watchdogDo_cfg (s : State) (op : WatchdogOp) : (s.watchdogDo op).cfg = s.cfg := by cases op <;> rfl
@[simp] theorem State.watchdogDo_regs (s : State) (op : WatchdogOp) : (s.watchdogDo op).regs = s.regs := by cases op <;> rfl
@[simp] theorem State.watchdogDo_ind (s : State) (op : WatchdogOp) : (s.watchdogDo op).ind = s.ind := by cases op <;> rfl
@[simp] theorem State.watchdogDo_h (s : State) (op : WatchdogOp) : (s.watchdogDo op).h = s.h := by cases op <;> rfl
@[simp] theorem State.watchdogDo_chan (s : State) (op : WatchdogOp) : (s.watchdogDo op).chan = s.chan := by cases op <;> rfl
@[simp] theorem State.watchdogDo_prot (s : State) (op : WatchdogOp) : (s.watchdogDo op).prot = s.prot := by cases op <;> rfl
@[simp] theorem State.watchdogDo_levels (s : State) (op : WatchdogOp) : (s.watchdogDo op).levels = s.levels := by cases op <;> rfl
@[simp] theorem State.watchdogDo_wff (s : State) (op : WatchdogOp) : (s.watchdogDo op).wff = s.wff := by cases op <;> rfl
@[simp] theorem State.watchdogDo_exitCond (s : State) (op : WatchdogOp) : (s.watchdogDo op).exitCond = s.exitCond := by cases op <;> rfl
@[simp] theorem State.watchdogDo_panel (s : State) (op : WatchdogOp) : (s.watchdogDo op).panel = s.panel := by cases op <;> rfl
@[simp] theorem State.watchdogDo_mem (s : State) (op : WatchdogOp) : (s.watchdogDo op).mem = s.mem := by cases op <;> rfl
@[simp] theorem State.watchdogDo_badParity (s : State) (op : WatchdogOp) : (s.watchdogDo op).badParity = s.badParity := by cases op <;> rfl
@[simp] theorem State.watchdogDo_devices (s : State) (op : WatchdogOp) : (s.watchdogDo op).devices = s.devices := by cases op <;> rfl
@[simp] theorem State.watchdogDo_env (s : State) (op : WatchdogOp) : (s.watchdogDo op).env = s.env := by cases op <;> rfl

@[simp] theorem State.updateDevice_cfg (s : State) (d : Byte) (f : Device → Device) : (s.updateDevice d f).cfg = s.cfg := rfl
@[simp] theorem State.updateDevice_regs (s : State) (d : Byte) (f : Device → Device) : (s.updateDevice d f).regs = s.regs := rfl
@[simp] theorem State.updateDevice_ind (s : State) (d : Byte) (f : Device → Device) : (s.updateDevice d f).ind = s.ind := rfl
@[simp] theorem State.updateDevice_h (s : State) (d : Byte) (f : Device → Device) : (s.updateDevice d f).h = s.h := rfl
@[simp] theorem State.updateDevice_chan (s : State) (d : Byte) (f : Device → Device) : (s.updateDevice d f).chan = s.chan := rfl
@[simp] theorem State.updateDevice_prot (s : State) (d : Byte) (f : Device → Device) : (s.updateDevice d f).prot = s.prot := rfl
@[simp] theorem State.updateDevice_levels (s : State) (d : Byte) (f : Device → Device) : (s.updateDevice d f).levels = s.levels := rfl
@[simp] theorem State.updateDevice_wff (s : State) (d : Byte) (f : Device → Device) : (s.updateDevice d f).wff = s.wff := rfl
@[simp] theorem State.updateDevice_exitCond (s : State) (d : Byte) (f : Device → Device) : (s.updateDevice d f).exitCond = s.exitCond := rfl
@[simp] theorem State.updateDevice_panel (s : State) (d : Byte) (f : Device → Device) : (s.updateDevice d f).panel = s.panel := rfl
@[simp] theorem State.updateDevice_mem (s : State) (d : Byte) (f : Device → Device) : (s.updateDevice d f).mem = s.mem := rfl
@[simp] theorem State.updateDevice_badParity (s : State) (d : Byte) (f : Device → Device) : (s.updateDevice d f).badParity = s.badParity := rfl
@[simp] theorem State.updateDevice_watchdog (s : State) (d : Byte) (f : Device → Device) : (s.updateDevice d f).watchdog = s.watchdog := rfl
@[simp] theorem State.updateDevice_env (s : State) (d : Byte) (f : Device → Device) : (s.updateDevice d f).env = s.env := rfl

@[simp] theorem State.setController_cfg (s : State) (d : Byte) (c : Condition) : (s.setController d c).cfg = s.cfg := rfl
@[simp] theorem State.setController_regs (s : State) (d : Byte) (c : Condition) : (s.setController d c).regs = s.regs := rfl
@[simp] theorem State.setController_ind (s : State) (d : Byte) (c : Condition) : (s.setController d c).ind = s.ind := rfl
@[simp] theorem State.setController_h (s : State) (d : Byte) (c : Condition) : (s.setController d c).h = s.h := rfl
@[simp] theorem State.setController_chan (s : State) (d : Byte) (c : Condition) : (s.setController d c).chan = s.chan := rfl
@[simp] theorem State.setController_prot (s : State) (d : Byte) (c : Condition) : (s.setController d c).prot = s.prot := rfl
@[simp] theorem State.setController_levels (s : State) (d : Byte) (c : Condition) : (s.setController d c).levels = s.levels := rfl
@[simp] theorem State.setController_wff (s : State) (d : Byte) (c : Condition) : (s.setController d c).wff = s.wff := rfl
@[simp] theorem State.setController_exitCond (s : State) (d : Byte) (c : Condition) : (s.setController d c).exitCond = s.exitCond := rfl
@[simp] theorem State.setController_panel (s : State) (d : Byte) (c : Condition) : (s.setController d c).panel = s.panel := rfl
@[simp] theorem State.setController_mem (s : State) (d : Byte) (c : Condition) : (s.setController d c).mem = s.mem := rfl
@[simp] theorem State.setController_badParity (s : State) (d : Byte) (c : Condition) : (s.setController d c).badParity = s.badParity := rfl
@[simp] theorem State.setController_watchdog (s : State) (d : Byte) (c : Condition) : (s.setController d c).watchdog = s.watchdog := rfl
@[simp] theorem State.setController_env (s : State) (d : Byte) (c : Condition) : (s.setController d c).env = s.env := rfl

@[simp] theorem State.startDevice_cfg (s : State) (d : Byte) (o : OrderSource) : (s.startDevice d o).cfg = s.cfg := rfl
@[simp] theorem State.startDevice_regs (s : State) (d : Byte) (o : OrderSource) : (s.startDevice d o).regs = s.regs := rfl
@[simp] theorem State.startDevice_ind (s : State) (d : Byte) (o : OrderSource) : (s.startDevice d o).ind = s.ind := rfl
@[simp] theorem State.startDevice_h (s : State) (d : Byte) (o : OrderSource) : (s.startDevice d o).h = s.h := rfl
@[simp] theorem State.startDevice_chan (s : State) (d : Byte) (o : OrderSource) : (s.startDevice d o).chan = s.chan := rfl
@[simp] theorem State.startDevice_prot (s : State) (d : Byte) (o : OrderSource) : (s.startDevice d o).prot = s.prot := rfl
@[simp] theorem State.startDevice_levels (s : State) (d : Byte) (o : OrderSource) : (s.startDevice d o).levels = s.levels := rfl
@[simp] theorem State.startDevice_wff (s : State) (d : Byte) (o : OrderSource) : (s.startDevice d o).wff = s.wff := rfl
@[simp] theorem State.startDevice_exitCond (s : State) (d : Byte) (o : OrderSource) : (s.startDevice d o).exitCond = s.exitCond := rfl
@[simp] theorem State.startDevice_panel (s : State) (d : Byte) (o : OrderSource) : (s.startDevice d o).panel = s.panel := rfl
@[simp] theorem State.startDevice_mem (s : State) (d : Byte) (o : OrderSource) : (s.startDevice d o).mem = s.mem := rfl
@[simp] theorem State.startDevice_badParity (s : State) (d : Byte) (o : OrderSource) : (s.startDevice d o).badParity = s.badParity := rfl
@[simp] theorem State.startDevice_watchdog (s : State) (d : Byte) (o : OrderSource) : (s.startDevice d o).watchdog = s.watchdog := rfl
@[simp] theorem State.startDevice_env (s : State) (d : Byte) (o : OrderSource) : (s.startDevice d o).env = s.env := rfl

@[simp] theorem State.endDevice_cfg (s : State) (d : Byte) : (s.endDevice d).cfg = s.cfg := rfl
@[simp] theorem State.endDevice_regs (s : State) (d : Byte) : (s.endDevice d).regs = s.regs := rfl
@[simp] theorem State.endDevice_ind (s : State) (d : Byte) : (s.endDevice d).ind = s.ind := rfl
@[simp] theorem State.endDevice_h (s : State) (d : Byte) : (s.endDevice d).h = s.h := rfl
@[simp] theorem State.endDevice_chan (s : State) (d : Byte) : (s.endDevice d).chan = s.chan := rfl
@[simp] theorem State.endDevice_prot (s : State) (d : Byte) : (s.endDevice d).prot = s.prot := rfl
@[simp] theorem State.endDevice_levels (s : State) (d : Byte) : (s.endDevice d).levels = s.levels := rfl
@[simp] theorem State.endDevice_wff (s : State) (d : Byte) : (s.endDevice d).wff = s.wff := rfl
@[simp] theorem State.endDevice_exitCond (s : State) (d : Byte) : (s.endDevice d).exitCond = s.exitCond := rfl
@[simp] theorem State.endDevice_panel (s : State) (d : Byte) : (s.endDevice d).panel = s.panel := rfl
@[simp] theorem State.endDevice_mem (s : State) (d : Byte) : (s.endDevice d).mem = s.mem := rfl
@[simp] theorem State.endDevice_badParity (s : State) (d : Byte) : (s.endDevice d).badParity = s.badParity := rfl
@[simp] theorem State.endDevice_watchdog (s : State) (d : Byte) : (s.endDevice d).watchdog = s.watchdog := rfl
@[simp] theorem State.endDevice_env (s : State) (d : Byte) : (s.endDevice d).env = s.env := rfl

@[simp] theorem State.raiseDevice_cfg (s : State) (d : Byte) : (s.raiseDevice d).cfg = s.cfg := rfl
@[simp] theorem State.raiseDevice_regs (s : State) (d : Byte) : (s.raiseDevice d).regs = s.regs := rfl
@[simp] theorem State.raiseDevice_ind (s : State) (d : Byte) : (s.raiseDevice d).ind = s.ind := rfl
@[simp] theorem State.raiseDevice_h (s : State) (d : Byte) : (s.raiseDevice d).h = s.h := rfl
@[simp] theorem State.raiseDevice_chan (s : State) (d : Byte) : (s.raiseDevice d).chan = s.chan := rfl
@[simp] theorem State.raiseDevice_prot (s : State) (d : Byte) : (s.raiseDevice d).prot = s.prot := rfl
@[simp] theorem State.raiseDevice_levels (s : State) (d : Byte) : (s.raiseDevice d).levels = s.levels := rfl
@[simp] theorem State.raiseDevice_wff (s : State) (d : Byte) : (s.raiseDevice d).wff = s.wff := rfl
@[simp] theorem State.raiseDevice_exitCond (s : State) (d : Byte) : (s.raiseDevice d).exitCond = s.exitCond := rfl
@[simp] theorem State.raiseDevice_panel (s : State) (d : Byte) : (s.raiseDevice d).panel = s.panel := rfl
@[simp] theorem State.raiseDevice_mem (s : State) (d : Byte) : (s.raiseDevice d).mem = s.mem := rfl
@[simp] theorem State.raiseDevice_badParity (s : State) (d : Byte) : (s.raiseDevice d).badParity = s.badParity := rfl
@[simp] theorem State.raiseDevice_watchdog (s : State) (d : Byte) : (s.raiseDevice d).watchdog = s.watchdog := rfl
@[simp] theorem State.raiseDevice_env (s : State) (d : Byte) : (s.raiseDevice d).env = s.env := rfl

@[simp] theorem State.respond_cfg (s : State) (st d : Byte) (c : Bool) : (s.respond st d c).cfg = s.cfg := rfl
@[simp] theorem State.respond_h (s : State) (st d : Byte) (c : Bool) : (s.respond st d c).h = s.h := rfl
@[simp] theorem State.respond_chan (s : State) (st d : Byte) (c : Bool) : (s.respond st d c).chan = s.chan := rfl
@[simp] theorem State.respond_prot (s : State) (st d : Byte) (c : Bool) : (s.respond st d c).prot = s.prot := rfl
@[simp] theorem State.respond_levels (s : State) (st d : Byte) (c : Bool) : (s.respond st d c).levels = s.levels := rfl
@[simp] theorem State.respond_wff (s : State) (st d : Byte) (c : Bool) : (s.respond st d c).wff = s.wff := rfl
@[simp] theorem State.respond_exitCond (s : State) (st d : Byte) (c : Bool) : (s.respond st d c).exitCond = s.exitCond := rfl
@[simp] theorem State.respond_panel (s : State) (st d : Byte) (c : Bool) : (s.respond st d c).panel = s.panel := rfl
@[simp] theorem State.respond_mem (s : State) (st d : Byte) (c : Bool) : (s.respond st d c).mem = s.mem := rfl
@[simp] theorem State.respond_badParity (s : State) (st d : Byte) (c : Bool) : (s.respond st d c).badParity = s.badParity := rfl
@[simp] theorem State.respond_devices (s : State) (st d : Byte) (c : Bool) : (s.respond st d c).devices = s.devices := rfl
@[simp] theorem State.respond_watchdog (s : State) (st d : Byte) (c : Bool) : (s.respond st d c).watchdog = s.watchdog := rfl
@[simp] theorem State.respond_env (s : State) (st d : Byte) (c : Bool) : (s.respond st d c).env = s.env := rfl

@[simp] theorem State.noResponse_cfg (s : State) : s.noResponse.cfg = s.cfg := rfl
@[simp] theorem State.noResponse_regs (s : State) : s.noResponse.regs = s.regs := rfl
@[simp] theorem State.noResponse_h (s : State) : s.noResponse.h = s.h := rfl
@[simp] theorem State.noResponse_chan (s : State) : s.noResponse.chan = s.chan := rfl
@[simp] theorem State.noResponse_prot (s : State) : s.noResponse.prot = s.prot := rfl
@[simp] theorem State.noResponse_levels (s : State) : s.noResponse.levels = s.levels := rfl
@[simp] theorem State.noResponse_wff (s : State) : s.noResponse.wff = s.wff := rfl
@[simp] theorem State.noResponse_exitCond (s : State) : s.noResponse.exitCond = s.exitCond := rfl
@[simp] theorem State.noResponse_panel (s : State) : s.noResponse.panel = s.panel := rfl
@[simp] theorem State.noResponse_mem (s : State) : s.noResponse.mem = s.mem := rfl
@[simp] theorem State.noResponse_badParity (s : State) : s.noResponse.badParity = s.badParity := rfl
@[simp] theorem State.noResponse_devices (s : State) : s.noResponse.devices = s.devices := rfl
@[simp] theorem State.noResponse_watchdog (s : State) : s.noResponse.watchdog = s.watchdog := rfl
@[simp] theorem State.noResponse_env (s : State) : s.noResponse.env = s.env := rfl

@[simp] theorem State.setError_cfg (s : State) (ch : Nat) (e : Bool) : (s.setError ch e).cfg = s.cfg := by unfold State.setError; split <;> simp
@[simp] theorem State.setError_regs (s : State) (ch : Nat) (e : Bool) : (s.setError ch e).regs = s.regs := by unfold State.setError; split <;> simp
@[simp] theorem State.setError_ind (s : State) (ch : Nat) (e : Bool) : (s.setError ch e).ind = s.ind := by unfold State.setError; split <;> simp
@[simp] theorem State.setError_h (s : State) (ch : Nat) (e : Bool) : (s.setError ch e).h = s.h := by unfold State.setError; split <;> simp
@[simp] theorem State.setError_prot (s : State) (ch : Nat) (e : Bool) : (s.setError ch e).prot = s.prot := by unfold State.setError; split <;> simp
@[simp] theorem State.setError_levels (s : State) (ch : Nat) (e : Bool) : (s.setError ch e).levels = s.levels := by unfold State.setError; split <;> simp
@[simp] theorem State.setError_wff (s : State) (ch : Nat) (e : Bool) : (s.setError ch e).wff = s.wff := by unfold State.setError; split <;> simp
@[simp] theorem State.setError_exitCond (s : State) (ch : Nat) (e : Bool) : (s.setError ch e).exitCond = s.exitCond := by unfold State.setError; split <;> simp
@[simp] theorem State.setError_panel (s : State) (ch : Nat) (e : Bool) : (s.setError ch e).panel = s.panel := by unfold State.setError; split <;> simp
@[simp] theorem State.setError_mem (s : State) (ch : Nat) (e : Bool) : (s.setError ch e).mem = s.mem := by unfold State.setError; split <;> simp
@[simp] theorem State.setError_badParity (s : State) (ch : Nat) (e : Bool) : (s.setError ch e).badParity = s.badParity := by unfold State.setError; split <;> simp
@[simp] theorem State.setError_devices (s : State) (ch : Nat) (e : Bool) : (s.setError ch e).devices = s.devices := by unfold State.setError; split <;> simp
@[simp] theorem State.setError_watchdog (s : State) (ch : Nat) (e : Bool) : (s.setError ch e).watchdog = s.watchdog := by unfold State.setError; split <;> simp
@[simp] theorem State.setError_env (s : State) (ch : Nat) (e : Bool) : (s.setError ch e).env = s.env := by unfold State.setError; split <;> simp

@[simp] theorem controlLevel_cfg (op : LevelOp) (b : Bool) (l : Level) (s : State) : (controlLevel op b l s).cfg = s.cfg := by cases op <;> cases b <;> simp [controlLevel]
@[simp] theorem controlLevel_regs (op : LevelOp) (b : Bool) (l : Level) (s : State) : (controlLevel op b l s).regs = s.regs := by cases op <;> cases b <;> simp [controlLevel]
@[simp] theorem controlLevel_ind (op : LevelOp) (b : Bool) (l : Level) (s : State) : (controlLevel op b l s).ind = s.ind := by cases op <;> cases b <;> simp [controlLevel]
@[simp] theorem controlLevel_h (op : LevelOp) (b : Bool) (l : Level) (s : State) : (controlLevel op b l s).h = s.h := by cases op <;> cases b <;> simp [controlLevel]
@[simp] theorem controlLevel_chan (op : LevelOp) (b : Bool) (l : Level) (s : State) : (controlLevel op b l s).chan = s.chan := by cases op <;> cases b <;> simp [controlLevel]
@[simp] theorem controlLevel_prot (op : LevelOp) (b : Bool) (l : Level) (s : State) : (controlLevel op b l s).prot = s.prot := by cases op <;> cases b <;> simp [controlLevel]
@[simp] theorem controlLevel_wff (op : LevelOp) (b : Bool) (l : Level) (s : State) : (controlLevel op b l s).wff = s.wff := by cases op <;> cases b <;> simp [controlLevel]
@[simp] theorem controlLevel_exitCond (op : LevelOp) (b : Bool) (l : Level) (s : State) : (controlLevel op b l s).exitCond = s.exitCond := by cases op <;> cases b <;> simp [controlLevel]
@[simp] theorem controlLevel_panel (op : LevelOp) (b : Bool) (l : Level) (s : State) : (controlLevel op b l s).panel = s.panel := by cases op <;> cases b <;> simp [controlLevel]
@[simp] theorem controlLevel_mem (op : LevelOp) (b : Bool) (l : Level) (s : State) : (controlLevel op b l s).mem = s.mem := by cases op <;> cases b <;> simp [controlLevel]
@[simp] theorem controlLevel_badParity (op : LevelOp) (b : Bool) (l : Level) (s : State) : (controlLevel op b l s).badParity = s.badParity := by cases op <;> cases b <;> simp [controlLevel]
@[simp] theorem controlLevel_devices (op : LevelOp) (b : Bool) (l : Level) (s : State) : (controlLevel op b l s).devices = s.devices := by cases op <;> cases b <;> simp [controlLevel]
@[simp] theorem controlLevel_watchdog (op : LevelOp) (b : Bool) (l : Level) (s : State) : (controlLevel op b l s).watchdog = s.watchdog := by cases op <;> cases b <;> simp [controlLevel]
@[simp] theorem controlLevel_env (op : LevelOp) (b : Bool) (l : Level) (s : State) : (controlLevel op b l s).env = s.env := by cases op <;> cases b <;> simp [controlLevel]

@[simp] theorem controlBit_cfg (op : LevelOp) (g : Nat) (a : Word) (i : Fin 16) (s : State) : (controlBit op g a i s).cfg = s.cfg := by unfold controlBit; split <;> simp
@[simp] theorem controlBit_regs (op : LevelOp) (g : Nat) (a : Word) (i : Fin 16) (s : State) : (controlBit op g a i s).regs = s.regs := by unfold controlBit; split <;> simp
@[simp] theorem controlBit_ind (op : LevelOp) (g : Nat) (a : Word) (i : Fin 16) (s : State) : (controlBit op g a i s).ind = s.ind := by unfold controlBit; split <;> simp
@[simp] theorem controlBit_h (op : LevelOp) (g : Nat) (a : Word) (i : Fin 16) (s : State) : (controlBit op g a i s).h = s.h := by unfold controlBit; split <;> simp
@[simp] theorem controlBit_chan (op : LevelOp) (g : Nat) (a : Word) (i : Fin 16) (s : State) : (controlBit op g a i s).chan = s.chan := by unfold controlBit; split <;> simp
@[simp] theorem controlBit_prot (op : LevelOp) (g : Nat) (a : Word) (i : Fin 16) (s : State) : (controlBit op g a i s).prot = s.prot := by unfold controlBit; split <;> simp
@[simp] theorem controlBit_wff (op : LevelOp) (g : Nat) (a : Word) (i : Fin 16) (s : State) : (controlBit op g a i s).wff = s.wff := by unfold controlBit; split <;> simp
@[simp] theorem controlBit_exitCond (op : LevelOp) (g : Nat) (a : Word) (i : Fin 16) (s : State) : (controlBit op g a i s).exitCond = s.exitCond := by unfold controlBit; split <;> simp
@[simp] theorem controlBit_panel (op : LevelOp) (g : Nat) (a : Word) (i : Fin 16) (s : State) : (controlBit op g a i s).panel = s.panel := by unfold controlBit; split <;> simp
@[simp] theorem controlBit_mem (op : LevelOp) (g : Nat) (a : Word) (i : Fin 16) (s : State) : (controlBit op g a i s).mem = s.mem := by unfold controlBit; split <;> simp
@[simp] theorem controlBit_badParity (op : LevelOp) (g : Nat) (a : Word) (i : Fin 16) (s : State) : (controlBit op g a i s).badParity = s.badParity := by unfold controlBit; split <;> simp
@[simp] theorem controlBit_devices (op : LevelOp) (g : Nat) (a : Word) (i : Fin 16) (s : State) : (controlBit op g a i s).devices = s.devices := by unfold controlBit; split <;> simp
@[simp] theorem controlBit_watchdog (op : LevelOp) (g : Nat) (a : Word) (i : Fin 16) (s : State) : (controlBit op g a i s).watchdog = s.watchdog := by unfold controlBit; split <;> simp
@[simp] theorem controlBit_env (op : LevelOp) (g : Nat) (a : Word) (i : Fin 16) (s : State) : (controlBit op g a i s).env = s.env := by unfold controlBit; split <;> simp

@[simp] theorem controlGroup_cfg (op : LevelOp) (g : Nat) (a : Word) (s : State) : (controlGroup op g a s).cfg = s.cfg := foldl_keeps State.cfg _ (fun s i => by simp) _ s
@[simp] theorem controlGroup_regs (op : LevelOp) (g : Nat) (a : Word) (s : State) : (controlGroup op g a s).regs = s.regs := foldl_keeps State.regs _ (fun s i => by simp) _ s
@[simp] theorem controlGroup_ind (op : LevelOp) (g : Nat) (a : Word) (s : State) : (controlGroup op g a s).ind = s.ind := foldl_keeps State.ind _ (fun s i => by simp) _ s
@[simp] theorem controlGroup_h (op : LevelOp) (g : Nat) (a : Word) (s : State) : (controlGroup op g a s).h = s.h := foldl_keeps State.h _ (fun s i => by simp) _ s
@[simp] theorem controlGroup_chan (op : LevelOp) (g : Nat) (a : Word) (s : State) : (controlGroup op g a s).chan = s.chan := foldl_keeps State.chan _ (fun s i => by simp) _ s
@[simp] theorem controlGroup_prot (op : LevelOp) (g : Nat) (a : Word) (s : State) : (controlGroup op g a s).prot = s.prot := foldl_keeps State.prot _ (fun s i => by simp) _ s
@[simp] theorem controlGroup_wff (op : LevelOp) (g : Nat) (a : Word) (s : State) : (controlGroup op g a s).wff = s.wff := foldl_keeps State.wff _ (fun s i => by simp) _ s
@[simp] theorem controlGroup_exitCond (op : LevelOp) (g : Nat) (a : Word) (s : State) : (controlGroup op g a s).exitCond = s.exitCond := foldl_keeps State.exitCond _ (fun s i => by simp) _ s
@[simp] theorem controlGroup_panel (op : LevelOp) (g : Nat) (a : Word) (s : State) : (controlGroup op g a s).panel = s.panel := foldl_keeps State.panel _ (fun s i => by simp) _ s
@[simp] theorem controlGroup_mem (op : LevelOp) (g : Nat) (a : Word) (s : State) : (controlGroup op g a s).mem = s.mem := foldl_keeps State.mem _ (fun s i => by simp) _ s
@[simp] theorem controlGroup_badParity (op : LevelOp) (g : Nat) (a : Word) (s : State) : (controlGroup op g a s).badParity = s.badParity := foldl_keeps State.badParity _ (fun s i => by simp) _ s
@[simp] theorem controlGroup_devices (op : LevelOp) (g : Nat) (a : Word) (s : State) : (controlGroup op g a s).devices = s.devices := foldl_keeps State.devices _ (fun s i => by simp) _ s
@[simp] theorem controlGroup_watchdog (op : LevelOp) (g : Nat) (a : Word) (s : State) : (controlGroup op g a s).watchdog = s.watchdog := foldl_keeps State.watchdog _ (fun s i => by simp) _ s
@[simp] theorem controlGroup_env (op : LevelOp) (g : Nat) (a : Word) (s : State) : (controlGroup op g a s).env = s.env := foldl_keeps State.env _ (fun s i => by simp) _ s

@[simp] theorem takeTrap_cfg (t : Trap) (s : State) : (takeTrap t s).cfg = s.cfg := by cases t <;> simp [takeTrap]
@[simp] theorem takeTrap_ind (t : Trap) (s : State) : (takeTrap t s).ind = s.ind := by cases t <;> simp [takeTrap]
@[simp] theorem takeTrap_h (t : Trap) (s : State) : (takeTrap t s).h = s.h := by cases t <;> simp [takeTrap]
@[simp] theorem takeTrap_chan (t : Trap) (s : State) : (takeTrap t s).chan = s.chan := by cases t <;> simp [takeTrap]
@[simp] theorem takeTrap_prot (t : Trap) (s : State) : (takeTrap t s).prot = s.prot := by cases t <;> simp [takeTrap]
@[simp] theorem takeTrap_mem (t : Trap) (s : State) : (takeTrap t s).mem = s.mem := by cases t <;> simp [takeTrap]
@[simp] theorem takeTrap_badParity (t : Trap) (s : State) : (takeTrap t s).badParity = s.badParity := by cases t <;> simp [takeTrap]
@[simp] theorem takeTrap_devices (t : Trap) (s : State) : (takeTrap t s).devices = s.devices := by cases t <;> simp [takeTrap]
@[simp] theorem takeTrap_watchdog (t : Trap) (s : State) : (takeTrap t s).watchdog = s.watchdog := by cases t <;> simp [takeTrap]
@[simp] theorem takeTrap_env (t : Trap) (s : State) : (takeTrap t s).env = s.env := by cases t <;> simp [takeTrap]

@[simp] theorem enterLevel_cfg (l : Level) (s : State) : (enterLevel l s).cfg = s.cfg := by simp [enterLevel]
@[simp] theorem enterLevel_h (l : Level) (s : State) : (enterLevel l s).h = s.h := by simp [enterLevel]
@[simp] theorem enterLevel_chan (l : Level) (s : State) : (enterLevel l s).chan = s.chan := by simp [enterLevel]
@[simp] theorem enterLevel_prot (l : Level) (s : State) : (enterLevel l s).prot = s.prot := by simp [enterLevel]
@[simp] theorem enterLevel_exitCond (l : Level) (s : State) : (enterLevel l s).exitCond = s.exitCond := by simp [enterLevel]
@[simp] theorem enterLevel_panel (l : Level) (s : State) : (enterLevel l s).panel = s.panel := by simp [enterLevel]
@[simp] theorem enterLevel_devices (l : Level) (s : State) : (enterLevel l s).devices = s.devices := by simp [enterLevel]
@[simp] theorem enterLevel_watchdog (l : Level) (s : State) : (enterLevel l s).watchdog = s.watchdog := by simp [enterLevel]
@[simp] theorem enterLevel_env (l : Level) (s : State) : (enterLevel l s).env = s.env := by simp [enterLevel]

@[simp] theorem exitLevel_cfg (a b : Word) (s : State) : (exitLevel a b s).cfg = s.cfg := by unfold exitLevel; split <;> simp
@[simp] theorem exitLevel_h (a b : Word) (s : State) : (exitLevel a b s).h = s.h := by unfold exitLevel; split <;> simp
@[simp] theorem exitLevel_chan (a b : Word) (s : State) : (exitLevel a b s).chan = s.chan := by unfold exitLevel; split <;> simp
@[simp] theorem exitLevel_prot (a b : Word) (s : State) : (exitLevel a b s).prot = s.prot := by unfold exitLevel; split <;> simp
@[simp] theorem exitLevel_wff (a b : Word) (s : State) : (exitLevel a b s).wff = s.wff := by unfold exitLevel; split <;> simp
@[simp] theorem exitLevel_panel (a b : Word) (s : State) : (exitLevel a b s).panel = s.panel := by unfold exitLevel; split <;> simp
@[simp] theorem exitLevel_mem (a b : Word) (s : State) : (exitLevel a b s).mem = s.mem := by unfold exitLevel; split <;> simp
@[simp] theorem exitLevel_badParity (a b : Word) (s : State) : (exitLevel a b s).badParity = s.badParity := by unfold exitLevel; split <;> simp
@[simp] theorem exitLevel_devices (a b : Word) (s : State) : (exitLevel a b s).devices = s.devices := by unfold exitLevel; split <;> simp
@[simp] theorem exitLevel_watchdog (a b : Word) (s : State) : (exitLevel a b s).watchdog = s.watchdog := by unfold exitLevel; split <;> simp
@[simp] theorem exitLevel_env (a b : Word) (s : State) : (exitLevel a b s).env = s.env := by unfold exitLevel; split <;> simp

@[simp] theorem serviceCounter_cfg (n : Fin 4) (s : State) : (serviceCounter n s).cfg = s.cfg := by simp only [serviceCounter]; split <;> simp
@[simp] theorem serviceCounter_regs (n : Fin 4) (s : State) : (serviceCounter n s).regs = s.regs := by simp only [serviceCounter]; split <;> simp
@[simp] theorem serviceCounter_ind (n : Fin 4) (s : State) : (serviceCounter n s).ind = s.ind := by simp only [serviceCounter]; split <;> simp
@[simp] theorem serviceCounter_h (n : Fin 4) (s : State) : (serviceCounter n s).h = s.h := by simp only [serviceCounter]; split <;> simp
@[simp] theorem serviceCounter_chan (n : Fin 4) (s : State) : (serviceCounter n s).chan = s.chan := by simp only [serviceCounter]; split <;> simp
@[simp] theorem serviceCounter_prot (n : Fin 4) (s : State) : (serviceCounter n s).prot = s.prot := by simp only [serviceCounter]; split <;> simp
@[simp] theorem serviceCounter_exitCond (n : Fin 4) (s : State) : (serviceCounter n s).exitCond = s.exitCond := by simp only [serviceCounter]; split <;> simp
@[simp] theorem serviceCounter_panel (n : Fin 4) (s : State) : (serviceCounter n s).panel = s.panel := by simp only [serviceCounter]; split <;> simp
@[simp] theorem serviceCounter_devices (n : Fin 4) (s : State) : (serviceCounter n s).devices = s.devices := by simp only [serviceCounter]; split <;> simp
@[simp] theorem serviceCounter_watchdog (n : Fin 4) (s : State) : (serviceCounter n s).watchdog = s.watchdog := by simp only [serviceCounter]; split <;> simp
@[simp] theorem serviceCounter_env (n : Fin 4) (s : State) : (serviceCounter n s).env = s.env := by simp only [serviceCounter]; split <;> simp

@[simp] theorem startIo_cfg (o : OrderSource) (s : State) : (startIo o s).cfg = s.cfg := by simp only [startIo]; (repeat' split) <;> simp
@[simp] theorem startIo_h (o : OrderSource) (s : State) : (startIo o s).h = s.h := by simp only [startIo]; (repeat' split) <;> simp
@[simp] theorem startIo_chan (o : OrderSource) (s : State) : (startIo o s).chan = s.chan := by simp only [startIo]; (repeat' split) <;> simp
@[simp] theorem startIo_prot (o : OrderSource) (s : State) : (startIo o s).prot = s.prot := by simp only [startIo]; (repeat' split) <;> simp
@[simp] theorem startIo_levels (o : OrderSource) (s : State) : (startIo o s).levels = s.levels := by simp only [startIo]; (repeat' split) <;> simp
@[simp] theorem startIo_wff (o : OrderSource) (s : State) : (startIo o s).wff = s.wff := by simp only [startIo]; (repeat' split) <;> simp
@[simp] theorem startIo_exitCond (o : OrderSource) (s : State) : (startIo o s).exitCond = s.exitCond := by simp only [startIo]; (repeat' split) <;> simp
@[simp] theorem startIo_panel (o : OrderSource) (s : State) : (startIo o s).panel = s.panel := by simp only [startIo]; (repeat' split) <;> simp
@[simp] theorem startIo_mem (o : OrderSource) (s : State) : (startIo o s).mem = s.mem := by simp only [startIo]; (repeat' split) <;> simp
@[simp] theorem startIo_badParity (o : OrderSource) (s : State) : (startIo o s).badParity = s.badParity := by simp only [startIo]; (repeat' split) <;> simp
@[simp] theorem startIo_watchdog (o : OrderSource) (s : State) : (startIo o s).watchdog = s.watchdog := by simp only [startIo]; (repeat' split) <;> simp
@[simp] theorem startIo_env (o : OrderSource) (s : State) : (startIo o s).env = s.env := by simp only [startIo]; (repeat' split) <;> simp

@[simp] theorem startLoad_cfg (s : State) : (startLoad s).cfg = s.cfg := by simp only [startLoad]; split <;> simp
@[simp] theorem startLoad_h (s : State) : (startLoad s).h = s.h := by simp only [startLoad]; split <;> simp
@[simp] theorem startLoad_prot (s : State) : (startLoad s).prot = s.prot := by simp only [startLoad]; split <;> simp
@[simp] theorem startLoad_levels (s : State) : (startLoad s).levels = s.levels := by simp only [startLoad]; split <;> simp
@[simp] theorem startLoad_exitCond (s : State) : (startLoad s).exitCond = s.exitCond := by simp only [startLoad]; split <;> simp
@[simp] theorem startLoad_mem (s : State) : (startLoad s).mem = s.mem := by simp only [startLoad]; split <;> simp
@[simp] theorem startLoad_badParity (s : State) : (startLoad s).badParity = s.badParity := by simp only [startLoad]; split <;> simp
@[simp] theorem startLoad_watchdog (s : State) : (startLoad s).watchdog = s.watchdog := by simp only [startLoad]; split <;> simp
@[simp] theorem startLoad_env (s : State) : (startLoad s).env = s.env := by simp only [startLoad]; split <;> simp

@[simp] theorem doSio_cfg (s : State) : (doSio s).cfg = s.cfg := by unfold doSio; split <;> simp
@[simp] theorem doSio_h (s : State) : (doSio s).h = s.h := by unfold doSio; split <;> simp
@[simp] theorem doSio_prot (s : State) : (doSio s).prot = s.prot := by unfold doSio; split <;> simp
@[simp] theorem doSio_levels (s : State) : (doSio s).levels = s.levels := by unfold doSio; split <;> simp
@[simp] theorem doSio_exitCond (s : State) : (doSio s).exitCond = s.exitCond := by unfold doSio; split <;> simp
@[simp] theorem doSio_mem (s : State) : (doSio s).mem = s.mem := by unfold doSio; split <;> simp
@[simp] theorem doSio_badParity (s : State) : (doSio s).badParity = s.badParity := by unfold doSio; split <;> simp
@[simp] theorem doSio_watchdog (s : State) : (doSio s).watchdog = s.watchdog := by unfold doSio; split <;> simp
@[simp] theorem doSio_env (s : State) : (doSio s).env = s.env := by unfold doSio; split <;> simp

@[simp] theorem doTio_cfg (s : State) : (doTio s).cfg = s.cfg := by simp only [doTio]; split <;> simp
@[simp] theorem doTio_h (s : State) : (doTio s).h = s.h := by simp only [doTio]; split <;> simp
@[simp] theorem doTio_chan (s : State) : (doTio s).chan = s.chan := by simp only [doTio]; split <;> simp
@[simp] theorem doTio_prot (s : State) : (doTio s).prot = s.prot := by simp only [doTio]; split <;> simp
@[simp] theorem doTio_levels (s : State) : (doTio s).levels = s.levels := by simp only [doTio]; split <;> simp
@[simp] theorem doTio_wff (s : State) : (doTio s).wff = s.wff := by simp only [doTio]; split <;> simp
@[simp] theorem doTio_exitCond (s : State) : (doTio s).exitCond = s.exitCond := by simp only [doTio]; split <;> simp
@[simp] theorem doTio_panel (s : State) : (doTio s).panel = s.panel := by simp only [doTio]; split <;> simp
@[simp] theorem doTio_mem (s : State) : (doTio s).mem = s.mem := by simp only [doTio]; split <;> simp
@[simp] theorem doTio_badParity (s : State) : (doTio s).badParity = s.badParity := by simp only [doTio]; split <;> simp
@[simp] theorem doTio_devices (s : State) : (doTio s).devices = s.devices := by simp only [doTio]; split <;> simp
@[simp] theorem doTio_watchdog (s : State) : (doTio s).watchdog = s.watchdog := by simp only [doTio]; split <;> simp
@[simp] theorem doTio_env (s : State) : (doTio s).env = s.env := by simp only [doTio]; split <;> simp

@[simp] theorem doTdv_cfg (s : State) : (doTdv s).cfg = s.cfg := by simp only [doTdv]; split <;> simp
@[simp] theorem doTdv_h (s : State) : (doTdv s).h = s.h := by simp only [doTdv]; split <;> simp
@[simp] theorem doTdv_chan (s : State) : (doTdv s).chan = s.chan := by simp only [doTdv]; split <;> simp
@[simp] theorem doTdv_prot (s : State) : (doTdv s).prot = s.prot := by simp only [doTdv]; split <;> simp
@[simp] theorem doTdv_levels (s : State) : (doTdv s).levels = s.levels := by simp only [doTdv]; split <;> simp
@[simp] theorem doTdv_wff (s : State) : (doTdv s).wff = s.wff := by simp only [doTdv]; split <;> simp
@[simp] theorem doTdv_exitCond (s : State) : (doTdv s).exitCond = s.exitCond := by simp only [doTdv]; split <;> simp
@[simp] theorem doTdv_panel (s : State) : (doTdv s).panel = s.panel := by simp only [doTdv]; split <;> simp
@[simp] theorem doTdv_mem (s : State) : (doTdv s).mem = s.mem := by simp only [doTdv]; split <;> simp
@[simp] theorem doTdv_badParity (s : State) : (doTdv s).badParity = s.badParity := by simp only [doTdv]; split <;> simp
@[simp] theorem doTdv_devices (s : State) : (doTdv s).devices = s.devices := by simp only [doTdv]; split <;> simp
@[simp] theorem doTdv_watchdog (s : State) : (doTdv s).watchdog = s.watchdog := by simp only [doTdv]; split <;> simp
@[simp] theorem doTdv_env (s : State) : (doTdv s).env = s.env := by simp only [doTdv]; split <;> simp

@[simp] theorem doHio_cfg (s : State) : (doHio s).cfg = s.cfg := by simp only [doHio]; (repeat' split) <;> simp
@[simp] theorem doHio_h (s : State) : (doHio s).h = s.h := by simp only [doHio]; (repeat' split) <;> simp
@[simp] theorem doHio_chan (s : State) : (doHio s).chan = s.chan := by simp only [doHio]; (repeat' split) <;> simp
@[simp] theorem doHio_prot (s : State) : (doHio s).prot = s.prot := by simp only [doHio]; (repeat' split) <;> simp
@[simp] theorem doHio_levels (s : State) : (doHio s).levels = s.levels := by simp only [doHio]; (repeat' split) <;> simp
@[simp] theorem doHio_wff (s : State) : (doHio s).wff = s.wff := by simp only [doHio]; (repeat' split) <;> simp
@[simp] theorem doHio_exitCond (s : State) : (doHio s).exitCond = s.exitCond := by simp only [doHio]; (repeat' split) <;> simp
@[simp] theorem doHio_panel (s : State) : (doHio s).panel = s.panel := by simp only [doHio]; (repeat' split) <;> simp
@[simp] theorem doHio_mem (s : State) : (doHio s).mem = s.mem := by simp only [doHio]; (repeat' split) <;> simp
@[simp] theorem doHio_badParity (s : State) : (doHio s).badParity = s.badParity := by simp only [doHio]; (repeat' split) <;> simp
@[simp] theorem doHio_watchdog (s : State) : (doHio s).watchdog = s.watchdog := by simp only [doHio]; (repeat' split) <;> simp
@[simp] theorem doHio_env (s : State) : (doHio s).env = s.env := by simp only [doHio]; (repeat' split) <;> simp

@[simp] theorem doAio_cfg (s : State) : (doAio s).cfg = s.cfg := by simp only [doAio]; split <;> simp
@[simp] theorem doAio_h (s : State) : (doAio s).h = s.h := by simp only [doAio]; split <;> simp
@[simp] theorem doAio_chan (s : State) : (doAio s).chan = s.chan := by simp only [doAio]; split <;> simp
@[simp] theorem doAio_prot (s : State) : (doAio s).prot = s.prot := by simp only [doAio]; split <;> simp
@[simp] theorem doAio_levels (s : State) : (doAio s).levels = s.levels := by simp only [doAio]; split <;> simp
@[simp] theorem doAio_wff (s : State) : (doAio s).wff = s.wff := by simp only [doAio]; split <;> simp
@[simp] theorem doAio_exitCond (s : State) : (doAio s).exitCond = s.exitCond := by simp only [doAio]; split <;> simp
@[simp] theorem doAio_panel (s : State) : (doAio s).panel = s.panel := by simp only [doAio]; split <;> simp
@[simp] theorem doAio_mem (s : State) : (doAio s).mem = s.mem := by simp only [doAio]; split <;> simp
@[simp] theorem doAio_badParity (s : State) : (doAio s).badParity = s.badParity := by simp only [doAio]; split <;> simp
@[simp] theorem doAio_watchdog (s : State) : (doAio s).watchdog = s.watchdog := by simp only [doAio]; split <;> simp
@[simp] theorem doAio_env (s : State) : (doAio s).env = s.env := by simp only [doAio]; split <;> simp

@[simp] theorem moveByte_cfg (ch : Nat) (d : Byte) (t : Transfer) (s : State) : (moveByte ch d t s).cfg = s.cfg := by cases t <;> simp [moveByte]
@[simp] theorem moveByte_regs (ch : Nat) (d : Byte) (t : Transfer) (s : State) : (moveByte ch d t s).regs = s.regs := by cases t <;> simp [moveByte]
@[simp] theorem moveByte_ind (ch : Nat) (d : Byte) (t : Transfer) (s : State) : (moveByte ch d t s).ind = s.ind := by cases t <;> simp [moveByte]
@[simp] theorem moveByte_h (ch : Nat) (d : Byte) (t : Transfer) (s : State) : (moveByte ch d t s).h = s.h := by cases t <;> simp [moveByte]
@[simp] theorem moveByte_prot (ch : Nat) (d : Byte) (t : Transfer) (s : State) : (moveByte ch d t s).prot = s.prot := by cases t <;> simp [moveByte]
@[simp] theorem moveByte_levels (ch : Nat) (d : Byte) (t : Transfer) (s : State) : (moveByte ch d t s).levels = s.levels := by cases t <;> simp [moveByte]
@[simp] theorem moveByte_wff (ch : Nat) (d : Byte) (t : Transfer) (s : State) : (moveByte ch d t s).wff = s.wff := by cases t <;> simp [moveByte]
@[simp] theorem moveByte_exitCond (ch : Nat) (d : Byte) (t : Transfer) (s : State) : (moveByte ch d t s).exitCond = s.exitCond := by cases t <;> simp [moveByte]
@[simp] theorem moveByte_panel (ch : Nat) (d : Byte) (t : Transfer) (s : State) : (moveByte ch d t s).panel = s.panel := by cases t <;> simp [moveByte]
@[simp] theorem moveByte_devices (ch : Nat) (d : Byte) (t : Transfer) (s : State) : (moveByte ch d t s).devices = s.devices := by cases t <;> simp [moveByte]
@[simp] theorem moveByte_watchdog (ch : Nat) (d : Byte) (t : Transfer) (s : State) : (moveByte ch d t s).watchdog = s.watchdog := by cases t <;> simp [moveByte]

@[simp] theorem stepChannel_cfg (ch : Nat) (s : State) : (stepChannel ch s).cfg = s.cfg := by simp [stepChannel]
@[simp] theorem stepChannel_regs (ch : Nat) (s : State) : (stepChannel ch s).regs = s.regs := by simp [stepChannel]
@[simp] theorem stepChannel_ind (ch : Nat) (s : State) : (stepChannel ch s).ind = s.ind := by simp [stepChannel]
@[simp] theorem stepChannel_h (ch : Nat) (s : State) : (stepChannel ch s).h = s.h := by simp [stepChannel]
@[simp] theorem stepChannel_prot (ch : Nat) (s : State) : (stepChannel ch s).prot = s.prot := by simp [stepChannel]
@[simp] theorem stepChannel_levels (ch : Nat) (s : State) : (stepChannel ch s).levels = s.levels := by simp [stepChannel]
@[simp] theorem stepChannel_wff (ch : Nat) (s : State) : (stepChannel ch s).wff = s.wff := by simp [stepChannel]
@[simp] theorem stepChannel_exitCond (ch : Nat) (s : State) : (stepChannel ch s).exitCond = s.exitCond := by simp [stepChannel]
@[simp] theorem stepChannel_panel (ch : Nat) (s : State) : (stepChannel ch s).panel = s.panel := by simp [stepChannel]
@[simp] theorem stepChannel_mem (ch : Nat) (s : State) : (stepChannel ch s).mem = s.mem := by simp [stepChannel]
@[simp] theorem stepChannel_badParity (ch : Nat) (s : State) : (stepChannel ch s).badParity = s.badParity := by simp [stepChannel]
@[simp] theorem stepChannel_devices (ch : Nat) (s : State) : (stepChannel ch s).devices = s.devices := by simp [stepChannel]
@[simp] theorem stepChannel_watchdog (ch : Nat) (s : State) : (stepChannel ch s).watchdog = s.watchdog := by simp [stepChannel]
@[simp] theorem stepChannel_env (ch : Nat) (s : State) : (stepChannel ch s).env = s.env := by simp [stepChannel]

@[simp] theorem endOperation_cfg (d : Byte) (te il cm ce ue : Bool) (s : State) : (endOperation d te il cm ce ue s).cfg = s.cfg := by simp only [endOperation]; (repeat' split) <;> simp
@[simp] theorem endOperation_regs (d : Byte) (te il cm ce ue : Bool) (s : State) : (endOperation d te il cm ce ue s).regs = s.regs := by simp only [endOperation]; (repeat' split) <;> simp
@[simp] theorem endOperation_ind (d : Byte) (te il cm ce ue : Bool) (s : State) : (endOperation d te il cm ce ue s).ind = s.ind := by simp only [endOperation]; (repeat' split) <;> simp
@[simp] theorem endOperation_h (d : Byte) (te il cm ce ue : Bool) (s : State) : (endOperation d te il cm ce ue s).h = s.h := by simp only [endOperation]; (repeat' split) <;> simp
@[simp] theorem endOperation_prot (d : Byte) (te il cm ce ue : Bool) (s : State) : (endOperation d te il cm ce ue s).prot = s.prot := by simp only [endOperation]; (repeat' split) <;> simp
@[simp] theorem endOperation_levels (d : Byte) (te il cm ce ue : Bool) (s : State) : (endOperation d te il cm ce ue s).levels = s.levels := by simp only [endOperation]; (repeat' split) <;> simp
@[simp] theorem endOperation_wff (d : Byte) (te il cm ce ue : Bool) (s : State) : (endOperation d te il cm ce ue s).wff = s.wff := by simp only [endOperation]; (repeat' split) <;> simp
@[simp] theorem endOperation_exitCond (d : Byte) (te il cm ce ue : Bool) (s : State) : (endOperation d te il cm ce ue s).exitCond = s.exitCond := by simp only [endOperation]; (repeat' split) <;> simp
@[simp] theorem endOperation_panel (d : Byte) (te il cm ce ue : Bool) (s : State) : (endOperation d te il cm ce ue s).panel = s.panel := by simp only [endOperation]; (repeat' split) <;> simp
@[simp] theorem endOperation_mem (d : Byte) (te il cm ce ue : Bool) (s : State) : (endOperation d te il cm ce ue s).mem = s.mem := by simp only [endOperation]; (repeat' split) <;> simp
@[simp] theorem endOperation_badParity (d : Byte) (te il cm ce ue : Bool) (s : State) : (endOperation d te il cm ce ue s).badParity = s.badParity := by simp only [endOperation]; (repeat' split) <;> simp
@[simp] theorem endOperation_watchdog (d : Byte) (te il cm ce ue : Bool) (s : State) : (endOperation d te il cm ce ue s).watchdog = s.watchdog := by simp only [endOperation]; (repeat' split) <;> simp
@[simp] theorem endOperation_env (d : Byte) (te il cm ce ue : Bool) (s : State) : (endOperation d te il cm ce ue s).env = s.env := by simp only [endOperation]; (repeat' split) <;> simp

@[simp] theorem holdIoSignal_cfg (s : State) : (holdIoSignal s).cfg = s.cfg := by unfold holdIoSignal; split <;> simp
@[simp] theorem holdIoSignal_regs (s : State) : (holdIoSignal s).regs = s.regs := by unfold holdIoSignal; split <;> simp
@[simp] theorem holdIoSignal_ind (s : State) : (holdIoSignal s).ind = s.ind := by unfold holdIoSignal; split <;> simp
@[simp] theorem holdIoSignal_h (s : State) : (holdIoSignal s).h = s.h := by unfold holdIoSignal; split <;> simp
@[simp] theorem holdIoSignal_chan (s : State) : (holdIoSignal s).chan = s.chan := by unfold holdIoSignal; split <;> simp
@[simp] theorem holdIoSignal_prot (s : State) : (holdIoSignal s).prot = s.prot := by unfold holdIoSignal; split <;> simp
@[simp] theorem holdIoSignal_wff (s : State) : (holdIoSignal s).wff = s.wff := by unfold holdIoSignal; split <;> simp
@[simp] theorem holdIoSignal_exitCond (s : State) : (holdIoSignal s).exitCond = s.exitCond := by unfold holdIoSignal; split <;> simp
@[simp] theorem holdIoSignal_panel (s : State) : (holdIoSignal s).panel = s.panel := by unfold holdIoSignal; split <;> simp
@[simp] theorem holdIoSignal_mem (s : State) : (holdIoSignal s).mem = s.mem := by unfold holdIoSignal; split <;> simp
@[simp] theorem holdIoSignal_badParity (s : State) : (holdIoSignal s).badParity = s.badParity := by unfold holdIoSignal; split <;> simp
@[simp] theorem holdIoSignal_devices (s : State) : (holdIoSignal s).devices = s.devices := by unfold holdIoSignal; split <;> simp
@[simp] theorem holdIoSignal_watchdog (s : State) : (holdIoSignal s).watchdog = s.watchdog := by unfold holdIoSignal; split <;> simp
@[simp] theorem holdIoSignal_env (s : State) : (holdIoSignal s).env = s.env := by unfold holdIoSignal; split <;> simp

@[simp] theorem watchdogSignal_cfg (s : State) : (watchdogSignal s).cfg = s.cfg := by unfold watchdogSignal; (repeat' split) <;> simp
@[simp] theorem watchdogSignal_regs (s : State) : (watchdogSignal s).regs = s.regs := by unfold watchdogSignal; (repeat' split) <;> simp
@[simp] theorem watchdogSignal_ind (s : State) : (watchdogSignal s).ind = s.ind := by unfold watchdogSignal; (repeat' split) <;> simp
@[simp] theorem watchdogSignal_h (s : State) : (watchdogSignal s).h = s.h := by unfold watchdogSignal; (repeat' split) <;> simp
@[simp] theorem watchdogSignal_chan (s : State) : (watchdogSignal s).chan = s.chan := by unfold watchdogSignal; (repeat' split) <;> simp
@[simp] theorem watchdogSignal_prot (s : State) : (watchdogSignal s).prot = s.prot := by unfold watchdogSignal; (repeat' split) <;> simp
@[simp] theorem watchdogSignal_wff (s : State) : (watchdogSignal s).wff = s.wff := by unfold watchdogSignal; (repeat' split) <;> simp
@[simp] theorem watchdogSignal_exitCond (s : State) : (watchdogSignal s).exitCond = s.exitCond := by unfold watchdogSignal; (repeat' split) <;> simp
@[simp] theorem watchdogSignal_panel (s : State) : (watchdogSignal s).panel = s.panel := by unfold watchdogSignal; (repeat' split) <;> simp
@[simp] theorem watchdogSignal_mem (s : State) : (watchdogSignal s).mem = s.mem := by unfold watchdogSignal; (repeat' split) <;> simp
@[simp] theorem watchdogSignal_badParity (s : State) : (watchdogSignal s).badParity = s.badParity := by unfold watchdogSignal; (repeat' split) <;> simp
@[simp] theorem watchdogSignal_devices (s : State) : (watchdogSignal s).devices = s.devices := by unfold watchdogSignal; (repeat' split) <;> simp
@[simp] theorem watchdogSignal_watchdog (s : State) : (watchdogSignal s).watchdog = s.watchdog := by unfold watchdogSignal; (repeat' split) <;> simp
@[simp] theorem watchdogSignal_env (s : State) : (watchdogSignal s).env = s.env := by unfold watchdogSignal; (repeat' split) <;> simp

@[simp] theorem enterIdle_cfg (s : State) : (enterIdle s).cfg = s.cfg := rfl
@[simp] theorem enterIdle_regs (s : State) : (enterIdle s).regs = s.regs := rfl
@[simp] theorem enterIdle_ind (s : State) : (enterIdle s).ind = s.ind := rfl
@[simp] theorem enterIdle_chan (s : State) : (enterIdle s).chan = s.chan := rfl
@[simp] theorem enterIdle_prot (s : State) : (enterIdle s).prot = s.prot := rfl
@[simp] theorem enterIdle_levels (s : State) : (enterIdle s).levels = s.levels := rfl
@[simp] theorem enterIdle_exitCond (s : State) : (enterIdle s).exitCond = s.exitCond := rfl
@[simp] theorem enterIdle_mem (s : State) : (enterIdle s).mem = s.mem := rfl
@[simp] theorem enterIdle_badParity (s : State) : (enterIdle s).badParity = s.badParity := rfl
@[simp] theorem enterIdle_devices (s : State) : (enterIdle s).devices = s.devices := rfl
@[simp] theorem enterIdle_watchdog (s : State) : (enterIdle s).watchdog = s.watchdog := rfl
@[simp] theorem enterIdle_env (s : State) : (enterIdle s).env = s.env := rfl

@[simp] theorem leaveIdle_cfg (s : State) : (leaveIdle s).cfg = s.cfg := rfl
@[simp] theorem leaveIdle_regs (s : State) : (leaveIdle s).regs = s.regs := rfl
@[simp] theorem leaveIdle_ind (s : State) : (leaveIdle s).ind = s.ind := rfl
@[simp] theorem leaveIdle_h (s : State) : (leaveIdle s).h = s.h := rfl
@[simp] theorem leaveIdle_chan (s : State) : (leaveIdle s).chan = s.chan := rfl
@[simp] theorem leaveIdle_prot (s : State) : (leaveIdle s).prot = s.prot := rfl
@[simp] theorem leaveIdle_levels (s : State) : (leaveIdle s).levels = s.levels := rfl
@[simp] theorem leaveIdle_wff (s : State) : (leaveIdle s).wff = s.wff := rfl
@[simp] theorem leaveIdle_exitCond (s : State) : (leaveIdle s).exitCond = s.exitCond := rfl
@[simp] theorem leaveIdle_mem (s : State) : (leaveIdle s).mem = s.mem := rfl
@[simp] theorem leaveIdle_badParity (s : State) : (leaveIdle s).badParity = s.badParity := rfl
@[simp] theorem leaveIdle_devices (s : State) : (leaveIdle s).devices = s.devices := rfl
@[simp] theorem leaveIdle_watchdog (s : State) : (leaveIdle s).watchdog = s.watchdog := rfl
@[simp] theorem leaveIdle_env (s : State) : (leaveIdle s).env = s.env := rfl

@[simp] theorem moveCompute_cfg (c : Compute) (s : State) : (moveCompute c s).cfg = s.cfg := by simp only [moveCompute, computeEffect]; (repeat' split) <;> simp
@[simp] theorem moveCompute_regs (c : Compute) (s : State) : (moveCompute c s).regs = s.regs := by simp only [moveCompute, computeEffect]; (repeat' split) <;> simp
@[simp] theorem moveCompute_ind (c : Compute) (s : State) : (moveCompute c s).ind = s.ind := by simp only [moveCompute, computeEffect]; (repeat' split) <;> simp
@[simp] theorem moveCompute_chan (c : Compute) (s : State) : (moveCompute c s).chan = s.chan := by simp only [moveCompute, computeEffect]; (repeat' split) <;> simp
@[simp] theorem moveCompute_prot (c : Compute) (s : State) : (moveCompute c s).prot = s.prot := by simp only [moveCompute, computeEffect]; (repeat' split) <;> simp
@[simp] theorem moveCompute_levels (c : Compute) (s : State) : (moveCompute c s).levels = s.levels := by simp only [moveCompute, computeEffect]; (repeat' split) <;> simp
@[simp] theorem moveCompute_exitCond (c : Compute) (s : State) : (moveCompute c s).exitCond = s.exitCond := by simp only [moveCompute, computeEffect]; (repeat' split) <;> simp
@[simp] theorem moveCompute_mem (c : Compute) (s : State) : (moveCompute c s).mem = s.mem := by simp only [moveCompute, computeEffect]; (repeat' split) <;> simp
@[simp] theorem moveCompute_badParity (c : Compute) (s : State) : (moveCompute c s).badParity = s.badParity := by simp only [moveCompute, computeEffect]; (repeat' split) <;> simp
@[simp] theorem moveCompute_devices (c : Compute) (s : State) : (moveCompute c s).devices = s.devices := by simp only [moveCompute, computeEffect]; (repeat' split) <;> simp
@[simp] theorem moveCompute_watchdog (c : Compute) (s : State) : (moveCompute c s).watchdog = s.watchdog := by simp only [moveCompute, computeEffect]; (repeat' split) <;> simp
@[simp] theorem moveCompute_env (c : Compute) (s : State) : (moveCompute c s).env = s.env := by simp only [moveCompute, computeEffect]; (repeat' split) <;> simp

@[simp] theorem turnKey_cfg (k : KeySwitch) (s : State) : (turnKey k s).cfg = s.cfg := by simp only [turnKey, endParityHalt, computeEffect]; (repeat' split) <;> simp
@[simp] theorem turnKey_regs (k : KeySwitch) (s : State) : (turnKey k s).regs = s.regs := by simp only [turnKey, endParityHalt, computeEffect]; (repeat' split) <;> simp
@[simp] theorem turnKey_ind (k : KeySwitch) (s : State) : (turnKey k s).ind = s.ind := by simp only [turnKey, endParityHalt, computeEffect]; (repeat' split) <;> simp
@[simp] theorem turnKey_chan (k : KeySwitch) (s : State) : (turnKey k s).chan = s.chan := by simp only [turnKey, endParityHalt, computeEffect]; (repeat' split) <;> simp
@[simp] theorem turnKey_prot (k : KeySwitch) (s : State) : (turnKey k s).prot = s.prot := by simp only [turnKey, endParityHalt, computeEffect]; (repeat' split) <;> simp
@[simp] theorem turnKey_levels (k : KeySwitch) (s : State) : (turnKey k s).levels = s.levels := by simp only [turnKey, endParityHalt, computeEffect]; (repeat' split) <;> simp
@[simp] theorem turnKey_exitCond (k : KeySwitch) (s : State) : (turnKey k s).exitCond = s.exitCond := by simp only [turnKey, endParityHalt, computeEffect]; (repeat' split) <;> simp
@[simp] theorem turnKey_mem (k : KeySwitch) (s : State) : (turnKey k s).mem = s.mem := by simp only [turnKey, endParityHalt, computeEffect]; (repeat' split) <;> simp
@[simp] theorem turnKey_badParity (k : KeySwitch) (s : State) : (turnKey k s).badParity = s.badParity := by simp only [turnKey, endParityHalt, computeEffect]; (repeat' split) <;> simp
@[simp] theorem turnKey_devices (k : KeySwitch) (s : State) : (turnKey k s).devices = s.devices := by simp only [turnKey, endParityHalt, computeEffect]; (repeat' split) <;> simp
@[simp] theorem turnKey_watchdog (k : KeySwitch) (s : State) : (turnKey k s).watchdog = s.watchdog := by simp only [turnKey, endParityHalt, computeEffect]; (repeat' split) <;> simp
@[simp] theorem turnKey_env (k : KeySwitch) (s : State) : (turnKey k s).env = s.env := by simp only [turnKey, endParityHalt, computeEffect]; (repeat' split) <;> simp

@[simp] theorem changeCondition_cfg (n : Byte) (d c : Condition) (s : State) : (changeCondition n d c s).cfg = s.cfg := by simp only [changeCondition]; (repeat' split) <;> simp
@[simp] theorem changeCondition_regs (n : Byte) (d c : Condition) (s : State) : (changeCondition n d c s).regs = s.regs := by simp only [changeCondition]; (repeat' split) <;> simp
@[simp] theorem changeCondition_ind (n : Byte) (d c : Condition) (s : State) : (changeCondition n d c s).ind = s.ind := by simp only [changeCondition]; (repeat' split) <;> simp
@[simp] theorem changeCondition_h (n : Byte) (d c : Condition) (s : State) : (changeCondition n d c s).h = s.h := by simp only [changeCondition]; (repeat' split) <;> simp
@[simp] theorem changeCondition_chan (n : Byte) (d c : Condition) (s : State) : (changeCondition n d c s).chan = s.chan := by simp only [changeCondition]; (repeat' split) <;> simp
@[simp] theorem changeCondition_prot (n : Byte) (d c : Condition) (s : State) : (changeCondition n d c s).prot = s.prot := by simp only [changeCondition]; (repeat' split) <;> simp
@[simp] theorem changeCondition_levels (n : Byte) (d c : Condition) (s : State) : (changeCondition n d c s).levels = s.levels := by simp only [changeCondition]; (repeat' split) <;> simp
@[simp] theorem changeCondition_wff (n : Byte) (d c : Condition) (s : State) : (changeCondition n d c s).wff = s.wff := by simp only [changeCondition]; (repeat' split) <;> simp
@[simp] theorem changeCondition_exitCond (n : Byte) (d c : Condition) (s : State) : (changeCondition n d c s).exitCond = s.exitCond := by simp only [changeCondition]; (repeat' split) <;> simp
@[simp] theorem changeCondition_panel (n : Byte) (d c : Condition) (s : State) : (changeCondition n d c s).panel = s.panel := by simp only [changeCondition]; (repeat' split) <;> simp
@[simp] theorem changeCondition_mem (n : Byte) (d c : Condition) (s : State) : (changeCondition n d c s).mem = s.mem := by simp only [changeCondition]; (repeat' split) <;> simp
@[simp] theorem changeCondition_badParity (n : Byte) (d c : Condition) (s : State) : (changeCondition n d c s).badParity = s.badParity := by simp only [changeCondition]; (repeat' split) <;> simp
@[simp] theorem changeCondition_watchdog (n : Byte) (d c : Condition) (s : State) : (changeCondition n d c s).watchdog = s.watchdog := by simp only [changeCondition]; (repeat' split) <;> simp
@[simp] theorem changeCondition_env (n : Byte) (d c : Condition) (s : State) : (changeCondition n d c s).env = s.env := by simp only [changeCondition]; (repeat' split) <;> simp

@[simp] theorem initializeReset_cfg (s : State) : (initializeReset s).cfg = s.cfg := rfl
@[simp] theorem initializeReset_regs (s : State) : (initializeReset s).regs = s.regs := rfl
@[simp] theorem initializeReset_h (s : State) : (initializeReset s).h = s.h := rfl
@[simp] theorem initializeReset_chan (s : State) : (initializeReset s).chan = s.chan := rfl
@[simp] theorem initializeReset_prot (s : State) : (initializeReset s).prot = s.prot := rfl
@[simp] theorem initializeReset_mem (s : State) : (initializeReset s).mem = s.mem := rfl
@[simp] theorem initializeReset_badParity (s : State) : (initializeReset s).badParity = s.badParity := rfl
@[simp] theorem initializeReset_watchdog (s : State) : (initializeReset s).watchdog = s.watchdog := rfl

@[simp] theorem watchdogWrite_cfg (op : WatchdogOp) (ea : Word) (s : State) : (watchdogWrite op ea s).cfg = s.cfg := by simp [watchdogWrite]
@[simp] theorem watchdogWrite_regs (op : WatchdogOp) (ea : Word) (s : State) : (watchdogWrite op ea s).regs = s.regs := by simp [watchdogWrite]
@[simp] theorem watchdogWrite_ind (op : WatchdogOp) (ea : Word) (s : State) : (watchdogWrite op ea s).ind = s.ind := by simp [watchdogWrite]
@[simp] theorem watchdogWrite_h (op : WatchdogOp) (ea : Word) (s : State) : (watchdogWrite op ea s).h = s.h := by simp [watchdogWrite]
@[simp] theorem watchdogWrite_chan (op : WatchdogOp) (ea : Word) (s : State) : (watchdogWrite op ea s).chan = s.chan := by simp [watchdogWrite]
@[simp] theorem watchdogWrite_prot (op : WatchdogOp) (ea : Word) (s : State) : (watchdogWrite op ea s).prot = s.prot := by simp [watchdogWrite]
@[simp] theorem watchdogWrite_levels (op : WatchdogOp) (ea : Word) (s : State) : (watchdogWrite op ea s).levels = s.levels := by simp [watchdogWrite]
@[simp] theorem watchdogWrite_wff (op : WatchdogOp) (ea : Word) (s : State) : (watchdogWrite op ea s).wff = s.wff := by simp [watchdogWrite]
@[simp] theorem watchdogWrite_exitCond (op : WatchdogOp) (ea : Word) (s : State) : (watchdogWrite op ea s).exitCond = s.exitCond := by simp [watchdogWrite]
@[simp] theorem watchdogWrite_panel (op : WatchdogOp) (ea : Word) (s : State) : (watchdogWrite op ea s).panel = s.panel := by simp [watchdogWrite]
@[simp] theorem watchdogWrite_mem (op : WatchdogOp) (ea : Word) (s : State) : (watchdogWrite op ea s).mem = s.mem := by simp [watchdogWrite]
@[simp] theorem watchdogWrite_badParity (op : WatchdogOp) (ea : Word) (s : State) : (watchdogWrite op ea s).badParity = s.badParity := by simp [watchdogWrite]
@[simp] theorem watchdogWrite_devices (op : WatchdogOp) (ea : Word) (s : State) : (watchdogWrite op ea s).devices = s.devices := by simp [watchdogWrite]

@[simp] theorem State.tickWatchdog_cfg (s : State) : s.tickWatchdog.cfg = s.cfg := rfl
@[simp] theorem State.tickWatchdog_regs (s : State) : s.tickWatchdog.regs = s.regs := rfl
@[simp] theorem State.tickWatchdog_ind (s : State) : s.tickWatchdog.ind = s.ind := rfl
@[simp] theorem State.tickWatchdog_h (s : State) : s.tickWatchdog.h = s.h := rfl
@[simp] theorem State.tickWatchdog_chan (s : State) : s.tickWatchdog.chan = s.chan := rfl
@[simp] theorem State.tickWatchdog_prot (s : State) : s.tickWatchdog.prot = s.prot := rfl
@[simp] theorem State.tickWatchdog_levels (s : State) : s.tickWatchdog.levels = s.levels := rfl
@[simp] theorem State.tickWatchdog_wff (s : State) : s.tickWatchdog.wff = s.wff := rfl
@[simp] theorem State.tickWatchdog_exitCond (s : State) : s.tickWatchdog.exitCond = s.exitCond := rfl
@[simp] theorem State.tickWatchdog_panel (s : State) : s.tickWatchdog.panel = s.panel := rfl
@[simp] theorem State.tickWatchdog_mem (s : State) : s.tickWatchdog.mem = s.mem := rfl
@[simp] theorem State.tickWatchdog_badParity (s : State) : s.tickWatchdog.badParity = s.badParity := rfl
@[simp] theorem State.tickWatchdog_devices (s : State) : s.tickWatchdog.devices = s.devices := rfl
@[simp] theorem State.tickWatchdog_env (s : State) : s.tickWatchdog.env = s.env := rfl

@[simp] theorem startFetch_cfg (s : State) : (startFetch s).cfg = s.cfg := rfl
@[simp] theorem startFetch_regs (s : State) : (startFetch s).regs = s.regs := rfl
@[simp] theorem startFetch_ind (s : State) : (startFetch s).ind = s.ind := rfl
@[simp] theorem startFetch_chan (s : State) : (startFetch s).chan = s.chan := rfl
@[simp] theorem startFetch_prot (s : State) : (startFetch s).prot = s.prot := rfl
@[simp] theorem startFetch_levels (s : State) : (startFetch s).levels = s.levels := rfl
@[simp] theorem startFetch_wff (s : State) : (startFetch s).wff = s.wff := rfl
@[simp] theorem startFetch_exitCond (s : State) : (startFetch s).exitCond = s.exitCond := rfl
@[simp] theorem startFetch_mem (s : State) : (startFetch s).mem = s.mem := rfl
@[simp] theorem startFetch_badParity (s : State) : (startFetch s).badParity = s.badParity := rfl
@[simp] theorem startFetch_devices (s : State) : (startFetch s).devices = s.devices := rfl
@[simp] theorem startFetch_watchdog (s : State) : (startFetch s).watchdog = s.watchdog := rfl
@[simp] theorem startFetch_env (s : State) : (startFetch s).env = s.env := rfl

@[simp] theorem countWatchdog_cfg (s : State) : (countWatchdog s).cfg = s.cfg := by simp only [countWatchdog]; split <;> simp
@[simp] theorem countWatchdog_regs (s : State) : (countWatchdog s).regs = s.regs := by simp only [countWatchdog]; split <;> simp
@[simp] theorem countWatchdog_ind (s : State) : (countWatchdog s).ind = s.ind := by simp only [countWatchdog]; split <;> simp
@[simp] theorem countWatchdog_h (s : State) : (countWatchdog s).h = s.h := by simp only [countWatchdog]; split <;> simp
@[simp] theorem countWatchdog_chan (s : State) : (countWatchdog s).chan = s.chan := by simp only [countWatchdog]; split <;> simp
@[simp] theorem countWatchdog_prot (s : State) : (countWatchdog s).prot = s.prot := by simp only [countWatchdog]; split <;> simp
@[simp] theorem countWatchdog_wff (s : State) : (countWatchdog s).wff = s.wff := by simp only [countWatchdog]; split <;> simp
@[simp] theorem countWatchdog_exitCond (s : State) : (countWatchdog s).exitCond = s.exitCond := by simp only [countWatchdog]; split <;> simp
@[simp] theorem countWatchdog_panel (s : State) : (countWatchdog s).panel = s.panel := by simp only [countWatchdog]; split <;> simp
@[simp] theorem countWatchdog_mem (s : State) : (countWatchdog s).mem = s.mem := by simp only [countWatchdog]; split <;> simp
@[simp] theorem countWatchdog_badParity (s : State) : (countWatchdog s).badParity = s.badParity := by simp only [countWatchdog]; split <;> simp
@[simp] theorem countWatchdog_devices (s : State) : (countWatchdog s).devices = s.devices := by simp only [countWatchdog]; split <;> simp
@[simp] theorem countWatchdog_env (s : State) : (countWatchdog s).env = s.env := by simp only [countWatchdog]; split <;> simp

@[simp] theorem endStep_cfg (s : State) : (endStep s).cfg = s.cfg := by unfold endStep; split <;> simp
@[simp] theorem endStep_regs (s : State) : (endStep s).regs = s.regs := by unfold endStep; split <;> simp
@[simp] theorem endStep_ind (s : State) : (endStep s).ind = s.ind := by unfold endStep; split <;> simp
@[simp] theorem endStep_chan (s : State) : (endStep s).chan = s.chan := by unfold endStep; split <;> simp
@[simp] theorem endStep_prot (s : State) : (endStep s).prot = s.prot := by unfold endStep; split <;> simp
@[simp] theorem endStep_levels (s : State) : (endStep s).levels = s.levels := by unfold endStep; split <;> simp
@[simp] theorem endStep_exitCond (s : State) : (endStep s).exitCond = s.exitCond := by unfold endStep; split <;> simp
@[simp] theorem endStep_mem (s : State) : (endStep s).mem = s.mem := by unfold endStep; split <;> simp
@[simp] theorem endStep_badParity (s : State) : (endStep s).badParity = s.badParity := by unfold endStep; split <;> simp
@[simp] theorem endStep_devices (s : State) : (endStep s).devices = s.devices := by unfold endStep; split <;> simp
@[simp] theorem endStep_watchdog (s : State) : (endStep s).watchdog = s.watchdog := by unfold endStep; split <;> simp
@[simp] theorem endStep_env (s : State) : (endStep s).env = s.env := by unfold endStep; split <;> simp

/-! The fields an update writes. -/

@[simp] theorem State.setReg_z (s : State) (v : Word) : s.setReg .z v = s := rfl
@[simp] theorem State.setReg_p_written (s : State) (v : Word) : (s.setReg .p v).regs = { s.regs with p := v } := rfl
@[simp] theorem State.setReg_l_written (s : State) (v : Word) : (s.setReg .l v).regs = { s.regs with l := v } := rfl
@[simp] theorem State.setReg_t_written (s : State) (v : Word) : (s.setReg .t v).regs = { s.regs with t := v } := rfl
@[simp] theorem State.setReg_x1_written (s : State) (v : Word) : (s.setReg .x1 v).regs = { s.regs with x1 := v } := rfl
@[simp] theorem State.setReg_x2_written (s : State) (v : Word) : (s.setReg .x2 v).regs = { s.regs with x2 := v } := rfl
@[simp] theorem State.setReg_e_written (s : State) (v : Word) : (s.setReg .e v).regs = { s.regs with e := v } := rfl
@[simp] theorem State.setReg_a_written (s : State) (v : Word) : (s.setReg .a v).regs = { s.regs with a := v } := rfl
@[simp] theorem State.setOC_written (s : State) (o c : Bool) : (s.setOC o c).ind = { s.ind with o := o, c := c } := rfl
@[simp] theorem State.setPP_written (s : State) (b : Bool) : (s.setPP b).ind = { s.ind with pp := s.cfg.protect && b } := rfl
@[simp] theorem State.loadStatus_written (s : State) (w : Word) : (s.loadStatus w).ind = { pp := s.cfg.protect && bitAt w 8, ii := bitAt w 10, ei := bitAt w 11, o := bitAt w 14, c := bitAt w 15 } := rfl
@[simp] theorem State.setInhibits_written (s : State) (x i e : Bool) : (s.setInhibits x i e).ind = { s.ind with ii := if i then x else s.ind.ii, ei := if e then x else s.ind.ei } := rfl
@[simp] theorem State.abort_written_regs (s : State) : (s.abort).regs = { s.regs with p := s.h } := rfl
@[simp] theorem State.abort_written_exitCond (s : State) : (s.abort).exitCond = false := rfl
@[simp] theorem State.send_written (s : State) (x : Sent) : (s.send x).env = { s.env with sent := x :: s.env.sent } := rfl
@[simp] theorem State.dropAnswer_written (s : State) : (s.dropAnswer).env = { s.env with answers := s.env.answers.tail } := rfl
@[simp] theorem State.tickWatchdog_written (s : State) : (s.tickWatchdog).watchdog = { s.watchdog with aborted := false, signalDue := s.watchdog.aborted } := rfl
@[simp] theorem State.updateDevice_written (s : State) (n : Byte) (f : Device → Device) : (s.updateDevice n f).devices = s.devices.map fun d => if d.number == n then f d else d := rfl
@[simp] theorem startFetch_h (s : State) : (startFetch s).h = s.regs.p := rfl
@[simp] theorem startFetch_panel (s : State) : (startFetch s).panel = { s.panel with firstFromD := false } := rfl
@[simp] theorem enterIdle_wff (s : State) : (enterIdle s).wff = false := rfl

end Sys2Proof.Machine
end

