-- ==== Sys2Proof/Laws/Levels.lean ====
section
/-! SUPPORT. The interrupt levels: their flip-flops are independent of one another, what a trigger, a selection and an
interrupt-control operation can do. -/

namespace Sys2Proof.Machine

theorem levelLocation_bounds (l : Level) : 0xFC ≤ levelLocation l ∧ levelLocation l ≤ 0x18F := by
  cases l <;> simp only [levelLocation] <;> omega

/-- Every level has a location of its own (R312). -/
theorem levelLocation_injective {k l : Level} (h : levelLocation k = levelLocation l) : k = l := by
  cases k <;> cases l <;> simp only [levelLocation] at h <;> first
    | rfl
    | (exfalso; omega)
    | (congr 1 <;> (apply Fin.ext; omega))

theorem levelIndex_val (l : Level) : (levelIndex l).val = levelLocation l - 0xFC := by
  have := levelLocation_bounds l
  simp only [levelIndex, Fin.val_ofNat]
  omega

theorem levelIndex_injective {k l : Level} (h : levelIndex k = levelIndex l) : k = l := by
  have hk := levelLocation_bounds k
  have hl := levelLocation_bounds l
  have h' := congrArg Fin.val h
  rw [levelIndex_val, levelIndex_val] at h'
  exact levelLocation_injective (by omega)

/-- The flip-flops of a level depend on `levels` alone. -/
theorem State.level_congr {s t : State} (h : s.levels = t.levels) (l : Level) : s.level l = t.level l := by
  simp [State.level, h]

/-- Setting one level leaves every other as it was. -/
theorem State.level_setLevel (s : State) (l k : Level) (v : LevelFF) :
    (s.setLevel l v).level k = if k = l then v else s.level k := by
  simp only [State.level, State.setLevel, Vector.get_eq_getElem]
  by_cases h : k = l
  · subst h
    simp
  · have hi : (levelIndex l).val ≠ (levelIndex k).val := fun he => h (levelIndex_injective (Fin.ext he.symm))
    simp [h, hi]

theorem State.level_setLevelState (s : State) (l k : Level) (v : LevelState) :
    (s.setLevelState l v).level k = if k = l then { s.level l with state := v } else s.level k :=
  State.level_setLevel s l k _

theorem State.level_setLevelEnabled (s : State) (l k : Level) (b : Bool) :
    (s.setLevelEnabled l b).level k = if k = l then { s.level l with enabled := b } else s.level k :=
  State.level_setLevel s l k _

/-- A trigger (R326): an installed armed level becomes waiting, everything else stays. -/
theorem level_trigger (l k : Level) (s : State) :
    (trigger l s).level k =
      if k = l ∧ installed s.cfg l = true ∧ (s.level l).state = .armed then { s.level l with state := .waiting }
      else s.level k := by
  unfold trigger
  by_cases h : installed s.cfg l && (s.level l).state == .armed
  · simp only [h, if_true]
    rw [State.level_setLevelState]
    simp only [Bool.and_eq_true, beq_iff_eq] at h
    simp [h]
  · simp only [h]
    simp only [Bool.and_eq_true, beq_iff_eq] at h
    simp [h]

/-- What a selected level is (R330, R331). -/
theorem select_some {s : State} {w : Level} (h : select s = some w) :
    w ∈ priorityChain s.cfg ∧ eligible s w = true ∧
      ∀ x ∈ (priorityChain s.cfg).takeWhile (· ≠ w), isActive s x = false ∧ eligible s x = false := by
  unfold select at h
  split at h
  · cases h
  · next v hv =>
    split at h
    · cases h
    · next hn =>
      obtain rfl : v = w := Option.some.inj h
      have hs := List.find?_eq_some_iff_append.1 hv
      obtain ⟨he, as, bs, hab, has⟩ := hs
      refine ⟨List.mem_of_find?_eq_some hv, he, fun x hx => ⟨?_, ?_⟩⟩
      · simp only [List.any_eq_true, not_exists, not_and] at hn
        exact Bool.eq_false_iff.2 (hn x hx)
      · rw [hab] at hx
        have hv' : ∀ y ∈ as, y ≠ v := fun y hy hyv => by
          have := has y hy
          rw [hyv, he] at this
          simp at this
        rw [List.takeWhile_append_of_pos (by simpa using hv')] at hx
        simp only [List.takeWhile_cons, ne_eq, not_true, decide_false, Bool.false_eq_true, if_false,
          List.append_nil] at hx
        simpa using has x hx

/-- A level an accumulator bit selects is installed and is no override level (R236). -/
theorem selectedLevel_some {c : Config} {g : Nat} {i : Fin 16} {l : Level} (h : selectedLevel c g i = some l) :
    codedLevel g i = some l ∧ installed c l = true := by
  simpa [selectedLevel, Option.filter_eq_some_iff] using h

theorem codedLevel_not_override {g : Nat} {i : Fin 16} {l : Level} (h : codedLevel g i = some l) : isOverride l = false := by
  unfold codedLevel at h
  split at h
  · unfold groupZeroLevel at h
    split at h <;> first | (cases h; rfl) | cases h
  · split at h
    · cases h
      rfl
    · cases h

/-- Two accumulator bits of one group code select different levels (R236). -/
theorem codedLevel_injective {g : Nat} {i j : Fin 16} {l : Level} (hi : codedLevel g i = some l) (hj : codedLevel g j = some l) :
    i = j := by
  unfold codedLevel at hi hj
  split at hi
  · next hg =>
    rw [if_pos hg] at hj
    have key : ∀ i j : Fin 16, groupZeroLevel i ≠ none → groupZeroLevel i = groupZeroLevel j → i = j := by decide
    exact key i j (by simp [hi]) (hi.trans hj.symm)
  · next hg =>
    rw [if_neg hg] at hj
    split at hi
    · next hr =>
      rw [if_pos hr] at hj
      have h := hi.trans hj.symm
      simp only [Option.some.injEq, Level.external.injEq] at h
      exact h.2
    · cases hi

/-! An interrupt-control operation. -/

theorem levelOpOf_cases {code : Nat} {op : LevelOp} (h : levelOpOf code = some op) :
    code = 1 ∧ op = .disarm ∨ code = 2 ∧ op = .armEnable ∨ code = 3 ∧ op = .armDisable ∨ code = 4 ∧ op = .enable ∨
      code = 5 ∧ op = .disable ∨ code = 6 ∧ op = .enableOnly ∨ code = 7 ∧ op = .trigger := by
  unfold levelOpOf at h
  split at h <;> simp_all

/-- One accumulator bit changes the level it selects as the function code says, and no other. -/
theorem level_controlBit {code : Nat} {op : LevelOp} (h : levelOpOf code = some op) (g : Nat) (a : Word) (i : Fin 16) (s : State)
    (l : Level) :
    (controlBit op g a i s).level l =
      if selectedLevel s.cfg g i = some l then levelUnder code (a.getMsbD i.val) (s.level l) else s.level l := by
  unfold controlBit
  cases hsel : selectedLevel s.cfg g i with
  | none => simp
  | some k =>
    have hi := (selectedLevel_some hsel).2
    simp only [Option.some.injEq]
    by_cases hk : k = l
    · subst hk
      rcases levelOpOf_cases h with ⟨rfl, rfl⟩ | ⟨rfl, rfl⟩ | ⟨rfl, rfl⟩ | ⟨rfl, rfl⟩ | ⟨rfl, rfl⟩ | ⟨rfl, rfl⟩ | ⟨rfl, rfl⟩ <;>
        (simp only [bitAt]
         cases a.getMsbD i.val <;>
          simp [controlLevel, levelUnder, State.level_setLevelState, State.level_setLevel, State.level_setLevelEnabled,
            level_trigger, hi])
    · have hk' : ¬ l = k := fun h => hk h.symm
      rcases levelOpOf_cases h with ⟨rfl, rfl⟩ | ⟨rfl, rfl⟩ | ⟨rfl, rfl⟩ | ⟨rfl, rfl⟩ | ⟨rfl, rfl⟩ | ⟨rfl, rfl⟩ | ⟨rfl, rfl⟩ <;>
        (cases bitAt a i.val <;>
          simp [controlLevel, State.level_setLevelState, State.level_setLevel, State.level_setLevelEnabled, level_trigger, hk, hk'])

/-- A run over accumulator bits without repeats changes each level by the one bit that selects it, if any. -/
theorem level_foldl_controlBit {code : Nat} {op : LevelOp} (h : levelOpOf code = some op) (g : Nat) (a : Word) (c : Config)
    (l : Level) (bits : List (Fin 16)) (s : State) (hs : s.cfg = c) (hn : bits.Nodup) :
    (bits.foldl (fun s i => controlBit op g a i s) s).level l =
      match bits.find? (fun i => selectedLevel c g i == some l) with
      | some i => levelUnder code (a.getMsbD i.val) (s.level l)
      | none => s.level l := by
  induction bits generalizing s with
  | nil => rfl
  | cons i bits ih =>
    simp only [List.foldl_cons, List.find?_cons]
    rw [ih _ (by simp [hs]) (List.nodup_cons.1 hn).2, level_controlBit h, hs]
    by_cases hi : selectedLevel c g i = some l
    · have : bits.find? (fun i => selectedLevel c g i == some l) = none := by
        rw [List.find?_eq_none]
        intro j hj hsel
        have hj' : selectedLevel c g j = some l := by simpa using hsel
        have := codedLevel_injective (selectedLevel_some hi).1 (selectedLevel_some hj').1
        subst this
        exact (List.nodup_cons.1 hn).1 hj
      simp [hi, this]
    · have : (selectedLevel c g i == some l) = false := by simpa using hi
      simp [hi, this]

theorem controlGroup_eq (op : LevelOp) (g : Nat) (a : Word) (s : State) :
    controlGroup op g a s = { s with levels := (controlGroup op g a s).levels } := by
  unfold controlGroup
  generalize List.finRange 16 = bits
  induction bits generalizing s with
  | nil => rfl
  | cons i bits ih => exact (ih _).trans (by simp)

end Sys2Proof.Machine
end

