-- ==== Sys2Proof/Laws/Memory.lean ====
section
/-! SUPPORT. Core memory: reading after writing, the canonical form kept by every operation, and where the entries of a memory
lie. -/

namespace Sys2Proof.Machine

@[simp] theorem byte0_joinBytes (x y : Byte) : byte0 (joinBytes x y) = x := by
  apply BitVec.eq_of_getLsbD_eq
  intro i hi
  have h := BitVec.getLsbD_append (x := x) (y := y) (i := 8 + i)
  simp only [byte0, joinBytes, BitVec.getLsbD_extractLsb', hi, decide_true, Bool.true_and]
  exact h.trans (by simp)

@[simp] theorem byte1_joinBytes (x y : Byte) : byte1 (joinBytes x y) = y := by
  apply BitVec.eq_of_getLsbD_eq
  intro i hi
  have h := BitVec.getLsbD_append (x := x) (y := y) (i := 0 + i)
  simp only [byte1, joinBytes, BitVec.getLsbD_extractLsb', hi, decide_true, Bool.true_and]
  exact h.trans (by simp [hi])

@[simp] theorem joinBytes_bytes (v : Word) : joinBytes (byte0 v) (byte1 v) = v := by
  simp only [byte0, byte1, joinBytes]
  ext i hi
  simp only [BitVec.getElem_append, BitVec.getElem_extractLsb']
  split
  · simp [BitVec.getLsbD_eq_getElem hi]
  · rw [show 8 + (i - 8) = i by omega, BitVec.getLsbD_eq_getElem hi]

/-- In a canonical memory, nothing at or below the first address is listed after it. -/
theorem Memory.readByte_of_all_gt (m : Memory) (a : Nat) (h : ∀ c ∈ m, a < c.1) : m.readByte a = unlisted := by
  induction m with
  | nil => rfl
  | cons c m ih =>
    obtain ⟨k, b⟩ := c
    have hk : a < k := h (k, b) (by simp)
    rw [Memory.readByte, if_neg (by omega)]
    exact ih fun c hc => h c (by simp [hc])

theorem Memory.mem_entry {a : Nat} {v : Byte} {m : Memory} {c : Host.Cell} (h : c ∈ Memory.entry a v m) :
    c ∈ m ∨ c.1 = a := by
  unfold Memory.entry at h
  split at h
  · exact .inl h
  · rcases List.mem_cons.1 h with rfl | h
    · exact .inr rfl
    · exact .inl h

/-- A write lists nothing new but the address written. -/
theorem Memory.mem_writeByte {m : Memory} {a : Nat} {v : Byte} {c : Host.Cell} (h : c ∈ m.writeByte a v) :
    c ∈ m ∨ c.1 = a := by
  induction m with
  | nil => exact Memory.mem_entry h
  | cons d m ih =>
    obtain ⟨k, b⟩ := d
    unfold Memory.writeByte at h
    split at h
    · exact Memory.mem_entry h
    · split at h
      · rcases Memory.mem_entry h with h | h
        · exact .inl (by simp [h])
        · exact .inr h
      · rcases List.mem_cons.1 h with rfl | h
        · exact .inl (by simp)
        · rcases ih h with h | h
          · exact .inl (by simp [h])
          · exact .inr h

theorem Memory.wf_nil : Memory.wf [] := by simp [Memory.wf]

theorem Memory.wf_tail {c : Host.Cell} {m : Memory} (h : Memory.wf (c :: m)) : Memory.wf m :=
  ⟨(List.pairwise_cons.1 h.1).2, fun d hd => h.2 d (by simp [hd])⟩

theorem Memory.wf_entry {a : Nat} {v : Byte} {m : Memory} (hm : m.wf) (h : ∀ c ∈ m, a < c.1) : (Memory.entry a v m).wf := by
  unfold Memory.entry
  split
  · exact hm
  · refine ⟨List.pairwise_cons.2 ⟨h, hm.1⟩, fun c hc => ?_⟩
    rcases List.mem_cons.1 hc with rfl | hc
    · assumption
    · exact hm.2 c hc

/-- Storing a byte keeps the canonical form. -/
theorem Memory.wf_writeByte {m : Memory} (a : Nat) (v : Byte) (h : m.wf) : (m.writeByte a v).wf := by
  induction m with
  | nil => exact Memory.wf_entry h (by simp)
  | cons d m ih =>
    obtain ⟨k, b⟩ := d
    have hk := (List.pairwise_cons.1 h.1).1
    unfold Memory.writeByte
    split
    · refine Memory.wf_entry h fun c hc => ?_
      rcases List.mem_cons.1 hc with rfl | hc
      · assumption
      · have := hk c hc
        omega
    · split
      · subst a
        exact Memory.wf_entry (Memory.wf_tail h) hk
      · refine ⟨List.pairwise_cons.2 ⟨fun c hc => ?_, (ih (Memory.wf_tail h)).1⟩, fun c hc => ?_⟩
        · rcases Memory.mem_writeByte hc with hc | hc
          · exact hk c hc
          · simp only [hc]
            omega
        · rcases List.mem_cons.1 hc with rfl | hc
          · exact h.2 _ (by simp)
          · exact (ih (Memory.wf_tail h)).2 c hc

theorem Memory.readByte_entry {a b : Nat} {v : Byte} {m : Memory} (h : ∀ c ∈ m, a < c.1) :
    (Memory.entry a v m).readByte b = if b = a then v else m.readByte b := by
  unfold Memory.entry
  split
  · subst v
    split
    · subst b
      exact Memory.readByte_of_all_gt m a h
    · rfl
  · rw [Memory.readByte]
    split <;> split <;> first | rfl | omega

/-- Reading after writing: the byte written, and every other byte as before. -/
theorem Memory.readByte_writeByte {m : Memory} (a b : Nat) (v : Byte) (h : m.wf) :
    (m.writeByte a v).readByte b = if b = a then v else m.readByte b := by
  induction m with
  | nil => exact Memory.readByte_entry (by simp)
  | cons d m ih =>
    obtain ⟨k, x⟩ := d
    have hk := (List.pairwise_cons.1 h.1).1
    unfold Memory.writeByte
    split
    · refine Memory.readByte_entry fun c hc => ?_
      rcases List.mem_cons.1 hc with rfl | hc
      · assumption
      · have := hk c hc
        omega
    · split
      · subst a
        rw [Memory.readByte_entry hk]
        split
        · rfl
        · rw [Memory.readByte, if_neg (by omega)]
      · rw [Memory.readByte, Memory.readByte, ih (Memory.wf_tail h)]
        split <;> split <;> first | rfl | omega

/-- Storing a word keeps the canonical form. -/
theorem Memory.wf_writeWord {m : Memory} (a : Nat) (v : Word) (h : m.wf) : (m.writeWord a v).wf :=
  Memory.wf_writeByte _ _ (Memory.wf_writeByte _ _ h)

/-- The bytes of a memory in which a word was stored. -/
theorem Memory.readByte_writeWord {m : Memory} (a b : Nat) (v : Word) (h : m.wf) :
    (m.writeWord a v).readByte b =
      if b = 2 * a + 1 then byte1 v else if b = 2 * a then byte0 v else m.readByte b := by
  unfold Memory.writeWord
  rw [Memory.readByte_writeByte _ _ _ (Memory.wf_writeByte _ _ h), Memory.readByte_writeByte _ _ _ h]

/-- The words of a memory in which a word was stored. -/
theorem Memory.readWord_writeWord {m : Memory} (a b : Nat) (v : Word) (h : m.wf) :
    (m.writeWord a v).readWord b = if b = a then v else m.readWord b := by
  unfold Memory.readWord
  rw [Memory.readByte_writeWord _ _ _ h, Memory.readByte_writeWord _ _ _ h]
  by_cases hb : b = a
  · subst b
    simp
  · rw [if_neg (by omega), if_neg (by omega), if_neg (by omega), if_neg (by omega), if_neg hb]

/-- Where the entries of a memory lie after a word was stored. -/
theorem Memory.mem_writeWord {m : Memory} {a : Nat} {v : Word} {c : Host.Cell} (h : c ∈ m.writeWord a v) :
    c ∈ m ∨ c.1 = 2 * a ∨ c.1 = 2 * a + 1 := by
  rcases Memory.mem_writeByte h with h | h
  · rcases Memory.mem_writeByte h with h | h
    · exact .inl h
    · exact .inr (.inl h)
  · exact .inr (.inr h)

theorem mem_insertAddress {l : List Nat} {a b : Nat} (h : b ∈ insertAddress l a) : b ∈ l ∨ b = a := by
  induction l with
  | nil => simpa [insertAddress] using h
  | cons k l ih =>
    unfold insertAddress at h
    split at h
    · rcases List.mem_cons.1 h with h | h
      · exact .inr h
      · exact .inl h
    · split at h
      · exact .inl h
      · rcases List.mem_cons.1 h with h | h
        · exact .inl (by simp [h])
        · rcases ih h with h | h
          · exact .inl (by simp [h])
          · exact .inr h

/-- Putting an address into a strictly rising list keeps it so. -/
theorem sorted_insertAddress {l : List Nat} (a : Nat) (h : l.Pairwise (· < ·)) : (insertAddress l a).Pairwise (· < ·) := by
  induction l with
  | nil => simp [insertAddress]
  | cons k l ih =>
    have hk := List.pairwise_cons.1 h
    unfold insertAddress
    split
    · refine List.pairwise_cons.2 ⟨fun b hb => ?_, h⟩
      rcases List.mem_cons.1 hb with rfl | hb
      · assumption
      · have := hk.1 b hb
        omega
    · split
      · exact h
      · refine List.pairwise_cons.2 ⟨fun b hb => ?_, ih hk.2⟩
        rcases mem_insertAddress hb with hb | rfl
        · exact hk.1 b hb
        · omega

theorem sorted_removeAddress {l : List Nat} (a : Nat) (h : l.Pairwise (· < ·)) : (removeAddress l a).Pairwise (· < ·) :=
  List.Pairwise.sublist List.filter_sublist h

/-! Memory in the state. -/

/-- The word at an address of a state in which a word was stored: R63 and R65 for one word. -/
theorem State.wordAt_storeWord (s : State) (a v b : Word) (h : s.mem.wf) :
    (s.storeWord a v).wordAt b = if b = a ∧ s.existsAt a = true then v else s.wordAt b := by
  by_cases ha : s.existsAt a = true
  · have hs : s.storeWord a v =
        { s with mem := s.mem.writeWord a.toNat v, badParity := removeAddress s.badParity a.toNat } := by
      simp [State.storeWord, ha]
    rw [hs]
    by_cases hb : b = a
    · subst b
      have hx : State.existsAt
          { s with mem := s.mem.writeWord a.toNat v, badParity := removeAddress s.badParity a.toNat } a = true := ha
      simp [State.wordAt, hx, ha, Memory.readWord_writeWord _ _ _ h]
    · have hn : b.toNat ≠ a.toNat := fun he => hb (BitVec.eq_of_toNat_eq he)
      simp [State.wordAt, State.existsAt, Memory.readWord_writeWord _ _ _ h, hb, hn]
  · simp [State.storeWord, ha]

/-- A store to a location that does not exist changes nothing (R63). -/
theorem State.storeWord_absent (s : State) (a v : Word) (h : s.existsAt a = false) : s.storeWord a v = s := by
  simp [State.storeWord, h]

/-- A store keeps the canonical form. -/
theorem State.wf_storeWord (s : State) (a v : Word) (h : s.mem.wf) : (s.storeWord a v).mem.wf := by
  unfold State.storeWord
  split
  · exact Memory.wf_writeWord _ _ h
  · exact h

theorem reset_memory_wf (c : Config) (p : Panel) : (State.resetWith c p).mem.wf := Memory.wf_nil

end Sys2Proof.Machine
end

