-- ==== Sys2Proof/Laws/Ops.lean ====
section
/-! SUPPORT. What each shared operation can do, said once: the fetch check, the protection tests, a checked read, taking an
exception, a store, and the combinators the meanings are written with. -/

namespace Sys2Proof.Machine

/-! Addresses. -/

/-- A 9-bit offset added to an address, as integers (R101, R160). -/
theorem add_sext9 (h : Word) (k : BitVec 9) : h + sext9 k = BitVec.ofInt 16 (h.toNat + k.toInt) := by
  have hk : sext9 k = BitVec.ofInt 16 k.toInt := by
    apply BitVec.eq_of_toInt_eq
    simp only [sext9]
    rw [BitVec.toInt_signExtend_of_le (by omega), BitVec.toInt_ofInt]
    have := BitVec.toInt_lt (x := k)
    have := BitVec.le_toInt (x := k)
    rw [Int.bmod_eq_of_le] <;> omega
  rw [hk, BitVec.ofInt_add]
  congr 1
  simp

/-! Registers. -/

/-- Reading a general register after writing one (R22). -/
theorem State.getReg_setReg (s : State) (r q : Reg) (v : Word) :
    (s.setReg r v).getReg q = if q = r ∧ q ≠ .z then v else s.getReg q := by
  cases r <;> cases q <;> rfl

/-- A write of a general register changes nothing else. -/
theorem State.setReg_eq (s : State) (r : Reg) (v : Word) : s.setReg r v = { s with regs := (s.setReg r v).regs } := by
  cases r <;> rfl

theorem regWritten_setReg (s : State) (r : Reg) (v : Word) : RegWritten s (s.setReg r v) r v := fun q => s.getReg_setReg r q v

@[simp] theorem State.getReg_setOC (s : State) (o c : Bool) (r : Reg) : (s.setOC o c).getReg r = s.getReg r := by
  cases r <;> rfl

/-! The fetch check and the protection tests. -/

/-- A fetch check that passes changes no more than PP. -/
theorem fetchCheck_ok {s x : State} (h : fetchCheck s = .ok x) : x = { s with ind := x.ind } := by
  unfold fetchCheck at h
  split at h
  · cases h
  · split at h <;> (simp only [Except.ok.injEq] at h; subst h; rfl)

/-- A fetch check that passes changes no more than PP, and that only with the option (R362). -/
theorem fetchCheck_ind {s x : State} (h : fetchCheck s = .ok x) :
    x.ind = if s.cfg.protect then { s.ind with pp := s.protBit s.h } else s.ind := by
  unfold fetchCheck at h
  split at h
  · cases h
  · split at h
    · next hp =>
      simp only [Except.ok.injEq] at h
      subst h
      simp [hp]
    · next hp =>
      simp only [Except.ok.injEq] at h
      subst h
      simp [hp]

/-- The one error of the fetch check. -/
theorem fetchCheck_error {s : State} {t : Trap} (h : fetchCheck s = .error t) : t = .protection := by
  unfold fetchCheck at h
  split at h
  · cases h
    rfl
  · split at h <;> cases h

theorem checkPrivileged_ok {s : State} (h : s.MayControl) : checkPrivileged s = .ok () := by
  unfold checkPrivileged
  rcases h with h | h | h <;> simp [h]

theorem checkPrivileged_error {s : State} (h : ¬ s.MayControl) : checkPrivileged s = .error .protection := by
  simp only [State.MayControl, not_or, Bool.not_eq_false, Bool.not_eq_true] at h
  simp [checkPrivileged, h]

theorem checkStore_ok {s : State} {a : Word} (h : s.MayStore a) : checkStore s a = .ok () := by
  unfold checkStore
  rcases h with h | h | h | h <;> simp [h]

theorem checkStore_error {s : State} {a : Word} (h : ¬ s.MayStore a) : checkStore s a = .error .protection := by
  simp only [State.MayStore, not_or, Bool.not_eq_false, Bool.not_eq_true] at h
  simp [checkStore, h]

/-! Taking an exception. -/

/-- An abort that signals a level, with the wait flip-flop as given (R350). -/
theorem trigger_eq (l : Level) (s : State) : trigger l s = { s with levels := (trigger l s).levels } := by
  unfold trigger
  split <;> rfl

theorem levelSignalled_trigger (l : Level) (s : State) : LevelSignalled l s (trigger l s) := fun k => level_trigger l k s

theorem abortedTo_trigger (l : Level) (s : State) (w : Bool) : AbortedTo l s (trigger l { s.abort with wff := w }) w := by
  constructor
  · unfold trigger
    split <;> rfl
  · intro k
    rw [level_trigger]
    rfl

theorem abortedTo_protection (s : State) : AbortedTo .protection s (takeTrap .protection s) s.wff :=
  abortedTo_trigger .protection s s.wff

theorem abortedTo_multiply (s : State) : AbortedTo .multiply s (takeTrap .multiply s) s.wff :=
  abortedTo_trigger .multiply s s.wff

theorem abortedTo_divide (s : State) : AbortedTo .divide s (takeTrap .divide s) s.wff :=
  abortedTo_trigger .divide s s.wff

theorem abortedTo_parity (s : State) : AbortedTo .memoryParity s (takeTrap .parityInterrupt s) true :=
  abortedTo_trigger .memoryParity s true

/-- What taking any exception leaves of the levels: at most a level of the override group goes from armed to waiting. -/
theorem level_takeTrap (t : Trap) (s : State) (l : Level) :
    (takeTrap t s).level l = s.level l ∨
      isOverride l = true ∧ installed s.cfg l = true ∧ (s.level l).state = .armed ∧
        (takeTrap t s).level l = { s.level l with state := .waiting } := by
  have key : ∀ (k : Level) (u : State), isOverride k = true → u.cfg = s.cfg → u.levels = s.levels →
      (trigger k u).level l = s.level l ∨
        isOverride l = true ∧ installed s.cfg l = true ∧ (s.level l).state = .armed ∧
          (trigger k u).level l = { s.level l with state := .waiting } := by
    intro k u hk hc hl
    have he : ∀ x, u.level x = s.level x := State.level_congr hl
    rw [level_trigger, hc, he, he]
    split
    · next h =>
      obtain ⟨rfl, hi, ha⟩ := h
      exact .inr ⟨hk, hi, ha, rfl⟩
    · exact .inl rfl
  cases t
  · exact key .protection s.abort rfl rfl rfl
  · exact key .multiply s.abort rfl rfl rfl
  · exact key .divide s.abort rfl rfl rfl
  · exact .inl rfl
  · exact key .memoryParity { s.abort with wff := true } rfl rfl rfl

/-! Stores. -/

theorem mem_removeAddress {l : List Nat} {a k : Nat} : k ∈ removeAddress l a ↔ k ∈ l ∧ k ≠ a := by
  simp [removeAddress]

/-- A store of a word says what WordStored says. -/
theorem wordStored_storeWord (s : State) (a v : Word) (h : s.mem.wf) : WordStored s (s.storeWord a v) a v := by
  unfold State.storeWord
  split
  · next he =>
    refine ⟨fun _ => by simp [Memory.readWord_writeWord _ _ _ h], fun b hb => ?_, fun k => by simp [mem_removeAddress, he]⟩
    have := hb he
    simp [Memory.readByte_writeWord _ _ _ h, this]
  · next he =>
    simp only [Bool.not_eq_true] at he
    exact ⟨by simp [he], by simp, by simp [he]⟩

/-- A store makes the parity of its word good and changes no other's. -/
theorem parityMended_storeWord (s : State) (a v : Word) : ParityMended s (s.storeWord a v) [a] := by
  intro k
  unfold State.storeWord
  split <;> next h => simp [mem_removeAddress, h]

/-- A store of a word changes memory and its parity only. -/
theorem State.storeWord_eq (s : State) (a v : Word) :
    s.storeWord a v = { s with mem := (s.storeWord a v).mem, badParity := (s.storeWord a v).badParity } := by
  unfold State.storeWord
  split <;> rfl

/-! The combinators. -/

theorem withAddr_ok {m : MemRef} {s : State} {ea : Word} {k : Word → Result} (h : Addresses m s ea) : withAddr m s k = k ea := by
  simp [withAddr, unlessExit, h.1, h.2, attempt]

theorem withAddr_error {m : MemRef} {s : State} {t : Trap} {k : Word → Result} (he : s.exitCond = false)
    (h : effAddr m s = .error t) : withAddr m s k = .next (takeTrap t s) := by
  simp [withAddr, unlessExit, he, h, attempt]

theorem withOperand_ok {m : MemRef} {s : State} {ea v : Word} {k : Word → Result} (h : Reads m s ea v) :
    withOperand m s k = k v := by
  rw [withOperand, withAddr_ok h.1]
  simp [attempt, h.2]

/-- The two aborts of an instruction that reads its operand. -/
theorem withOperand_error {m : MemRef} {s : State} {k : Word → Result} (he : s.exitCond = false) :
    (∀ t, effAddr m s = .error t → withOperand m s k = .next (takeTrap t s)) ∧
      ∀ ea t, effAddr m s = .ok ea → readChecked s ea = .error t → withOperand m s k = .next (takeTrap t s) := by
  refine ⟨fun t h => withAddr_error he h, fun ea t h h2 => ?_⟩
  rw [withOperand, withAddr_ok ⟨he, h⟩]
  simp [attempt, h2]

/-- How a meaning written with `attempt` reaches a next state. -/
theorem attempt_next {α : Type} {s t : State} {r : Except Trap α} {k : α → Result} (h : attempt s r k = .next t) :
    (∃ v, r = .ok v ∧ k v = .next t) ∨ ∃ x, r = .error x ∧ t = takeTrap x s := by
  cases r with
  | ok v => exact .inl ⟨v, rfl, h⟩
  | error x => exact .inr ⟨x, rfl, by simpa [attempt] using h.symm⟩

theorem unlessExit_next {s t : State} {k : Result} (h : unlessExit s k = .next t) : s.exitCond = false ∧ k = .next t := by
  unfold unlessExit at h
  split at h
  · cases h
  · next he => exact ⟨by simpa using he, h⟩

theorem withAddr_next {m : MemRef} {s t : State} {k : Word → Result} (h : withAddr m s k = .next t) :
    s.exitCond = false ∧
      ((∃ ea, effAddr m s = .ok ea ∧ k ea = .next t) ∨ ∃ x, effAddr m s = .error x ∧ t = takeTrap x s) := by
  obtain ⟨he, h⟩ := unlessExit_next h
  exact ⟨he, attempt_next h⟩

theorem withOperand_next {m : MemRef} {s t : State} {k : Word → Result} (h : withOperand m s k = .next t) :
    s.exitCond = false ∧ ((∃ v, k v = .next t) ∨ ∃ x, t = takeTrap x s) := by
  obtain ⟨he, ⟨ea, -, h⟩ | ⟨x, -, h⟩⟩ := withAddr_next h
  · rcases attempt_next h with ⟨v, -, h⟩ | ⟨x, -, h⟩
    · exact ⟨he, .inl ⟨v, h⟩⟩
    · exact ⟨he, .inr ⟨x, h⟩⟩
  · exact ⟨he, .inr ⟨x, h⟩⟩

/-! The environment. -/

/-- With no device pending the held I/O signal does nothing (R275). -/
theorem holdIoSignal_none {s : State} (h : ∀ d ∈ s.devices, d.pending = false) : holdIoSignal s = s := by
  have hd : s.devices.any (·.pending) = false := by simpa using h
  simp [holdIoSignal, hd]

end Sys2Proof.Machine
end

