-- ==== Sys2Proof/Laws/Arith.lean ====
section
/-! SUPPORT. The flag computations and the copy operands in the terms of Safety.lean: signed overflow as a range, the sign of a word,
the source and the increment of a copy, a doubleword loaded into E and A. -/

namespace Sys2Proof.Machine

theorem toInt_cases (v : Word) : v.toInt = if v.toNat < 32768 then (v.toNat : Int) else (v.toNat : Int) - 65536 := by
  rw [BitVec.toInt_eq_toNat_cond]
  split <;> split <;> omega

/-- The sign bit says whether the value is negative (R11). -/
theorem bitAt_sign (v : Word) : bitAt v 0 = decide (v.toInt < 0) := by
  rw [← BitVec.msb_eq_toInt]
  simp [bitAt, BitVec.msb]

theorem bitAt_sign_unsigned (v : Word) : bitAt v 0 = decide (32768 ≤ v.toNat) := by
  rw [bitAt_sign, decide_eq_decide]
  have hc := toInt_cases v
  have hl := v.isLt
  split at hc <;> omega

/-- The overflow of an add, with a carry into it, is the signed sum leaving its range (R127, R130). -/
theorem addOverflow_eq (d s : Word) (n : Nat) (hn : n ≤ 1) :
    addOverflow d s (BitVec.ofNat 16 (d.toNat + s.toNat + n)) = outOfRange (d.toInt + s.toInt + n) := by
  simp only [addOverflow, bitAt_sign_unsigned, outOfRange, toInt_cases, BitVec.toNat_ofNat]
  have := d.isLt
  have := s.isLt
  rw [Bool.eq_iff_iff]
  simp only [Bool.and_eq_true, Bool.or_eq_true, beq_iff_eq, bne_iff_ne, ne_eq, decide_eq_decide, decide_eq_true_eq]
  split <;> split <;> omega

/-- The overflow of a subtract is the signed difference leaving its range (R129, R130). -/
theorem subOverflow_eq (a m : Word) : subOverflow a m (a - m) = outOfRange (a.toInt - m.toInt) := by
  simp only [subOverflow, bitAt_sign_unsigned, outOfRange, toInt_cases, BitVec.toNat_sub]
  have := a.isLt
  have := m.isLt
  rw [Bool.eq_iff_iff]
  simp only [Bool.and_eq_true, Bool.or_eq_true, beq_iff_eq, bne_iff_ne, ne_eq, decide_eq_decide, decide_eq_true_eq]
  split <;> split <;> omega

theorem subtractSum_eq (a m : Word) : BitVec.ofNat 16 (subtractSum a m) = a - m := by
  apply BitVec.eq_of_toNat_eq
  simp [subtractSum, BitVec.toNat_sub]
  have := m.isLt
  congr 1
  omega

theorem carryOut_subtractSum (a m : Word) : carryOut (subtractSum a m) = decide (m.toNat ≤ a.toNat) := by
  rw [carryOut, subtractSum, Bool.eq_iff_iff, decide_eq_true_iff, decide_eq_true_iff]
  have := m.isLt
  have := a.isLt
  omega

/-- The status word in weights (R31). -/
theorem statusWord_eq (i : Indicators) : statusWord i = statusValue i := by
  rcases i with ⟨a, b, c, d, e⟩
  cases a <;> cases b <;> cases c <;> cases d <;> cases e <;> rfl

/-- E:A holds the doubleword loaded into it. -/
theorem State.pair_setPair (s : State) (v : BitVec 32) : (s.setPair v).regs.e ++ (s.setPair v).regs.a = v := by
  simp only [State.setPair, State.setReg]
  apply BitVec.eq_of_getLsbD_eq
  intro i hi
  simp only [BitVec.getLsbD_append, BitVec.getLsbD_extractLsb']
  by_cases h : i < 16
  · simp [h]
  · have : i - 16 < 16 := by omega
    simp [h, this, show 16 + (i - 16) = i by omega]

/-- The one's complement as an exclusive OR with ones. -/
theorem complement_eq_xor (v : Word) : ~~~ v = v ^^^ 0xFFFF := by
  rw [show (0xFFFF : Word) = BitVec.allOnes 16 from rfl, BitVec.xor_allOnes]

theorem copySource_eq (c : CopyArgs) (s : State) :
    copySource c s = if c.invert then s.getReg c.src ^^^ 0xFFFF else s.getReg c.src := by
  simp [copySource, complement_eq_xor]

theorem copyIncrement_eq (ac ai : Bool) (s : State) : copyIncrement ac ai s = if ai then 1 else if ac && s.ind.c then 1 else 0 := by
  unfold copyIncrement
  cases ai <;> cases ac <;> cases s.ind.c <;> rfl

/-- What a copy can do: the destination is written; the add also writes O and C, the logical operations do not (R182, R183). -/
theorem copyOp_spec (op : CopyOp) (ac ai cd : Bool) (c : CopyArgs) (s : State) :
    RegWritten s (copyOp op ac ai cd c s) c.dst
        (BitVec.ofNat 16 (copySum op (copyDest cd c s) (copySource c s) (copyIncrement ac ai s))) ∧
      (op ≠ .add → copyOp op ac ai cd c s = { s with regs := (copyOp op ac ai cd c s).regs }) ∧
      ∃ o cy, OnlyRegsOC s (copyOp op ac ai cd c s) o cy := by
  have hw : ∀ v o cy, RegWritten s ((s.setReg c.dst v).setOC o cy) c.dst v := fun v o cy q => by
    rw [State.getReg_setOC]
    exact s.getReg_setReg c.dst q v
  have ho : ∀ v o cy, OnlyRegsOC s ((s.setReg c.dst v).setOC o cy) o cy := fun v o cy => by
    unfold OnlyRegsOC
    conv_lhs => rw [State.setReg_eq]
    rfl
  have hn : ∀ v, OnlyRegsOC s (s.setReg c.dst v) s.ind.o s.ind.c := fun v => by
    unfold OnlyRegsOC
    conv_lhs => rw [State.setReg_eq]
  cases op
  · exact ⟨regWritten_setReg _ _ _, fun _ => State.setReg_eq _ _ _, _, _, hn _⟩
  · exact ⟨regWritten_setReg _ _ _, fun _ => State.setReg_eq _ _ _, _, _, hn _⟩
  · exact ⟨regWritten_setReg _ _ _, fun _ => State.setReg_eq _ _ _, _, _, hn _⟩
  · exact ⟨hw _ _ _, fun h => absurd rfl h, _, _, ho _ _ _⟩

end Sys2Proof.Machine
end

