-- ==== Sys2Proof/Laws/Channel.lean ====
section
/-! SUPPORT. What can be said once about the device list and the channel registers: the device a number finds after each update,
the answers to SIO, the value of a channel register after a write, what a byte of service does to them and to memory, and the end
of an operation. -/

namespace Sys2Proof.Machine

/-! Devices. -/

theorem State.findDevice_number {s : State} {dev : Byte} {d : Device} (h : s.findDevice dev = some d) : d.number = dev := by
  simpa using List.find?_some h

theorem find_map_device (l : List Device) (f : Device → Device) (hf : ∀ d, (f d).number = d.number) (n : Byte) :
    (l.map f).find? (·.number == n) = (l.find? (·.number == n)).map f := by
  induction l with
  | nil => rfl
  | cons d l ih =>
    simp only [List.map_cons, List.find?_cons, hf, ih]
    cases d.number == n <;> rfl

theorem State.findDevice_updateDevice (s : State) (dev n : Byte) (f : Device → Device) (hf : ∀ d, (f d).number = d.number) :
    (s.updateDevice dev f).findDevice n = (s.findDevice n).map fun d => if n = dev then f d else d := by
  simp only [State.updateDevice, State.findDevice]
  rw [find_map_device _ _ (by intro d; split <;> simp [hf])]
  cases h : s.devices.find? (·.number == n) with
  | none => rfl
  | some d =>
    have := State.findDevice_number (s := s) h
    subst this
    simp

theorem State.findDevice_setController (s : State) (dev n : Byte) (c : Condition) :
    (s.setController dev c).findDevice n =
      (s.findDevice n).map fun d => if sameController n dev then { d with controller := c } else d := by
  simp only [State.setController, State.findDevice]
  rw [find_map_device _ _ (by intro d; split <;> rfl)]
  cases h : s.devices.find? (·.number == n) with
  | none => rfl
  | some d =>
    have := State.findDevice_number (s := s) h
    subst this
    simp

@[simp] theorem sameController_self (n : Byte) : sameController n n = true := by simp [sameController]

theorem ne_of_not_sameController {n dev : Byte} (h : sameController n dev = false) : n ≠ dev := by
  rintro rfl
  simp at h

/-- The device after its SIO is accepted. -/
theorem State.findDevice_startDevice (s : State) (dev : Byte) (o : OrderSource) :
    (s.startDevice dev o).findDevice dev =
      (s.findDevice dev).map fun d => { d with condition := .busy, order := o, controller := .busy } := by
  rw [State.startDevice, State.findDevice_setController, State.findDevice_updateDevice]
  · simp [Function.comp_def]
  · exact fun _ => rfl

/-- A device of another controller is not touched by the start of an operation. -/
theorem State.findDevice_startDevice_other (s : State) {dev n : Byte} (o : OrderSource) (h : sameController n dev = false) :
    (s.startDevice dev o).findDevice n = s.findDevice n := by
  rw [State.startDevice, State.findDevice_setController, State.findDevice_updateDevice]
  · simp [h, ne_of_not_sameController h]
  · exact fun _ => rfl

/-- The other devices after an SIO is accepted. -/
theorem othersShow_startDevice (s : State) (dev : Byte) (o : OrderSource) : OthersShow .busy dev s (s.startDevice dev o) := by
  intro n h
  rw [State.startDevice, State.findDevice_setController, State.findDevice_updateDevice _ _ _ _ (by intro; rfl)]
  simp [h]

/-- The other devices after an operation ends. -/
theorem othersShow_endDevice (s : State) (dev : Byte) : OthersShow .ready dev s (s.endDevice dev) := by
  intro n h
  rw [State.endDevice, State.findDevice_setController, State.findDevice_updateDevice _ _ _ _ (by intro; rfl)]
  simp [h]

/-- The device after its operation ends. -/
theorem State.findDevice_endDevice (s : State) (dev : Byte) :
    (s.endDevice dev).findDevice dev =
      (s.findDevice dev).map fun d => { d with condition := .ready, order := .notAwaited, controller := .ready } := by
  rw [State.endDevice, State.findDevice_setController, State.findDevice_updateDevice]
  · simp [Function.comp_def]
  · exact fun _ => rfl

/-- A device of another controller is not touched by the end of an operation. -/
theorem State.findDevice_endDevice_other (s : State) {dev n : Byte} (h : sameController n dev = false) :
    (s.endDevice dev).findDevice n = s.findDevice n := by
  rw [State.endDevice, State.findDevice_setController, State.findDevice_updateDevice]
  · simp [h, ne_of_not_sameController h]
  · exact fun _ => rfl

/-- Every device after the end of an operation of one. -/
theorem State.findDevice_endDevice_any (s : State) (dev n : Byte) :
    (s.endDevice dev).findDevice n = (s.findDevice n).map fun d =>
      (if sameController n dev then (fun d : Device => { d with controller := .ready }) else id)
        (if n = dev then { d with condition := .ready, order := .notAwaited } else d) := by
  rw [State.endDevice, State.findDevice_setController, State.findDevice_updateDevice _ _ _ _ (by intro; rfl)]
  cases s.findDevice n <;> simp
  cases sameController n dev <;> simp

/-- A device interrupt that is raised unless a condition holds. -/
theorem raiseDevice_unless (s : State) (dev : Byte) (c : Prop) [Decidable c] :
    (if c then s else s.raiseDevice dev) = { s with devices := (if c then s else s.raiseDevice dev).devices } ∧
      ∀ n, (if c then s else s.raiseDevice dev).findDevice n =
        (s.findDevice n).map fun d => if n = dev then { d with pending := d.pending || decide (¬ c) } else d := by
  by_cases h : c
  · simp only [h, if_true]
    refine ⟨trivial, fun n => ?_⟩
    simp
  · simp only [h, if_false]
    refine ⟨rfl, fun n => ?_⟩
    rw [State.raiseDevice, State.findDevice_updateDevice _ _ _ _ (by intro; rfl)]
    simp

theorem State.findDevice_congr {s t : State} (h : s.devices = t.devices) (n : Byte) : s.findDevice n = t.findDevice n := by
  simp [State.findDevice, h]

theorem Device.operates_iff (d : Device) : d.operates = true ↔ d.own.automatic = true ∨ d.order = .notAwaited := by
  simp [Device.operates]

theorem canStart_iff (d : Device) : canStart d = true ↔ d.condition = .ready ∧ d.controller = .ready ∧ d.pending = false := by
  simp [canStart, and_assoc]

/-! The three answers to SIO. -/

theorem startIo_notRecognized {s : State} (o : OrderSource) (h : s.findDevice (byte1 s.regs.a) = none) :
    startIo o s = { s with ind.o := true, ind.c := true } := by
  simp [startIo, h, State.noResponse, State.setOC]

theorem startIo_notAccepted {s : State} {d : Device} (o : OrderSource) (h : s.findDevice (byte1 s.regs.a) = some d)
    (hs : canStart d = false) :
    startIo o s = { s with regs.a := statusByte d ++ byte1 s.regs.a, ind.o := false, ind.c := true } := by
  simp [startIo, h, hs, State.respond, State.setReg, State.setOC]

/-- The status shows the device before or after acceptance (U21). -/
theorem startIo_accepted {s : State} {d : Device} (o : OrderSource) (h : s.findDevice (byte1 s.regs.a) = some d)
    (hs : canStart d = true) :
    ∃ st, startIo o s =
        { s with
          regs.a := st ++ byte1 s.regs.a, ind.o := false, ind.c := false
          devices := (s.startDevice (byte1 s.regs.a) o).devices } ∧
      (st = statusByte d ∨ st = statusByte { d with condition := .busy, controller := .busy }) := by
  refine ⟨statusByte (if d.own.sioShowsBusy then { d with condition := .busy, controller := .busy } else d), ?_,
    by cases d.own.sioShowsBusy <;> simp⟩
  simp only [startIo, h, hs, if_true]
  rfl

/-! Channel registers. -/

theorem channelOf_some {c : Config} {dev : Byte} {ch : Nat} (h : channelOf c dev = some ch) : ch < c.channels := by
  simp only [channelOf] at h
  split at h <;> simp_all <;> omega

theorem hasChannelReg_even {c : Config} {ch : Nat} (h : ch < c.channels) (hc : c.channels ≤ 20) :
    hasChannelReg c (evenReg ch) = true := by
  unfold hasChannelReg evenReg
  rw [decide_eq_true (by omega), decide_eq_true (by omega), decide_eq_true (by omega)]
  rfl

theorem hasChannelReg_odd {c : Config} {ch : Nat} (h : ch < c.channels) (hc : c.channels ≤ 20) :
    hasChannelReg c (oddReg ch) = true := by
  unfold hasChannelReg oddReg
  rw [decide_eq_true (by omega), decide_eq_true (by omega), decide_eq_true (by omega)]
  rfl

/-- One channel register holds the value written, if the number names one; every other what it held. -/
theorem State.getChannel_setChannel (s : State) (n k : Nat) (v : Word) (hk : 8 ≤ k) (hk' : k < 48) :
    (s.setChannel n v).getChannel k = if hasChannelReg s.cfg n = true ∧ n = k then v else s.getChannel k := by
  unfold State.setChannel
  split
  · next h =>
    have hn : 8 ≤ n ∧ n < 48 := by simp [hasChannelReg] at h; omega
    simp only [State.getChannel, h, true_and]
    by_cases e : n = k
    · subst e
      simp [Vector.get_eq_getElem]
    · have : (n - 8) % 40 ≠ (k - 8) % 40 := by omega
      simp [Vector.get_eq_getElem, e, this]
  · next h => simp [h]

theorem State.setChannel_eq (s : State) (n : Nat) (v : Word) : s.setChannel n v = { s with chan := (s.setChannel n v).chan } := by
  unfold State.setChannel
  split <;> rfl

theorem State.getChannel_congr {s t : State} (h : s.chan = t.chan) (n : Nat) : s.getChannel n = t.getChannel n := by
  simp [State.getChannel, h]

/-! The channel. -/

theorem State.setChannel_form (s : State) (n : Nat) (v : Word) : ∃ c, s.setChannel n v = { s with chan := c } :=
  ⟨_, s.setChannel_eq n v⟩

theorem State.setError_form (s : State) (ch : Nat) (err : Bool) : ∃ c, s.setError ch err = { s with chan := c } := by
  unfold State.setError
  split
  · exact s.setChannel_form _ _
  · exact ⟨_, rfl⟩

/-- A move of a byte changes memory or what has been sent, and the E flag of its channel. -/
theorem moveByte_output (ch : Nat) (dev : Byte) (s : State) :
    moveByte ch dev .output s =
      { s with
        chan := (moveByte ch dev .output s).chan
        env.sent :=
          .channelByte dev
            (if (s.getChannel (oddReg ch)).getLsbD 0 then byte1 (s.wordAt (s.getChannel (evenReg ch)))
              else byte0 (s.wordAt (s.getChannel (evenReg ch)))) :: s.env.sent } := by
  simp only [moveByte]
  obtain ⟨c, h⟩ := State.setError_form (s.send (.channelByte dev (if (s.getChannel (oddReg ch)).getLsbD 0 then
    byte1 (s.wordAt (s.getChannel (evenReg ch))) else byte0 (s.wordAt (s.getChannel (evenReg ch)))))) ch
    (s.parityEvent (s.getChannel (evenReg ch)))
  rw [h]
  rfl

theorem moveByte_input (ch : Nat) (dev b : Byte) (ok : Bool) (s : State) :
    moveByte ch dev (.input b ok) s =
      { s.storeWord (s.getChannel (evenReg ch))
          (putByte ((s.getChannel (oddReg ch)).getLsbD 0) (s.wordAt (s.getChannel (evenReg ch))) b) with
        chan := (moveByte ch dev (.input b ok) s).chan } := by
  simp only [moveByte]
  obtain ⟨c, h⟩ := State.setError_form (s.storeWord (s.getChannel (evenReg ch))
    (putByte ((s.getChannel (oddReg ch)).getLsbD 0) (s.wordAt (s.getChannel (evenReg ch))) b)) ch (!ok)
  rw [h]

theorem getChannel_setError (s : State) {ch : Nat} (err : Bool) (h : hasChannelReg s.cfg (oddReg ch) = true) {n : Nat} (hn : 8 ≤ n)
    (hn' : n < 48) :
    (s.setError ch err).getChannel n = if err = true ∧ n = oddReg ch then s.getChannel (oddReg ch) ||| iocdError else s.getChannel n := by
  cases err
  · simp [State.setError]
  · simp only [State.setError, if_true, State.getChannel_setChannel _ _ _ _ hn hn', h, true_and, eq_comm]

theorem getChannel_moveByte (s : State) {ch : Nat} (dev : Byte) (tr : Transfer) (h : hasChannelReg s.cfg (oddReg ch) = true) {n : Nat}
    (hn : 8 ≤ n) (hn' : n < 48) :
    (moveByte ch dev tr s).getChannel n =
      if (match tr with | .output => s.parityEvent (s.getChannel (evenReg ch)) | .input _ ok => !ok) = true ∧ n = oddReg ch then
        s.getChannel (oddReg ch) ||| iocdError
      else s.getChannel n := by
  cases tr with
  | output => exact getChannel_setError (s.send _) _ h hn hn'
  | input b ok =>
    refine (getChannel_setError (s.storeWord _ _) (!ok) (by rw [State.storeWord_cfg]; exact h) hn hn').trans ?_
    simp only [State.getChannel_congr (State.storeWord_chan s _ _)]

theorem stepChannel_eq (ch : Nat) (s : State) : stepChannel ch s = { s with chan := (stepChannel ch s).chan } := by
  simp only [stepChannel]
  obtain ⟨c, h⟩ := s.setChannel_form (evenReg ch)
    (if (s.getChannel (oddReg ch)).getLsbD 0 then s.getChannel (evenReg ch) + 1 else s.getChannel (evenReg ch))
  rw [h]
  obtain ⟨c', h'⟩ := State.setChannel_form { s with chan := c } (oddReg ch) (countDown s.cfg (s.getChannel (oddReg ch)))
  rw [h']

theorem getChannel_stepChannel (s : State) {ch : Nat} (hlt : ch < s.cfg.channels) (hc : s.cfg.channels ≤ 20) {n : Nat} (hn : 8 ≤ n)
    (hn' : n < 48) :
    (stepChannel ch s).getChannel n =
      if n = oddReg ch then countDown s.cfg (s.getChannel (oddReg ch))
      else if n = evenReg ch then
        if (s.getChannel (oddReg ch)).getLsbD 0 then s.getChannel (evenReg ch) + 1 else s.getChannel (evenReg ch)
      else s.getChannel n := by
  have hev := hasChannelReg_even hlt hc
  have hod := hasChannelReg_odd hlt hc
  simp only [stepChannel]
  rw [State.getChannel_setChannel _ _ _ _ hn hn', State.getChannel_setChannel _ _ _ _ hn hn', State.setChannel_cfg]
  simp only [hev, hod, true_and, eq_comm]

theorem putByte_left (b : Byte) (w : Word) : byte0 (putByte false w b) = b ∧ byte1 (putByte false w b) = byte1 w := by
  simp [putByte]
theorem putByte_right (b : Byte) (w : Word) : byte1 (putByte true w b) = b ∧ byte0 (putByte true w b) = byte0 w := by
  simp [putByte]

theorem State.wordAt_bytes (s : State) (a : Word) :
    s.wordAt a = if s.existsAt a then joinBytes (s.mem.readByte (2 * a.toNat)) (s.mem.readByte (2 * a.toNat + 1)) else 0 := by
  simp [State.wordAt, Memory.readWord]

theorem getLsbD_zero_mod (w : Word) : w.getLsbD 0 = decide (w.toNat % 2 = 1) := by
  simp [BitVec.getLsbD, Nat.testBit_zero]

/-- An input byte is stored in the half of the word the count names, and no other byte changes (R268). -/
theorem readByte_inputByte (s : State) (a odd : Word) (b : Byte) (hw : s.mem.wf) :
    let t := s.storeWord a (putByte (odd.getLsbD 0) (s.wordAt a) b)
    let byteAt := 2 * a.toNat + odd.toNat % 2
    (s.existsAt a = true → t.mem.readByte byteAt = b) ∧
      ∀ x, (s.existsAt a = true → x ≠ byteAt) → t.mem.readByte x = s.mem.readByte x := by
  dsimp only
  by_cases he : s.existsAt a = true
  · have e : (s.storeWord a (putByte (odd.getLsbD 0) (s.wordAt a) b)).mem =
        s.mem.writeWord a.toNat (putByte (odd.getLsbD 0) (s.wordAt a) b) := by
      simp [State.storeWord, he]
    rw [e]
    simp only [Memory.readByte_writeWord _ _ _ hw, he, true_implies, getLsbD_zero_mod]
    by_cases hr : odd.toNat % 2 = 1
    · simp only [hr, decide_true, State.wordAt_bytes, he, if_true, putByte_right]
      refine ⟨by simp, fun x hx => ?_⟩
      simp [hx]; rintro rfl; rfl
    · have hr0 : odd.toNat % 2 = 0 := by omega
      simp only [hr0, State.wordAt_bytes, he, if_true]
      have hd : decide (0 = 1) = false := rfl
      simp only [hd, putByte_left]
      refine ⟨by simp, fun x hx => ?_⟩
      simp at hx ⊢; simp [hx]; rintro rfl; rfl
  · simp only [State.storeWord, he]
    simp

/-- The end of an operation, whole: the operational status byte in the even register, and what becomes of every device. -/
theorem endOperation_all (s : State) (d : Device) (dev : Byte) (ch : Nat) (te il cm ce ue : Bool) (h20 : s.cfg.channels ≤ 20)
    (hf : s.findDevice dev = some d) (hb : d.condition = .busy) (hop : (d.operates || ue) = true) (hch : channelOf s.cfg dev = some ch) :
    endOperation dev te il cm ce ue s =
        { s.setChannel (evenReg ch) (operationalStatus te il cm ce ue) with
          devices := (endOperation dev te il cm ce ue s).devices } ∧
      ∀ n, (endOperation dev te il cm ce ue s).findDevice n = (s.findDevice n).map fun x =>
        if n = dev then
          { x with
            condition := .ready, controller := .ready, order := .notAwaited, unusualEnd := ue
            pending := x.pending || decide (¬ s.getChannel (oddReg ch) &&& s.cfg.iocdI = 0) }
        else if sameController n dev then
          if ue && x.condition == .busy then { x with condition := .ready, controller := .ready, order := .notAwaited }
          else { x with controller := .ready }
        else x := by
  have hlt := channelOf_some hch
  have ho : ∀ v, (s.setChannel (evenReg ch) v).getChannel (oddReg ch) = s.getChannel (oddReg ch) := by
    intro v
    rw [State.getChannel_setChannel _ _ _ _ (by simp [oddReg]) (by simp [oddReg]; omega)]; simp [evenReg, oddReg]
  generalize hst : operationalStatus te il cm ce ue = st
  have hcfg : (s.setChannel (evenReg ch) st).cfg = s.cfg := by rw [State.setChannel_eq]
  have hfr : ∀ n, (s.setChannel (evenReg ch) st).findDevice n = s.findDevice n := by intro n; rw [State.setChannel_eq]; rfl
  simp only [endOperation, hf, hch, hb, hop, ho, hst, hcfg]
  obtain ⟨r1, r2⟩ := raiseDevice_unless (s.setChannel (evenReg ch) st) dev (s.getChannel (oddReg ch) &&& s.cfg.iocdI = 0)
  generalize (if s.getChannel (oddReg ch) &&& s.cfg.iocdI = 0 then s.setChannel (evenReg ch) st
    else (s.setChannel (evenReg ch) st).raiseDevice dev) = s2 at *
  have g : ∀ n, ((s2.endDevice dev).updateDevice dev fun d => { d with unusualEnd := ue }).findDevice n =
      (s.findDevice n).map fun x =>
        if n = dev then
          { x with
            condition := .ready, controller := .ready, order := .notAwaited, unusualEnd := ue
            pending := x.pending || decide (¬ s.getChannel (oddReg ch) &&& s.cfg.iocdI = 0) }
        else if sameController n dev then { x with controller := .ready } else x := by
    intro n
    rw [State.findDevice_updateDevice _ _ _ _ (by intro; rfl), State.findDevice_endDevice_any, r2, hfr]
    cases s.findDevice n with
    | none => rfl
    | some x => 
      by_cases hn : n = dev
      · subst hn; simp
      · cases hs : sameController n dev <;> simp [hn]
  cases ue
  · simp only [beq_self_eq_true, Bool.false_eq_true, if_false, Bool.false_and]
    refine ⟨?_, g⟩
    clear g
    generalize s2.devices = ds2 at r1
    subst r1
    generalize s.setChannel (evenReg ch) st = s1 at *
    obtain ⟨cfg, regs, ind, h, chan, prot, levels, wff, ec, panel, mem, bp, dv, wd, env⟩ := s1
    change cfg = s.cfg at hcfg; subst hcfg; rfl
  · simp only [beq_self_eq_true, if_true, Bool.true_and]
    refine ⟨?_, ?_⟩
    · clear g
      generalize s2.devices = ds2 at r1
      subst r1
      generalize s.setChannel (evenReg ch) st = s1 at *
      obtain ⟨cfg, regs, ind, h, chan, prot, levels, wff, ec, panel, mem, bp, dv, wd, env⟩ := s1
      change cfg = s.cfg at hcfg; subst hcfg; rfl
    · intro n
      show List.find? _ _ = _
      rw [find_map_device _ _ (by intro d; split <;> rfl)]
      change Option.map _ (State.findDevice _ n) = _
      rw [g]
      cases hx : s.findDevice n with
      | none => rfl
      | some x =>
        have hnum := State.findDevice_number hx
        by_cases hn : n = dev
        · simp [hn]
        · cases hs : sameController n dev <;> by_cases hc : x.condition = .busy <;> simp [hn, hnum, hs, hc]

end Sys2Proof.Machine
end

