-- ==== Sys2Proof/Laws/Direct.lean ====
section
/-! SUPPORT. READ DIRECT and WRITE DIRECT: an allowed one runs its function, and which function each range of effective addresses
selects. -/

namespace Sys2Proof.Machine

theorem exec_rd_allowed {m : MemRef} {s : State} {ea : Word} (h : Addresses m s ea) (hc : s.MayControl) :
    exec (.rd m) s = readDirect ea s := by
  simp [exec, execRd, withAddr_ok h, attempt, checkPrivileged_ok hc]

theorem exec_wd_allowed {m : MemRef} {s : State} {ea : Word} (h : Addresses m s ea) (hc : s.MayControl) :
    exec (.wd m) s = writeDirect ea s := by
  simp [exec, execWd, withAddr_ok h, attempt, checkPrivileged_ok hc]

theorem privileged_allowed {s t : State} (he : s.exitCond = false) (hc : s.MayControl) : privileged s t = .next t := by
  simp [privileged, unlessExit, he, attempt, checkPrivileged_ok hc]

/-! The fields of an effective address below X'0100'. -/

theorem field_low {ea : Word} (h : ea.toNat < 256) : field ea 0 3 = 0 ∧ field ea 4 7 = 0 ∧ field ea 8 15 = ea.toNat := by
  simp only [field]
  omega

theorem readFunction_register {ea : Word} (h : ea.toNat < 64) : readFunction ea = .register ea.toNat := by
  obtain ⟨h1, h2, h3⟩ := field_low (ea := ea) (by omega)
  simp [readFunction, readInternal, h1, h2, h3, h]

theorem writeFunction_register {ea : Word} (h : ea.toNat < 64) : writeFunction ea = .register ea.toNat := by
  obtain ⟨h1, h2, h3⟩ := field_low (ea := ea) (by omega)
  simp [writeFunction, writeInternal, h1, h2, h3, h]

theorem writeFunction_testAndClear {ea : Word} (h : 64 ≤ ea.toNat) (h' : ea.toNat < 128) :
    writeFunction ea = .testAndClear (ea.toNat - 64) := by
  obtain ⟨h1, h2, h3⟩ := field_low (ea := ea) (by omega)
  have h4 : ¬ ea.toNat < 64 := by omega
  simp [writeFunction, writeInternal, h1, h2, h3, h', h4]

theorem writeFunction_protection {ea : Word} (h : 128 ≤ ea.toNat) (h' : ea.toNat < 144) :
    writeFunction ea = .protection (ea.toNat - 128) := by
  obtain ⟨h1, h2, h3⟩ := field_low (ea := ea) (by omega)
  have h4 : ¬ ea.toNat < 64 := by omega
  have h5 : ¬ ea.toNat < 128 := by omega
  simp [writeFunction, writeInternal, h1, h2, h3, h', h4, h5]

theorem direct_external {ea : Word} (h : 0x2000 ≤ ea.toNat) : readFunction ea = .direct ∧ writeFunction ea = .direct := by
  have h0 : field ea 0 3 ≠ 0 := by simp only [field]; omega
  have h1 : field ea 0 3 ≠ 1 := by simp only [field]; omega
  simp [readFunction, writeFunction, h0, h1]

/-- The interrupt control mode with its zero bits zero (R235). -/
theorem writeFunction_control {ea : Word} {code g : Nat} {op : LevelOp} (h7 : code ≤ 7) (hg : g < 16)
    (he : ea.toNat = 0x1000 + 0x100 * code + g) (hop : levelOpOf code = some op) : writeFunction ea = .control op g := by
  have f1 : field ea 0 3 = 1 := by simp only [field]; omega
  have f2 : field ea 5 7 = code := by simp only [field]; omega
  have f3 : field ea 12 15 = g := by simp only [field]; omega
  have f4 : field ea 8 11 = 0 := by simp only [field]; omega
  have f5 : bitAt ea 4 = false := by
    simp only [bitAt, BitVec.getMsbD, BitVec.getLsbD, Nat.testBit_eq_decide_div_mod_eq]
    simp
    omega
  simp [writeFunction, writeControl, f1, f2, f3, f4, f5, hop]

/-! Channel registers by number. -/

theorem hasChannelReg_iff (c : Config) (n : Nat) : hasChannelReg c n = true ↔ 8 ≤ n ∧ n < 8 + 2 * c.channels ∧ n < 48 := by
  simp [hasChannelReg, and_assoc]

theorem channelIndex {n : Nat} {k : Fin 40} (h : n = 8 + k.val) : Fin.ofNat 40 (n - 8) = k := by
  subst h
  apply Fin.ext
  simp

theorem State.setChannel_installed (s : State) {n : Nat} (v : Word) {k : Fin 40} (hk : n = 8 + k.val)
    (hl : k.val < 2 * s.cfg.channels) : s.setChannel n v = { s with chan := s.chan.set k.val v k.isLt } := by
  have hh : hasChannelReg s.cfg n = true := (hasChannelReg_iff _ _).2 (by omega)
  simp only [State.setChannel, hh, if_true, channelIndex hk]

end Sys2Proof.Machine
end

