-- ==== Sys2Proof/Laws/Invariant.lean ====
section
/-! SUPPORT. Each shared operation keeps the invariant of Safety.lean: on memory, on the levels, and as a whole. -/

namespace Sys2Proof.Machine

/-! Memory. -/

theorem State.MemoryInv.congr {s t : State} (h : s.MemoryInv) (hc : t.cfg = s.cfg) (hm : t.mem = s.mem)
    (hb : t.badParity = s.badParity) : t.MemoryInv := by
  simpa [State.MemoryInv, hc, hm, hb] using h

theorem State.MemoryInv.storeWord {s : State} (h : s.MemoryInv) (a v : Word) : (s.storeWord a v).MemoryInv := by
  unfold State.storeWord
  split
  · next he =>
    have he' : a.toNat < s.cfg.memWords := by simpa [State.existsAt] using he
    refine ⟨Memory.wf_writeWord _ _ h.1, fun c hc => ?_, sorted_removeAddress _ h.2.2.1, fun k hk => ?_⟩
    · rcases Memory.mem_writeWord hc with hm | hm | hm
      · exact h.2.1 c hm
      · change c.1 < 2 * s.cfg.memWords
        omega
      · change c.1 < 2 * s.cfg.memWords
        omega
    · exact h.2.2.2 k (mem_removeAddress.1 hk).1
  · exact h

theorem State.MemoryInv.setParityOf {s : State} (h : s.MemoryInv) (a : Word) (b : Bool) : (setParityOf a b s).MemoryInv := by
  unfold Sys2Proof.Machine.setParityOf
  split
  · next he =>
    have he' : a.toNat < s.cfg.memWords := by simpa [State.existsAt] using he
    refine ⟨h.1, h.2.1, ?_, fun k hk => ?_⟩
    · cases b
      · exact sorted_removeAddress _ h.2.2.1
      · exact sorted_insertAddress _ h.2.2.1
    · change k < s.cfg.memWords
      cases b
      · exact h.2.2.2 k (mem_removeAddress.1 hk).1
      · rcases mem_insertAddress hk with hm | rfl
        · exact h.2.2.2 k hm
        · exact he'
  · exact h

/-! Levels. -/

theorem State.LevelInv.congr {s t : State} (h : s.LevelInv) (hc : t.cfg = s.cfg) (hl : t.levels = s.levels) : t.LevelInv := by
  intro l
  rw [State.level_congr hl, hc]
  exact h l

/-- Setting a level to what the invariant allows there keeps it. -/
theorem State.LevelInv.setLevel {s : State} (h : s.LevelInv) (l : Level) (v : LevelFF)
    (ho : isOverride l = true → v.state ≠ .disarmed ∧ v.enabled = true)
    (hn : ∀ n, l = .counter n → v.state ≠ .active)
    (hi : installed s.cfg l = false → v.state ≠ .waiting ∧ v.state ≠ .active) : (s.setLevel l v).LevelInv := by
  intro k
  rw [State.level_setLevel, State.setLevel_cfg]
  by_cases hk : k = l
  · subst hk
    rw [if_pos rfl]
    exact ⟨ho, hn, hi⟩
  · rw [if_neg hk]
    exact h k

/-- Arming a level keeps the invariant. -/
theorem State.LevelInv.arm {s : State} (h : s.LevelInv) (l : Level) : (s.setLevelState l .armed).LevelInv :=
  h.setLevel l _ (fun ho => ⟨by simp, ((h l).1 ho).2⟩) (by simp) (by simp)

/-- Activating an installed level that is no counter keeps the invariant. -/
theorem State.LevelInv.activate {s : State} (h : s.LevelInv) {l : Level} (hi : installed s.cfg l = true) (hn : ∀ n, l ≠ .counter n) :
    (s.setLevelState l .active).LevelInv :=
  h.setLevel l _ (fun ho => ⟨by simp, ((h l).1 ho).2⟩) (fun n e => absurd e (hn n)) (by simp [hi])

theorem State.LevelInv.trigger {s : State} (h : s.LevelInv) (l : Level) : (trigger l s).LevelInv := by
  unfold Sys2Proof.Machine.trigger
  split
  · next hc =>
    have hi : installed s.cfg l = true := by simp only [Bool.and_eq_true] at hc; exact hc.1
    exact h.setLevel l _ (fun ho => ⟨by simp, ((h l).1 ho).2⟩) (by simp) (by simp [hi])
  · exact h

theorem State.LevelInv.controlLevel {s : State} (h : s.LevelInv) (op : LevelOp) (b : Bool) {l : Level}
    (hi : installed s.cfg l = true) (ho : isOverride l = false) : (controlLevel op b l s).LevelInv := by
  have key : ∀ v : LevelFF, (∀ n, l = .counter n → v.state ≠ .active) → (s.setLevel l v).LevelInv := fun v hv =>
    h.setLevel l v (by simp [ho]) hv (by simp [hi])
  cases op <;> cases b
  case disarm.true => exact key _ (by simp)
  case armEnable.true => exact key _ (by simp)
  case armDisable.true => exact key _ (by simp)
  case enable.true => exact key _ (h l).2.1
  case disable.true => exact key _ (h l).2.1
  case enableOnly.true => exact key _ (h l).2.1
  case enableOnly.false => exact key _ (h l).2.1
  case trigger.true => exact h.trigger l
  all_goals exact h

theorem State.LevelInv.controlGroup {s : State} (h : s.LevelInv) (op : LevelOp) (g : Nat) (a : Word) :
    (controlGroup op g a s).LevelInv := by
  unfold Sys2Proof.Machine.controlGroup
  generalize List.finRange 16 = l
  induction l generalizing s with
  | nil => exact h
  | cons i l ih =>
    refine ih ?_
    change (controlBit op g a i s).LevelInv
    unfold controlBit
    split
    · next k hk => exact h.controlLevel op _ (selectedLevel_some hk).2 (codedLevel_not_override (selectedLevel_some hk).1)
    · exact h

/-- The levels after reset meet the invariant in every installation. -/
theorem resetLevels_inv {s : State} (h : s.levels = resetLevels) : s.LevelInv := by
  have key : ∀ l : Level, s.level l = if isOverride l then ⟨.armed, true⟩ else ⟨.disarmed, false⟩ := by
    intro l
    rw [State.level, h, Vector.get_eq_getElem]
    simp only [resetLevels, Vector.getElem_ofFn]
    have hv := levelIndex_val l
    cases l <;> simp only [levelLocation, isOverride] at hv ⊢ <;>
      first
        | (rw [if_pos (by omega)]; rfl)
        | (rw [if_neg (by omega)]; rfl)
  intro l
  rw [key l]
  cases h : isOverride l <;> simp

/-! The whole invariant. -/

/-- The invariant depends on seven fields only. -/
theorem State.Inv.congr {s t : State} (h : s.Inv) (hc : t.cfg = s.cfg) (hm : t.mem = s.mem) (hb : t.badParity = s.badParity)
    (hl : t.levels = s.levels) (hp : t.ind.pp = s.ind.pp) (he : t.exitCond = s.exitCond) (hw : t.wff = s.wff) : t.Inv :=
  ⟨h.1.congr hc hm hb, h.2.1.congr hc hl, by rw [hc, hp]; exact h.2.2.1, by rw [he, hw]; exact h.2.2.2⟩

theorem State.Inv.setReg {s : State} (h : s.Inv) (r : Reg) (v : Word) : (s.setReg r v).Inv :=
  h.congr (by simp) (by simp) (by simp) (by simp) (by simp) (by simp) (by simp)

theorem State.Inv.setOC {s : State} (h : s.Inv) (o c : Bool) : (s.setOC o c).Inv := h.congr rfl rfl rfl rfl rfl rfl rfl

theorem State.Inv.setPP {s : State} (h : s.Inv) (b : Bool) : (s.setPP b).Inv :=
  ⟨h.1, h.2.1, fun hc => by simp [show s.cfg.protect = false from hc], h.2.2.2⟩

theorem State.Inv.loadStatus {s : State} (h : s.Inv) (w : Word) : (s.loadStatus w).Inv :=
  ⟨h.1, h.2.1, fun hc => by simp [show s.cfg.protect = false from hc], h.2.2.2⟩

theorem State.Inv.storeWord {s : State} (h : s.Inv) (a v : Word) : (s.storeWord a v).Inv :=
  ⟨h.1.storeWord a v, h.2.1.congr (by simp) (by simp), by simpa using h.2.2.1, by simpa using h.2.2.2⟩

theorem State.Inv.trigger {s : State} (h : s.Inv) (l : Level) : (trigger l s).Inv :=
  ⟨h.1.congr (by simp) (by simp) (by simp), h.2.1.trigger l, by simpa using h.2.2.1, by simpa using h.2.2.2⟩

theorem State.Inv.controlGroup {s : State} (h : s.Inv) (op : LevelOp) (g : Nat) (a : Word) : (controlGroup op g a s).Inv :=
  ⟨h.1.congr (by simp) (by simp) (by simp), h.2.1.controlGroup op g a, by simpa using h.2.2.1, by simpa using h.2.2.2⟩

/-- Taking an exception keeps the invariant; a parity error waits, and the exit condition is reset. -/
theorem State.Inv.takeTrap {s : State} (h : s.Inv) (t : Trap) : (takeTrap t s).Inv := by
  have ha : s.abort.Inv := ⟨h.1, h.2.1, h.2.2.1, by simp⟩
  have hw : State.Inv { s.abort with wff := true } := ⟨h.1, h.2.1, h.2.2.1, by simp⟩
  cases t
  case protection => exact ha.trigger _
  case multiply => exact ha.trigger _
  case divide => exact ha.trigger _
  case parityHalt => exact ha.congr rfl rfl rfl rfl rfl rfl rfl
  case parityInterrupt => exact hw.trigger _

/-- Entry to an installed normal level keeps the invariant. -/
theorem State.Inv.enterLevel {s : State} (h : s.Inv) {l : Level} (hi : installed s.cfg l = true) (hn : ∀ n, l ≠ .counter n) :
    (enterLevel l s).Inv := by
  have h1 : State.Inv { s.setLevelState l .active with wff := false } :=
    ⟨h.1, h.2.1.activate hi hn, h.2.2.1, by simp⟩
  exact ((((h1.storeWord _ _).storeWord _ _).setReg .p _).setPP true)

/-- The return from a routine keeps the invariant. -/
theorem State.Inv.exitLevel {s : State} (h : s.Inv) (w a : Word) : (exitLevel w a s).Inv := by
  have h1 : State.Inv { (s.loadStatus w).setReg .p a with exitCond := false } := by
    have h2 := (h.loadStatus w).setReg .p a
    exact ⟨h2.1, h2.2.1, h2.2.2.1, by simp⟩
  unfold Sys2Proof.Machine.exitLevel
  split
  · exact ⟨h1.1, h1.2.1.arm _, h1.2.2.1, by simp⟩
  · exact h1

/-- The service of a counter keeps the invariant: the counter is armed again. -/
theorem State.Inv.serviceCounter {s : State} (h : s.Inv) (n : Fin 4) : (serviceCounter n s).Inv := by
  have key : ∀ x a v : Word, State.Inv
      ((State.storeWord { s.setLevelState (.counter n) .active with wff := false } a v).setLevelState (.counter n) .armed) := by
    intro x a v
    have h1 : State.MemoryInv { s.setLevelState (.counter n) .active with wff := false } := h.1
    refine ⟨(h1.storeWord a v).congr rfl rfl rfl, ?_, ?_, ?_⟩
    · intro k
      rw [State.level_setLevelState]
      by_cases hk : k = .counter n
      · subst hk
        simp [isOverride]
      · rw [if_neg hk, State.level_congr (State.storeWord_levels _ a v)]
        have hl := State.level_setLevelState s (.counter n) k .active
        rw [if_neg hk] at hl
        rw [State.level_congr (s := { s.setLevelState (.counter n) .active with wff := false })
          (t := s.setLevelState (.counter n) .active) rfl, hl]
        simpa using h.2.1 k
    · simpa using h.2.2.1
    · simp
  simp only [Sys2Proof.Machine.serviceCounter]
  split
  · exact (key 0 _ _).trigger _
  · exact key 0 _ _

/-- Interrupt recognition keeps the invariant. -/
theorem State.Inv.recognise {s : State} (h : s.Inv) (k : Nat) : (recognise k s).Inv := by
  induction k generalizing s with
  | zero => exact h
  | succ k ih =>
    unfold Sys2Proof.Machine.recognise
    split
    · exact h
    · exact ih (h.serviceCounter _)
    · next l hl hs =>
      have hm := (select_some hs).1
      have hi : installed s.cfg l = true := by simp only [priorityChain, List.mem_filter] at hm; exact hm.2
      exact h.enterLevel hi fun n e => hl n e

theorem recognise_cfg (k : Nat) (s : State) : (recognise k s).cfg = s.cfg := by
  induction k generalizing s with
  | zero => rfl
  | succ k ih =>
    unfold recognise
    split
    · rfl
    · rw [ih, serviceCounter_cfg]
    · simp

end Sys2Proof.Machine
end

