-- ==== Sys2Proof/Laws/PerInstr.lean ====
section
/-! SUPPORT. The family Opcode, one lemma per instruction: the word the encoder writes carries the fixed bits of the instruction's
row of spec/opcode_table.json (rules R104 to R107). -/

namespace Sys2Proof.Laws

/-- The fixed bits of an instruction's row of the opcode table: its mask and its match. -/
def opcodeRow : Instr → Word × Word
  | .wd _ => (0xF000, 0x0000)
  | .rd _ => (0xF000, 0x1000)
  | .s _ => (0xF000, 0x2000)
  | .mul _ => (0xF000, 0x3000)
  | .b _ => (0xF000, 0x4000)
  | .div _ => (0xF000, 0x5000)
  | .lda _ => (0xF000, 0x8000)
  | .and _ => (0xF000, 0x9000)
  | .add _ => (0xF000, 0xA000)
  | .sub _ => (0xF000, 0xB000)
  | .ldx _ => (0xF000, 0xC000)
  | .cp _ => (0xF000, 0xD000)
  | .sta _ => (0xF000, 0xE000)
  | .im _ => (0xF000, 0xF000)
  | .bno _ => (0xFE00, 0x6000)
  | .bnc _ => (0xFE00, 0x6200)
  | .baz _ => (0xFE00, 0x6400)
  | .bix _ => (0xFE00, 0x6600)
  | .bxno _ => (0xFE00, 0x6800)
  | .bxnc _ => (0xFE00, 0x6A00)
  | .ben _ => (0xFE00, 0x6C00)
  | .ban _ => (0xFE00, 0x6E00)
  | .rcpy _ => (0xFF80, 0x7480)
  | .radd _ => (0xFF80, 0x7C00)
  | .ror _ => (0xFF80, 0x7400)
  | .reor _ => (0xFF80, 0x7800)
  | .rand _ => (0xFF80, 0x7000)
  | .rcpyi _ => (0xFF80, 0x7580)
  | .raddi _ => (0xFF80, 0x7D00)
  | .rori _ => (0xFF80, 0x7500)
  | .reori _ => (0xFF80, 0x7900)
  | .randi _ => (0xFF80, 0x7100)
  | .rcpyc _ => (0xFF80, 0x7680)
  | .raddc _ => (0xFF80, 0x7E00)
  | .rorc _ => (0xFF80, 0x7600)
  | .reorc _ => (0xFF80, 0x7A00)
  | .randc _ => (0xFF80, 0x7200)
  | .copy _ _ _ _ _ => (0xF000, 0x7000)
  | .sio => (0xFFFF, 0x1041)
  | .tio => (0xFFFF, 0x1042)
  | .tdv => (0xFFFF, 0x1044)
  | .hio => (0xFFFF, 0x1048)
  | .aio => (0xFFFF, 0x1050)

/-- The word of the instruction, masked as its row says, is the row's match. -/
def Opcode.Statement (i : Instr) : Prop := encode i &&& (opcodeRow i).1 = (opcodeRow i).2

theorem encodeMemRef_opcode (op : BitVec 4) (m : MemRef) : encodeMemRef op m &&& 0xF000 = op ++ 0#12 := by
  apply BitVec.eq_of_getLsbD_eq
  intro i hi
  simp only [encodeMemRef, BitVec.getLsbD_and, BitVec.getLsbD_append]
  interval_cases i <;> simp

theorem encodeBranch_opcode (cc : BitVec 3) (k : BitVec 9) : encodeBranch cc k &&& 0xFE00 = 6#4 ++ cc ++ 0#9 := by
  apply BitVec.eq_of_getLsbD_eq
  intro i hi
  simp only [encodeBranch, BitVec.getLsbD_and, BitVec.getLsbD_append]
  interval_cases i <;> simp

theorem encodeCopy_opcode (op : CopyOp) (ac ai cd : Bool) (c : CopyArgs) :
    encodeCopy op ac ai cd c &&& 0xFF80 =
      7#4 ++ encodeCopyOp op ++ BitVec.ofBool ac ++ BitVec.ofBool ai ++ BitVec.ofBool cd ++ 0#7 := by
  apply BitVec.eq_of_getLsbD_eq
  intro i hi
  simp only [encodeCopy, BitVec.getLsbD_and, BitVec.getLsbD_append]
  interval_cases i <;> simp

theorem encodeCopy_code (op : CopyOp) (ac ai cd : Bool) (c : CopyArgs) : encodeCopy op ac ai cd c &&& 0xF000 = 0x7000 := by
  apply BitVec.eq_of_getLsbD_eq
  intro i hi
  simp only [encodeCopy, BitVec.getLsbD_and, BitVec.getLsbD_append]
  interval_cases i <;> simp

theorem Opcode.wd (m : MemRef) : Opcode.Statement (.wd m) := (encodeMemRef_opcode _ m).trans rfl
theorem Opcode.rd (m : MemRef) : Opcode.Statement (.rd m) := (encodeMemRef_opcode _ m).trans rfl
theorem Opcode.s (m : MemRef) : Opcode.Statement (.s m) := (encodeMemRef_opcode _ m).trans rfl
theorem Opcode.mul (m : MemRef) : Opcode.Statement (.mul m) := (encodeMemRef_opcode _ m).trans rfl
theorem Opcode.b (m : MemRef) : Opcode.Statement (.b m) := (encodeMemRef_opcode _ m).trans rfl
theorem Opcode.div (m : MemRef) : Opcode.Statement (.div m) := (encodeMemRef_opcode _ m).trans rfl
theorem Opcode.lda (m : MemRef) : Opcode.Statement (.lda m) := (encodeMemRef_opcode _ m).trans rfl
theorem Opcode.and (m : MemRef) : Opcode.Statement (.and m) := (encodeMemRef_opcode _ m).trans rfl
theorem Opcode.add (m : MemRef) : Opcode.Statement (.add m) := (encodeMemRef_opcode _ m).trans rfl
theorem Opcode.sub (m : MemRef) : Opcode.Statement (.sub m) := (encodeMemRef_opcode _ m).trans rfl
theorem Opcode.ldx (m : MemRef) : Opcode.Statement (.ldx m) := (encodeMemRef_opcode _ m).trans rfl
theorem Opcode.cp (m : MemRef) : Opcode.Statement (.cp m) := (encodeMemRef_opcode _ m).trans rfl
theorem Opcode.sta (m : MemRef) : Opcode.Statement (.sta m) := (encodeMemRef_opcode _ m).trans rfl
theorem Opcode.im (m : MemRef) : Opcode.Statement (.im m) := (encodeMemRef_opcode _ m).trans rfl
theorem Opcode.bno (k : BitVec 9) : Opcode.Statement (.bno k) := (encodeBranch_opcode _ k).trans rfl
theorem Opcode.bnc (k : BitVec 9) : Opcode.Statement (.bnc k) := (encodeBranch_opcode _ k).trans rfl
theorem Opcode.baz (k : BitVec 9) : Opcode.Statement (.baz k) := (encodeBranch_opcode _ k).trans rfl
theorem Opcode.bix (k : BitVec 9) : Opcode.Statement (.bix k) := (encodeBranch_opcode _ k).trans rfl
theorem Opcode.bxno (k : BitVec 9) : Opcode.Statement (.bxno k) := (encodeBranch_opcode _ k).trans rfl
theorem Opcode.bxnc (k : BitVec 9) : Opcode.Statement (.bxnc k) := (encodeBranch_opcode _ k).trans rfl
theorem Opcode.ben (k : BitVec 9) : Opcode.Statement (.ben k) := (encodeBranch_opcode _ k).trans rfl
theorem Opcode.ban (k : BitVec 9) : Opcode.Statement (.ban k) := (encodeBranch_opcode _ k).trans rfl
theorem Opcode.rcpy (c : CopyArgs) : Opcode.Statement (.rcpy c) := (encodeCopy_opcode _ _ _ _ c).trans rfl
theorem Opcode.radd (c : CopyArgs) : Opcode.Statement (.radd c) := (encodeCopy_opcode _ _ _ _ c).trans rfl
theorem Opcode.ror (c : CopyArgs) : Opcode.Statement (.ror c) := (encodeCopy_opcode _ _ _ _ c).trans rfl
theorem Opcode.reor (c : CopyArgs) : Opcode.Statement (.reor c) := (encodeCopy_opcode _ _ _ _ c).trans rfl
theorem Opcode.rand (c : CopyArgs) : Opcode.Statement (.rand c) := (encodeCopy_opcode _ _ _ _ c).trans rfl
theorem Opcode.rcpyi (c : CopyArgs) : Opcode.Statement (.rcpyi c) := (encodeCopy_opcode _ _ _ _ c).trans rfl
theorem Opcode.raddi (c : CopyArgs) : Opcode.Statement (.raddi c) := (encodeCopy_opcode _ _ _ _ c).trans rfl
theorem Opcode.rori (c : CopyArgs) : Opcode.Statement (.rori c) := (encodeCopy_opcode _ _ _ _ c).trans rfl
theorem Opcode.reori (c : CopyArgs) : Opcode.Statement (.reori c) := (encodeCopy_opcode _ _ _ _ c).trans rfl
theorem Opcode.randi (c : CopyArgs) : Opcode.Statement (.randi c) := (encodeCopy_opcode _ _ _ _ c).trans rfl
theorem Opcode.rcpyc (c : CopyArgs) : Opcode.Statement (.rcpyc c) := (encodeCopy_opcode _ _ _ _ c).trans rfl
theorem Opcode.raddc (c : CopyArgs) : Opcode.Statement (.raddc c) := (encodeCopy_opcode _ _ _ _ c).trans rfl
theorem Opcode.rorc (c : CopyArgs) : Opcode.Statement (.rorc c) := (encodeCopy_opcode _ _ _ _ c).trans rfl
theorem Opcode.reorc (c : CopyArgs) : Opcode.Statement (.reorc c) := (encodeCopy_opcode _ _ _ _ c).trans rfl
theorem Opcode.randc (c : CopyArgs) : Opcode.Statement (.randc c) := (encodeCopy_opcode _ _ _ _ c).trans rfl
theorem Opcode.copy (op : CopyOp) (ac ai cd : Bool) (c : CopyArgs) : Opcode.Statement (.copy op ac ai cd c) :=
  encodeCopy_code op ac ai cd c
theorem Opcode.sio : Opcode.Statement .sio := by unfold Opcode.Statement; decide
theorem Opcode.tio : Opcode.Statement .tio := by unfold Opcode.Statement; decide
theorem Opcode.tdv : Opcode.Statement .tdv := by unfold Opcode.Statement; decide
theorem Opcode.hio : Opcode.Statement .hio := by unfold Opcode.Statement; decide
theorem Opcode.aio : Opcode.Statement .aio := by unfold Opcode.Statement; decide

end Sys2Proof.Laws
end

