-- ==== Sys2Proof/Tests/Slice0.lean ====
section
/-! SUPPORT. Tests: the ill-formed terms WellFormed refuses, the decoding of every constructor from words written out from the
encoding tables (rules R92 to R94, R104 to R107), one or two small steps for each instruction with the results that
spec/95_test_vectors.md gives, and for every statement with hypotheses states and operands that meet them, clause by clause. -/

namespace Sys2Proof.Tests

open Sys2Proof.Machine

set_option Elab.async false

/-! Helpers. -/

/-- The reset state with words stored, and P where the vectors put it. -/
def start (cells : List (Nat × Nat)) : State :=
  cells.foldl (fun s c => s.storeWord (BitVec.ofNat 16 c.1) (BitVec.ofNat 16 c.2)) { State.reset with regs.p := 0x300 }

/-- The outcome is a next state with the property. -/
def answers (r : Result) (p : State → Bool) : Bool :=
  match r with
  | .next t => p t
  | .fault _ => false
  | .refused _ => false

/-- A step answers a next state with the property. -/
def steps (s : State) (p : State → Bool) : Bool := answers (step s) p

/-- The outcome is this refusal. -/
def refuses (r : Result) (f : Refusal) : Bool :=
  match r with
  | .refused g => g == f
  | .next _ => false
  | .fault _ => false

/-- A single device in automatic mode, with the status bytes of the vectors. -/
def device (condition : Condition) (pending : Bool) : Device where
  number := 3
  condition := condition
  controller := condition
  unusualEnd := false
  pending := pending
  order := .notAwaited
  own :=
    { automatic := true, bit7 := false, tdvStatus := 0, tdvCondition := false, aioStatus := 0x20, aioUnusual := false,
      sioShowsBusy := false, haltUnusual := false }

/-- The protection system operative, page 0 protected, H in an unprotected page (part 8.3 of the vectors). -/
def guarded : State :=
  { State.reset with cfg.protect := true, panel.protect := true, h := 0x300, regs.p := 0x301, prot := State.reset.prot.set 0 0x8000 }

/-! WellFormed. -/

theorem test_wf_rejects_rd_of_an_io_word : (Instr.rd ⟨.nonrelative 0x41, false, false⟩).wf = false := by decide

theorem test_wf_accepts_rd_with_that_effective_address : (Instr.rd ⟨.selfRelative 0x41, false, false⟩).wf = true := by decide

theorem test_wf_rejects_copy_with_a_mnemonic : (Instr.copy .or false true true ⟨.l, false, .p⟩).wf = false := by decide

theorem test_wf_accepts_copy_without_a_mnemonic : (Instr.copy .and false true true ⟨.l, false, .p⟩).wf = true := by decide

/-! Decoding: every constructor. -/

/-- `oooo RIXS dddd dddd` (R92, R104). -/
theorem test_decode_memory_reference : 
    decode 0x0008 = .wd ⟨.nonrelative 0x08, false, false⟩ ∧
      decode 0x1FFE = .rd ⟨.selfRelative 0x1FE, true, true⟩ ∧
      decode 0x2921 = .s ⟨.selfRelative 0x121, false, false⟩ ∧
      decode 0x3150 = .mul ⟨.baseRelative 0x50, false, false⟩ ∧
      decode 0x4C05 = .b ⟨.selfRelative 0x005, true, false⟩ ∧
      decode 0x5230 = .div ⟨.nonrelative 0x30, false, true⟩ ∧
      decode 0x8750 = .lda ⟨.baseRelative 0x50, true, true⟩ ∧
      decode 0x9440 = .and ⟨.nonrelative 0x40, true, false⟩ ∧
      decode 0xA0FF = .add ⟨.nonrelative 0xFF, false, false⟩ ∧
      decode 0xB180 = .sub ⟨.baseRelative 0x80, false, false⟩ ∧
      decode 0xC6FD = .ldx ⟨.nonrelative 0xFD, true, true⟩ ∧
      decode 0xD901 = .cp ⟨.selfRelative 0x101, false, false⟩ ∧
      decode 0xEA05 = .sta ⟨.selfRelative 0x005, false, true⟩ ∧
      decode 0xF0FF = .im ⟨.nonrelative 0xFF, false, false⟩ := by decide

/-- `0110 cccS dddd dddd` (R93, R105). -/
theorem test_decode_branches : 
    decode 0x6005 = .bno 0x005 ∧
      decode 0x63FE = .bnc 0x1FE ∧
      decode 0x6500 = .baz 0x100 ∧
      decode 0x66FF = .bix 0x0FF ∧
      decode 0x69FD = .bxno 0x1FD ∧
      decode 0x6A01 = .bxnc 0x001 ∧
      decode 0x6C00 = .ben 0x000 ∧
      decode 0x6FFF = .ban 0x1FF := by decide

/-- `0111 ppci kddd vsss` (R94, R106, R202). -/
theorem test_decode_copies : 
    decode 0x7073 = .rand ⟨.a, false, .t⟩ ∧
      decode 0x711C = .randi ⟨.p, true, .x1⟩ ∧
      decode 0x7226 = .randc ⟨.l, false, .e⟩ ∧
      decode 0x7435 = .ror ⟨.t, false, .x2⟩ ∧
      decode 0x754E = .rori ⟨.x1, true, .e⟩ ∧
      decode 0x7657 = .rorc ⟨.x2, false, .a⟩ ∧
      decode 0x74E1 = .rcpy ⟨.e, false, .p⟩ ∧
      decode 0x75A1 = .rcpyi ⟨.l, false, .p⟩ ∧
      decode 0x7698 = .rcpyc ⟨.p, true, .z⟩ ∧
      decode 0x7802 = .reor ⟨.z, false, .l⟩ ∧
      decode 0x7973 = .reori ⟨.a, false, .t⟩ ∧
      decode 0x7A7B = .reorc ⟨.a, true, .t⟩ ∧
      decode 0x7C73 = .radd ⟨.a, false, .t⟩ ∧
      decode 0x7D7B = .raddi ⟨.a, true, .t⟩ ∧
      decode 0x7E76 = .raddc ⟨.a, false, .e⟩ ∧
      decode 0x7CF3 = .copy .add false false true ⟨.a, false, .t⟩ ∧
      decode 0x7F73 = .copy .add true true false ⟨.a, false, .t⟩ ∧
      decode 0x70F3 = .copy .and false false true ⟨.a, false, .t⟩ := by decide

/-- The five I/O words (R107). -/
theorem test_decode_io : 
    decode 0x1041 = .sio ∧
      decode 0x1042 = .tio ∧
      decode 0x1044 = .tdv ∧
      decode 0x1048 = .hio ∧
      decode 0x1050 = .aio := by decide

theorem test_decode_bytes_most_significant_first :
    decodeBytes [0x80, 0x50, 0x12] = .ok (.lda ⟨.nonrelative 0x50, false, false⟩, [0x12]) := rfl

theorem test_decode_refuses_half_a_word : decodeBytes [0x80] = .error .truncated := rfl

theorem test_decode_table_word : decodeTableWord 16 0x67FD = some (.bix 0x1FD) := rfl

theorem test_encode_named_copy : encode (.raddi ⟨.a, true, .t⟩) = 0x7D7B := by decide

theorem test_withFetchWord_runs_first :
    steps (State.reset.withFetchWord 16 0x74F0) (fun t => t.regs.p == 1 && t.regs.a == 0) = true := by decide +kernel

/-! One step for each instruction; the name ends in the vector of spec/95_test_vectors.md. -/

theorem test_lda_E12 : steps { start [(0x300, 0x8E05), (0x305, 0x4000), (0x4010, 0xCCCC)] with regs.x1 := 0x10 }
    (fun t => t.regs.a == 0xCCCC && t.regs.p == 0x301) = true := by decide +kernel

theorem test_lda_E18 : steps { start [(0x300, 0x8450), (0x50, 0x3000)] with cfg.memWords := 0x2000, regs.a := 0x5555 }
    (fun t => t.regs.a == 0 && t.regs.p == 0x301) = true := by decide +kernel

theorem test_sta_B3 : steps { start [(0x300, 0xE801)] with regs.a := 0x7000 }
    (fun t => t.wordAt 0x301 == 0x7000 && t.regs.p == 0x301) = true := by decide +kernel

theorem test_ldx_B5 : steps { start [(0x300, 0xC260), (0x62, 0xAA)] with regs.x1 := 2 }
    (fun t => t.regs.x1 == 0xAA) = true := by decide +kernel

theorem test_and_B6 : steps { start [(0x300, 0x9040), (0x40, 0x3C3C)] with regs.a := 0xF0F0, ind.o := true }
    (fun t => t.regs.a == 0x3030 && t.ind.o == true && t.ind.c == false) = true := by decide +kernel

theorem test_b_B7 : steps (start [(0x300, 0x4C05), (0x305, 0x1000)])
    (fun t => t.regs.p == 0x1000) = true := by decide +kernel

theorem test_b_B9 : steps { start [(0x300, 0x4200)] with regs.x1 := 0xFFFF }
    (fun t => t.regs.p == 0xFFFF) = true := by decide +kernel

theorem test_add_A2 : steps { start [(0x300, 0xA010), (0x10, 0x1)] with regs.a := 0x7FFF, ind.o := true, ind.c := true }
    (fun t => t.regs.a == 0x8000 && t.ind.o == true && t.ind.c == false) = true := by decide +kernel

theorem test_add_A3 : steps { start [(0x300, 0xA010), (0x10, 0x8000)] with regs.a := 0x8000 }
    (fun t => t.regs.a == 0 && t.ind.o == true && t.ind.c == true) = true := by decide +kernel

theorem test_sub_A9 : steps { start [(0x300, 0xB010), (0x10, 0x5)] with regs.a := 3, ind.o := true, ind.c := true }
    (fun t => t.regs.a == 0xFFFE && t.ind.o == false && t.ind.c == false) = true := by decide +kernel

theorem test_sub_A10 : steps { start [(0x300, 0xB010), (0x10, 0x1)] with regs.a := 0x8000 }
    (fun t => t.regs.a == 0x7FFF && t.ind.o == true && t.ind.c == true) = true := by decide +kernel

theorem test_mul_M6 : steps { start [(0x300, 0x3020), (0x20, 0x7FFF)] with regs.a := 0x8000, regs.e := 0xDEAD, ind.o := true }
    (fun t => t.regs.e == 0xC000 && t.regs.a == 0x8000 && t.ind.o == true && t.ind.c == true) = true := by decide +kernel

theorem test_div_DV2 :
    steps { start [(0x300, 0x5030), (0x30, 0x2)] with regs.e := 0xFFFF, regs.a := 0xFFF9, ind.o := true, ind.c := true }
    (fun t => t.regs.e == 0xFFFF && t.regs.a == 0xFFFD && t.ind.o == false && t.ind.c == true) = true := by decide +kernel

theorem test_div_DV8 : steps { start [(0x300, 0x5030), (0x30, 0x1)] with regs.e := 0xFFFF, regs.a := 0x8000 }
    (fun t => t.regs.e == 0xFFFF && t.regs.a == 0x8000 && t.ind.o == true && t.ind.c == true) = true := by decide +kernel

theorem test_im_I2 : steps { start [(0x300, 0xF0FF), (0xFF, 0x7FFF)] with regs.a := 0x1111, ind.o := true, ind.c := true }
    (fun t => t.wordAt 0xFF == 0x8000 && t.regs.a == 0x1111 && t.ind.o == true && t.ind.c == false) = true := by decide +kernel

theorem test_im_I3 : steps { start [(0x300, 0xF0FF), (0xFF, 0xFFFF)] with ind.o := true, ind.c := true }
    (fun t => t.wordAt 0xFF == 0 && t.ind.o == false && t.ind.c == true) = true := by decide +kernel

theorem test_cp_CM2 : steps { start [(0x300, 0xD010), (0x10, 0xFFFF)] with regs.a := 1 }
    (fun t => t.regs.a == 1 && t.ind.o == false && t.ind.c == true) = true := by decide +kernel

theorem test_cp_CM3 : steps { start [(0x300, 0xD010), (0x10, 0x5)] with regs.a := 5 }
    (fun t => t.ind.o == true && t.ind.c == true) = true := by decide +kernel

theorem test_s_H13 : steps { start [(0x300, 0x2064)] with regs.a := 0xF234, ind.o := true, ind.c := true }
    (fun t => t.regs.a == 0x234F && t.ind.o == false && t.ind.c == false) = true := by decide +kernel

theorem test_s_H19 : steps { start [(0x300, 0x20A1)] with regs.e := 0x4000, regs.a := 0x8000, ind.o := true, ind.c := true }
    (fun t => t.regs.e == 0x8001 && t.regs.a == 0 && t.ind.o == true && t.ind.c == false) = true := by decide +kernel

theorem test_bno_J1 : steps (start [(0x300, 0x6005)])
    (fun t => t.regs.p == 0x305) = true := by decide +kernel

theorem test_bno_J2 : steps { start [(0x300, 0x6005)] with ind.o := true }
    (fun t => t.regs.p == 0x301) = true := by decide +kernel

theorem test_bnc_J3 : steps (start [(0x300, 0x6205)])
    (fun t => t.regs.p == 0x305) = true := by decide +kernel

theorem test_bnc_J4 : steps { start [(0x300, 0x6205)] with ind.c := true }
    (fun t => t.regs.p == 0x301) = true := by decide +kernel

theorem test_baz_J6 : steps { start [(0x300, 0x6405)] with regs.a := 0x8000 }
    (fun t => t.regs.p == 0x301) = true := by decide +kernel

theorem test_baz_J20 : steps (start [(0x300, 0x6500)])
    (fun t => t.regs.p == 0x200) = true := by decide +kernel

theorem test_bix_J7 : steps { start [(0x300, 0x67FD)] with regs.x1 := 0xFFFD }
    (fun t => t.regs.p == 0x2FD && t.regs.x1 == 0xFFFE) = true := by decide +kernel

theorem test_bix_J8 : steps { start [(0x300, 0x67FD)] with regs.x1 := 0xFFFF }
    (fun t => t.regs.p == 0x301 && t.regs.x1 == 0) = true := by decide +kernel

theorem test_bxno_J10 : steps { start [(0x300, 0x69FD)] with regs.x1 := 0xFFFD, ind.c := true }
    (fun t => t.regs.p == 0x2FD && t.regs.x1 == 0xFFFE) = true := by decide +kernel

theorem test_bxno_J11 : steps { start [(0x300, 0x69FD)] with regs.x1 := 0xFFFD, ind.o := true }
    (fun t => t.regs.p == 0x301 && t.regs.x1 == 0xFFFD) = true := by decide +kernel

theorem test_bxnc_J13 : steps { start [(0x300, 0x6BFD)] with regs.x1 := 0xFFFD, ind.o := true }
    (fun t => t.regs.p == 0x2FD && t.regs.x1 == 0xFFFE) = true := by decide +kernel

theorem test_bxnc_J15 : steps { start [(0x300, 0x6BFD)] with regs.x1 := 0xFFFF }
    (fun t => t.regs.p == 0x301 && t.regs.x1 == 0) = true := by decide +kernel

theorem test_ben_J16 : steps { start [(0x300, 0x6C05)] with regs.e := 0x8000 }
    (fun t => t.regs.p == 0x305) = true := by decide +kernel

theorem test_ben_J17 : steps { start [(0x300, 0x6C05)] with regs.e := 0x7FFF, regs.a := 0xFFFF }
    (fun t => t.regs.p == 0x301) = true := by decide +kernel

theorem test_ban_J18 : steps { start [(0x300, 0x6E05)] with regs.a := 0xFFFF }
    (fun t => t.regs.p == 0x305) = true := by decide +kernel

theorem test_ban_J19 : steps { start [(0x300, 0x6E05)] with regs.a := 0x7FFF, regs.e := 0x8000 }
    (fun t => t.regs.p == 0x301) = true := by decide +kernel

theorem test_rand_G1 : steps { start [(0x300, 0x7073)] with regs.a := 0xF0F0, regs.t := 0x0FF1, ind.c := true }
    (fun t => t.regs.a == 0xF0 && t.ind.o == false && t.ind.c == true) = true := by decide +kernel

theorem test_randi_G2 : steps { start [(0x300, 0x7173)] with regs.a := 0xF0F0, regs.t := 0x0FF1, ind.c := true }
    (fun t => t.regs.a == 0xF1 && t.ind.o == false && t.ind.c == true) = true := by decide +kernel

theorem test_randc_G3 : steps { start [(0x300, 0x7273)] with regs.a := 0xF0F0, regs.t := 0x0FF1, ind.c := true }
    (fun t => t.regs.a == 0xF1 && t.ind.o == false && t.ind.c == true) = true := by decide +kernel

theorem test_ror_G4 : steps { start [(0x300, 0x7473)] with regs.a := 0xF0F0, regs.t := 0x0FF1, ind.c := true }
    (fun t => t.regs.a == 0xFFF1 && t.ind.o == false && t.ind.c == true) = true := by decide +kernel

theorem test_rori_G5 : steps { start [(0x300, 0x7573)] with regs.a := 0xF0F0, regs.t := 0x0FF1, ind.c := true }
    (fun t => t.regs.a == 0xFFF2 && t.ind.o == false && t.ind.c == true) = true := by decide +kernel

theorem test_rorc_G6 : steps { start [(0x300, 0x7673)] with regs.a := 0xF0F0, regs.t := 0x0FF1, ind.c := true }
    (fun t => t.regs.a == 0xFFF2 && t.ind.o == false && t.ind.c == true) = true := by decide +kernel

theorem test_rcpy_G7 : steps { start [(0x300, 0x74F3)] with regs.a := 0xF0F0, regs.t := 0x0FF1, ind.c := true }
    (fun t => t.regs.a == 0xFF1 && t.ind.o == false && t.ind.c == true) = true := by decide +kernel

theorem test_rcpyi_G8 : steps { start [(0x300, 0x75F3)] with regs.a := 0xF0F0, regs.t := 0x0FF1, ind.c := true }
    (fun t => t.regs.a == 0xFF2 && t.ind.o == false && t.ind.c == true) = true := by decide +kernel

theorem test_rcpyc_G9 : steps { start [(0x300, 0x76F3)] with regs.a := 0xF0F0, regs.t := 0x0FF1, ind.c := true }
    (fun t => t.regs.a == 0xFF2 && t.ind.o == false && t.ind.c == true) = true := by decide +kernel

theorem test_reor_G10 : steps { start [(0x300, 0x7873)] with regs.a := 0xF0F0, regs.t := 0x0FF1, ind.c := true }
    (fun t => t.regs.a == 0xFF01 && t.ind.o == false && t.ind.c == true) = true := by decide +kernel

theorem test_reori_G11 : steps { start [(0x300, 0x7973)] with regs.a := 0xF0F0, regs.t := 0x0FF1, ind.c := true }
    (fun t => t.regs.a == 0xFF02 && t.ind.o == false && t.ind.c == true) = true := by decide +kernel

theorem test_reorc_G12 : steps { start [(0x300, 0x7A73)] with regs.a := 0xF0F0, regs.t := 0x0FF1, ind.c := true }
    (fun t => t.regs.a == 0xFF02 && t.ind.o == false && t.ind.c == true) = true := by decide +kernel

theorem test_radd_G13 : steps { start [(0x300, 0x7C73)] with regs.a := 0xF0F0, regs.t := 0x0FF1, ind.c := true }
    (fun t => t.regs.a == 0xE1 && t.ind.o == false && t.ind.c == true) = true := by decide +kernel

theorem test_raddi_G14 : steps { start [(0x300, 0x7D73)] with regs.a := 0xF0F0, regs.t := 0x0FF1, ind.c := true }
    (fun t => t.regs.a == 0xE2 && t.ind.o == false && t.ind.c == true) = true := by decide +kernel

theorem test_raddc_G15 : steps { start [(0x300, 0x7E73)] with regs.a := 0xF0F0, regs.t := 0x0FF1, ind.c := true }
    (fun t => t.regs.a == 0xE2 && t.ind.o == false && t.ind.c == true) = true := by decide +kernel

theorem test_ror_KC16 : steps { start [(0x300, 0x7401)] with ind.o := true, ind.c := true }
    (fun t => t.regs.p == 0x301 && t.ind.o == true && t.ind.c == true) = true := by decide +kernel

theorem test_rcpy_KC13 : steps { start [(0x300, 0x7497)] with regs.a := 0x1000 }
    (fun t => t.regs.p == 0x1000) = true := by decide +kernel

theorem test_rcpyi_KC12 : steps { start [(0x300, 0x75F8)] with regs.a := 0x1234, ind.o := true }
    (fun t => t.regs.a == 0 && t.ind.o == true && t.ind.c == false) = true := by decide +kernel

theorem test_rorc_KC19 : steps { start [(0x300, 0x7627)] with regs.l := 0xFF, regs.a := 0xFF00, ind.c := true }
    (fun t => t.regs.l == 0 && t.ind.o == false && t.ind.c == true) = true := by decide +kernel

theorem test_radd_KC14 : steps { start [(0x300, 0x7C14)] with regs.x1 := 3 }
    (fun t => t.regs.p == 0x304 && t.ind.o == false && t.ind.c == false) = true := by decide +kernel

theorem test_raddi_KC6 : steps (start [(0x300, 0x7D08)])
    (fun t => t.regs.p == 0x301 && t.ind.o == false && t.ind.c == true) = true := by decide +kernel

theorem test_raddc_KC5 : steps { start [(0x300, 0x7E76)] with regs.a := 0x7FFF, ind.c := true }
    (fun t => t.regs.a == 0x8000 && t.ind.o == true && t.ind.c == false) = true := by decide +kernel

theorem test_copy_KC8 : steps { start [(0x300, 0x7CF3)] with regs.a := 0x1111, regs.t := 0x8765, ind.o := true, ind.c := true }
    (fun t => t.regs.a == 0x8765 && t.ind.o == false && t.ind.c == false) = true := by decide +kernel

theorem test_copy_KC9 : steps { start [(0x300, 0x7F73)] with regs.a := 1, regs.t := 2 }
    (fun t => t.regs.a == 4 && t.ind.o == false && t.ind.c == false) = true := by decide +kernel

theorem test_rd_W9 : steps { start [(0x300, 0x1009)] with chan := State.reset.chan.set 1 0x8005 }
    (fun t => t.regs.a == 0x8005) = true := by decide +kernel

theorem test_rd_W15 : steps { start [(0x300, 0x10E4)] with ind.ii := true, ind.ei := true }
    (fun t => t.regs.a == 0x30 && t.ind.ii == true && t.ind.ei == false) = true := by decide +kernel

theorem test_wd_W8 : steps { start [(0x300, 0x49)] with chan := State.reset.chan.set 1 0x8005, ind.c := true, regs.a := 0x1111 }
    (fun t => t.getChannel 9 == 5 && t.regs.a == 0x1111 && t.ind.o == true && t.ind.c == true) = true := by decide +kernel

theorem test_wd_L1 : steps { start [(0x300, 0x400), (0x0, 0x1200)] with regs.a := 0x8000 }
    (fun t => t.level (.counter 3) == ⟨.armed, true⟩ && t.level (.counter 2) == ⟨.disarmed, false⟩) = true := by decide +kernel

theorem test_sio_IOV5b : steps { start [(0x300, 0x1041)] with regs.a := 3, devices := [device .ready false] }
    (fun t => t.regs.a == 0x1003 && t.ind.o == false && t.ind.c == false && t.devices.all (·.condition == .busy)) = true := by decide +kernel

theorem test_sio_IOV5d : steps { start [(0x300, 0x1041)] with regs.a := 3, devices := [device .ready true] }
    (fun t => t.regs.a == 0x9003 && t.ind.o == false && t.ind.c == true && t.devices.all (·.condition == .ready)) = true := by decide +kernel

theorem test_tio_IOV5f : steps { start [(0x300, 0x1042)] with regs.a := 0xAB03, devices := [device .busy false] }
    (fun t => t.regs.a == 0x7603 && t.ind.o == false && t.ind.c == true) = true := by decide +kernel

theorem test_tdv_IOV5k : steps { start [(0x300, 0x1044)] with regs.a := 0xAB03, devices := [device .ready false] }
    (fun t => t.regs.a == 0x0003 && t.ind.o == false && t.ind.c == false) = true := by decide +kernel

theorem test_hio_IOV5g : steps { start [(0x300, 0x1048)] with regs.a := 3, devices := [device .busy true] }
    (fun t => t.regs.a == 0xF603 && t.ind.o == false && t.ind.c == true && t.devices.all (fun d => d.condition == .ready && !d.pending)) = true := by decide +kernel

theorem test_aio_IOV5j : steps { start [(0x300, 0x1050)] with regs.a := 0x5555, devices := [device .ready true] }
    (fun t => t.regs.a == 0x2003 && t.ind.o == false && t.ind.c == false && t.devices.all (!·.pending)) = true := by decide +kernel

theorem test_aio_IOV5i : steps { start [(0x300, 0x1050)] with regs.a := 0x5555 }
    (fun t => t.regs.a == 0x5555 && t.ind.o == true && t.ind.c == true) = true := by decide +kernel

/-! Witnesses: states and operands that meet the hypotheses of each statement that has some, clause by clause. -/

/-- Displacement 0, indexed: its effective address is X1. -/
def byX1 : MemRef := ⟨.nonrelative 0, false, true⟩

/-- The state with X1 = ea. -/
def withX1 (ea : Word) (s : State) : State := { s with regs.x1 := ea }

theorem addresses_byX1 (ea : Word) (s : State) (h : s.exitCond = false) : Addresses byX1 (withX1 ea s) ea := by
  refine ⟨h, ?_⟩
  simp [effAddr, directAddr, byX1, withX1, referenceAddr, zext]

/-- A privileged instruction with this effective address, allowed to execute. -/
theorem allowed_at (ea : Word) : Addresses byX1 (withX1 ea State.reset) ea ∧ (withX1 ea State.reset).MayControl :=
  ⟨addresses_byX1 ea _ rfl, .inl rfl⟩

theorem answers_next {r : Result} {p : State → Bool} (h : answers r p = true) : ∃ t, r = .next t ∧ p t = true := by
  cases r with
  | next t => exact ⟨t, rfl, h⟩
  | fault f => cases h
  | refused f => cases h

def m50 : MemRef := ⟨.nonrelative 0x50, false, false⟩

/-- The location of the instruction itself, direct and indirect. -/
def here : MemRef := ⟨.selfRelative 0, false, false⟩
def hereIndirect : MemRef := ⟨.selfRelative 0, true, false⟩

/-- H at the first location that does not exist, the parity switches at HALT. -/
def edge : State := { State.reset with cfg.memWords := 0x1000, panel.parity := .halt, h := 0x1000 }

/-- Location X'50' holds one word and A another. -/
def holding (v a : Nat) : State := { State.reset.storeWord 0x50 (BitVec.ofNat 16 v) with regs.a := BitVec.ofNat 16 a }

/-- The exit condition set. -/
def exiting (s : State) : State := { s with exitCond := true }

/-- Device 3 attached, its number in A. -/
def attached (d : Device) : State := { State.reset with devices := [d], regs.a := 3 }

/-- Channel 3 with these registers and a busy device past its order byte. -/
def transferring (even odd : Word) : State :=
  { attached (device .busy false) with chan := (State.reset.chan.set 6 even).set 7 odd }

/-- COMPUTE in IDLE, the key unlocked. -/
def stopped : State := { State.reset with panel.compute := .idle }

/-- The control panel level waiting and enabled. -/
def interrupted : State := State.reset.setLevel .controlPanel ⟨.waiting, true⟩

theorem abort_of_the_address : edge.exitCond = false ∧ effAddr hereIndirect edge = .error .parityHalt := ⟨rfl, rfl⟩

theorem abort_of_the_operand : edge.exitCond = false ∧ effAddr here edge = .ok 0x1000 ∧ readChecked edge 0x1000 = .error .parityHalt :=
  ⟨rfl, rfl, rfl⟩

theorem witness_EncodeThenDecode :
    (Instr.lda m50).wf = true ∧ (Instr.rd byX1).wf = true ∧ (Instr.copy .and true true true ⟨.a, true, .z⟩).wf = true := by
  decide

theorem witness_StepRunsDecodedInstruction :
    ∃ (s u x : State) (i : Instr),
      takeInputs s = .ok u ∧ (recognition u).running = true ∧ (recognition u).wff = false ∧
      (recognition u).panel.firstFromD = false ∧ fetchCheck (startFetch (recognition u)) = .ok x ∧
      (recognition u).existsAt (recognition u).regs.p = true ∧
      (recognition u).regs.p.toNat ∉ (recognition u).badParity ∧
      decodeBytes [(recognition u).mem.readByte (2 * (recognition u).regs.p.toNat),
        (recognition u).mem.readByte (2 * (recognition u).regs.p.toNat + 1)] = .ok (i, []) ∧
      x.panel.progAddHold = false :=
  ⟨State.reset.storeWord 0 0x74F0, State.reset.storeWord 0 0x74F0, startFetch (State.reset.storeWord 0 0x74F0),
    .rcpy ⟨.a, false, .z⟩, rfl, by decide +kernel, by decide +kernel, by decide +kernel, by decide +kernel, by decide +kernel,
    by decide +kernel, by decide +kernel, rfl⟩

/-- `RCPY Z,A` at P, its parity bad. -/
def spoiled (sw : ParitySwitch) : State := { State.reset.storeWord 0 0x74F0 with badParity := [0], panel.parity := sw }

/-- A word that the switches let through in spite of its parity event, and one that they do not; COMPUTE at STEP. -/
theorem witness_StepRunsDecodedInstruction_parity_event (sw : ParitySwitch) (_ : sw = .ignore ∨ sw = .halt) :
    (∃ u x : State, takeInputs (spoiled sw) = .ok u ∧ (recognition u).running = true ∧ (recognition u).wff = false ∧
      (recognition u).panel.firstFromD = false ∧ fetchCheck (startFetch (recognition u)) = .ok x ∧
      readChecked (recognition u) (recognition u).regs.p = if sw = .ignore then .ok 0x74F0 else .error .parityHalt) ∧
    (State.panel { State.reset with panel.compute := .step }).compute = .step ∧ (spoiled sw).panel.compute ≠ .step := by
  refine ⟨⟨spoiled sw, startFetch (spoiled sw), ?_, ?_, ?_, ?_, ?_, ?_⟩, rfl, (by decide : Compute.run ≠ .step)⟩ <;>
    rcases ‹sw = .ignore ∨ sw = .halt› with rfl | rfl <;> decide +kernel

theorem witness_FirstInstructionFromD :
    (stopped.panel.key = .unlocked ∧ stopped.panel.compute = .idle) ∧ KeySwitch.protectOff ≠ .unlocked ∧
    (∃ s x : State, s.panel.firstFromD = true ∧ s.running = true ∧ s.wff = false ∧ fetchCheck (startFetch s) = .ok x) ∧
    ∃ s x : State, s.panel.firstFromD = true ∧ s.panel.compute = .idle ∧ s.panel.key ≠ .unlocked ∧ s.running = true ∧
      s.wff = false ∧ fetchCheck (startFetch s) = .ok x :=
  ⟨⟨rfl, rfl⟩, by decide, ⟨{ State.reset with panel.firstFromD := true, panel.dReg := 0x74F0 }, _, rfl, rfl, rfl, rfl⟩,
    { stopped with panel.key := .protectOff, panel.firstFromD := true }, _, rfl, rfl, by decide, rfl, rfl, rfl⟩

theorem witness_FetchCheckRuleTwo_violation :
    ∃ s : State, s.running = true ∧ s.wff = false ∧ s.operative = true ∧ s.protBit s.regs.p = true ∧ s.ind.pp = false ∧
      s.powerLevelBusy = false :=
  ⟨{ guarded with regs.p := 0xFF }, rfl, rfl, rfl, rfl, rfl, rfl⟩

theorem witness_FetchCheckRuleTwo_allowed :
    (State.reset.running = true ∧ State.reset.wff = false ∧ State.reset.operative = false) ∧
    (guarded.running = true ∧ guarded.wff = false ∧ guarded.protBit guarded.regs.p = false) ∧
    ∃ s : State, s.running = true ∧ s.wff = false ∧ s.operative = true ∧ s.protBit s.regs.p = true ∧ s.powerLevelBusy = true :=
  ⟨⟨rfl, rfl, rfl⟩, ⟨rfl, rfl, rfl⟩,
    State.setLevel { guarded with cfg.power := true, regs.p := 0xFF } .powerOff ⟨.active, true⟩, rfl, rfl, rfl, rfl, rfl⟩

theorem witness_WaitingAndIdle :
    (stopped.env.inputs = [] ∧ (∀ d ∈ stopped.devices, d.pending = false) ∧ stopped.computeMode = .idle) ∧
    (∃ s : State, s.env.inputs = [] ∧ (∀ d ∈ s.devices, d.pending = false) ∧ s.panel.compute ≠ .step ∧ s.wff = true ∧
      select s = none) ∧
    State.reset.panel.key = .unlocked ∧ State.reset.panel.compute ≠ .idle :=
  ⟨⟨rfl, by simp [stopped, State.reset, State.resetWith], rfl⟩,
    ⟨{ State.reset with wff := true }, rfl, by simp [State.reset, State.resetWith], by decide, rfl, rfl⟩, rfl, by decide⟩

theorem witness_EffectiveAddressFormation :
    readChecked (holding 0xFFFF 0) (referenceAddr (.nonrelative 0x50) (holding 0xFFFF 0)) = .ok 0xFFFF ∧
    readChecked edge (referenceAddr (.selfRelative 0) edge) = .error .parityHalt :=
  ⟨rfl, rfl⟩

theorem witness_CheckedReads :
    (State.reset.existsAt 0 = true ∧ State.reset.existsAt 0xFFFF = true ∧ (0xFFFF : Word).toNat ∉ State.reset.badParity) ∧
    edge.existsAt 0x1000 = false ∧ edge.existsAt 0xFFF = true ∧
    (0x50 : Word).toNat ∈ (State.badParity { State.reset with badParity := [0x50] }) ∧
    State.reset.panel.key = .unlocked ∧ State.reset.panel.parity = .ignore ∧ edge.panel.parity = .halt ∧
    (State.panel { edge with panel.key := .protectOn }).key ≠ .unlocked ∧
    (State.panel { edge with panel.parity := .interrupt }).parity = .interrupt ∧
    edge.cfg.memWords ≤ (0x1000 : Word).toNat ∧ edge.cfg.memWords ≤ (0xFFFF : Word).toNat ∧
    State.parityMode { edge with panel.parity := .ignore } = .ignore := by
  decide +kernel

theorem witness_LoadsAndLogicalAnd : Reads m50 (holding 5 3) 0x50 5 := ⟨⟨rfl, rfl⟩, rfl⟩

theorem witness_StoreAccumulator :
    (State.reset.mem.wf ∧ Addresses m50 State.reset 0x50 ∧ State.reset.MayStore 0x50) ∧
    (guarded.mem.wf ∧ Addresses here guarded 0x300 ∧ guarded.operative = true ∧ guarded.MayStore 0x300) ∧
    (guarded.mem.wf ∧ Addresses m50 guarded 0x50 ∧ ¬ guarded.MayStore 0x50) ∧
    (edge.mem.wf ∧ edge.exitCond = false ∧ effAddr hereIndirect edge = .error .parityHalt) :=
  ⟨⟨Memory.wf_nil, ⟨rfl, rfl⟩, .inl rfl⟩, ⟨Memory.wf_nil, ⟨rfl, rfl⟩, rfl, .inr (.inr (.inl rfl))⟩,
    ⟨Memory.wf_nil, ⟨rfl, rfl⟩, by unfold State.MayStore; decide +kernel⟩, Memory.wf_nil, rfl, rfl⟩

theorem witness_IncrementMemory :
    (State.reset.mem.wf ∧ Reads m50 State.reset 0x50 0 ∧ State.reset.MayStore 0x50) ∧
    (edge.mem.wf ∧ Addresses here edge 0x1000 ∧ edge.MayStore 0x1000 ∧ readChecked edge 0x1000 = .error .parityHalt) :=
  ⟨⟨Memory.wf_nil, ⟨⟨rfl, rfl⟩, rfl⟩, .inl rfl⟩, Memory.wf_nil, ⟨rfl, rfl⟩, .inl rfl, rfl⟩

theorem witness_AddResult : Reads m50 (holding 0x8000 0x8000) 0x50 0x8000 := ⟨⟨rfl, rfl⟩, rfl⟩

theorem witness_SubtractResult : Reads m50 (holding 1 0x8000) 0x50 1 := ⟨⟨rfl, rfl⟩, rfl⟩

theorem witness_MultiplyResult :
    (Reads m50 (holding 0x8000 0x8000) 0x50 0x8000 ∧ (holding 0x8000 0x8000).cfg.mulDiv = true) ∧
    (∃ s : State, s.cfg.mulDiv = false ∧ Addresses m50 s 0x50) ∧
    ∃ s : State, s.cfg.mulDiv = false ∧ s.exitCond = false ∧ effAddr hereIndirect s = .error .parityHalt :=
  ⟨⟨⟨⟨rfl, rfl⟩, rfl⟩, rfl⟩, ⟨{ State.reset with cfg.mulDiv := false }, rfl, rfl, rfl⟩, { edge with cfg.mulDiv := false }, rfl, rfl,
    rfl⟩

/-- Divisor zero; the quotients 32768, which overflows, and 32767, which does not. -/
theorem witness_DivideResult :
    Reads m50 (holding 0 5) 0x50 0 ∧
    (Reads m50 (holding 1 0x8000) 0x50 1 ∧
      32768 ≤ (((holding 1 0x8000).regs.e ++ (holding 1 0x8000).regs.a).toInt.tdiv (1 : Word).toInt).natAbs) ∧
    (Reads m50 (holding 1 0x7FFF) 0x50 1 ∧
      (((holding 1 0x7FFF).regs.e ++ (holding 1 0x7FFF).regs.a).toInt.tdiv (1 : Word).toInt).natAbs < 32768) :=
  ⟨⟨⟨rfl, rfl⟩, rfl⟩, ⟨⟨⟨rfl, rfl⟩, rfl⟩, by decide +kernel⟩, ⟨⟨rfl, rfl⟩, rfl⟩, by decide +kernel⟩

theorem witness_CompareResult :
    (Reads m50 (holding 1 0xFFFF) 0x50 1 ∧ (0xFFFF : Word).toInt < (1 : Word).toInt) ∧
    (Reads m50 (holding 0xFFFF 1) 0x50 0xFFFF ∧ (0xFFFF : Word).toInt < (1 : Word).toInt) ∧
    (Reads m50 (holding 5 5) 0x50 5 ∧ (holding 5 5).regs.a = 5) :=
  ⟨⟨⟨⟨rfl, rfl⟩, rfl⟩, by decide⟩, ⟨⟨⟨rfl, rfl⟩, rfl⟩, by decide⟩, ⟨⟨rfl, rfl⟩, rfl⟩, rfl⟩

/-- A single and a double shift of 31 positions, and a count of zero. -/
theorem witness_ShiftResult (ea : Word) (_ : ea = 0x1F ∨ ea = 0xFF ∨ ea = 0) : Addresses byX1 (withX1 ea State.reset) ea :=
  addresses_byX1 ea _ rfl

theorem witness_BranchResult (ea : Word) (_ : ea = 0 ∨ ea = 0xFFFF) : Addresses byX1 (withX1 ea State.reset) ea :=
  addresses_byX1 ea _ rfl

/-- The control panel level active, and the power-off level above it, which is not installed: the chain before the level found. -/
theorem witness_ExitFromInterruptRoutine :
    (∃ (m : MemRef) (s : State) (ea w p : Word) (above below : List Level), s.exitCond = true ∧ effAddr m s = .ok ea ∧
      readChecked s ea = .ok w ∧ readChecked s (ea + 1) = .ok p ∧ priorityChain s.cfg = above ++ .controlPanel :: below ∧
      (s.level .controlPanel).state = .active ∧ ∀ x ∈ above, (s.level x).state ≠ .active) ∧
    ((exiting State.reset).exitCond = true ∧
      ∀ l ∈ priorityChain (exiting State.reset).cfg, ((exiting State.reset).level l).state ≠ .active) ∧
    (∃ (m : MemRef) (s : State) (ea : Word), s.exitCond = true ∧ effAddr m s = .ok ea ∧
      readChecked s ea = .error .parityHalt) ∧
    (∃ (m : MemRef) (s : State) (ea w : Word), s.exitCond = true ∧ effAddr m s = .ok ea ∧ readChecked s ea = .ok w ∧
      readChecked s (ea + 1) = .error .parityHalt) ∧
    ∃ (m : MemRef) (s : State), s.exitCond = true ∧ effAddr m s = .error .parityHalt :=
  ⟨⟨m50, exiting (State.reset.setLevel .controlPanel ⟨.active, true⟩), 0x50, 0, 0,
      [.counter 3, .counter 2, .counter 1, .counter 0, .memoryParity, .inputOutput], (priorityChain Config.default).drop 7, rfl, rfl,
      rfl, rfl, by decide +kernel, by decide +kernel, by decide +kernel⟩,
    ⟨rfl, by decide +kernel⟩, ⟨here, exiting edge, 0x1000, rfl, rfl, rfl⟩,
    ⟨here, exiting { edge with h := 0xFFF }, 0xFFF, 0, rfl, rfl, rfl, rfl⟩, hereIndirect, exiting edge, rfl, rfl⟩

theorem witness_ExitWithoutLdxRefused : (exiting State.reset).exitCond = true ∧ ∀ m, Instr.aio ≠ .ldx m := ⟨rfl, by simp⟩

/-- The branches and copies ask for the exit condition clear only. -/
theorem witness_branches_and_copies : State.reset.exitCond = false ∧ guarded.exitCond = false := ⟨rfl, rfl⟩

theorem witness_CopyWorkedExamples : guarded.exitCond = false ∧ guarded.regs.p = guarded.h + 1 := ⟨rfl, rfl⟩

theorem witness_PrivilegeViolation :
    (Addresses m50 guarded 0x50 ∧ ¬ guarded.MayControl) ∧ edge.exitCond = false ∧ effAddr hereIndirect edge = .error .parityHalt :=
  ⟨⟨⟨rfl, rfl⟩, by unfold State.MayControl; decide +kernel⟩, rfl, rfl⟩

/-- General registers 0 and 7, the first and the last channel register of four channels, the numbers around them, and the same for
test and clear; no device, then device 3 busy, whose channel registers are 14 and 15, then ready. -/
theorem witness_ReadRegisterBlock_and_WriteRegisterBlock (ea : Word)
    (_ : ea ∈ [(0 : Word), 7, 8, 15, 16, 63, 0x40, 0x47, 0x48, 0x4F, 0x50, 0x7F]) :
    (Addresses byX1 (withX1 ea State.reset) ea ∧ (withX1 ea State.reset).MayControl ∧ (withX1 ea State.reset).cfg.channels = 4) ∧
    ∀ (c : Condition), Addresses byX1 (withX1 ea (attached (device c false))) ea ∧
      (withX1 ea (attached (device c false))).MayControl ∧ device c false ∈ (withX1 ea (attached (device c false))).devices ∧
      channelOf (withX1 ea (attached (device c false))).cfg (device c false).number = some ((14 - 8) / 2) :=
  ⟨⟨(allowed_at ea).1, (allowed_at ea).2, rfl⟩, fun _ => ⟨addresses_byX1 ea _ rfl, .inl rfl, by simp [attached, withX1], rfl⟩⟩

theorem witness_ReadStatusAndSwitches (ea : Word) (_ : ea ∈ [(0x80 : Word), 0xC0, 0xE0, 0xEC, 0xF0, 0xFC]) :
    Addresses byX1 (withX1 ea State.reset) ea ∧ (withX1 ea State.reset).MayControl :=
  allowed_at ea

/-- The first and the last protection register, with and without the option. -/
theorem witness_LoadProtectionRegister (ea : Word) (_ : ea ∈ [(0x80 : Word), 0x8F]) (b : Bool) :
    Addresses byX1 (withX1 ea { State.reset with cfg.protect := b }) ea ∧
      (withX1 ea { State.reset with cfg.protect := b }).MayControl ∧ (withX1 ea { State.reset with cfg.protect := b }).cfg.protect = b :=
  ⟨addresses_byX1 ea _ rfl, .inl (by cases b <;> rfl), rfl⟩

theorem witness_LoadStatusAndInhibits_and_WaitAndExitCondition (ea : Word)
    (_ : ea ∈ [(0xC0 : Word), 0xE0, 0xEC, 0xF0, 0xFC, 0xD0, 0xD8]) :
    Addresses byX1 (withX1 ea State.reset) ea ∧ (withX1 ea State.reset).MayControl :=
  allowed_at ea

theorem witness_WaitAndExitCondition_recognition : (exiting State.reset).exitCond = true := rfl

theorem witness_InterruptControl (ea : Word) (_ : ea ∈ [(0x1100 : Word), 0x110F, 0x1700, 0x170F]) :
    Addresses byX1 (withX1 ea State.reset) ea ∧ (withX1 ea State.reset).MayControl ∧
      selectedLevel (withX1 ea State.reset).cfg 0 15 = some (.integral 3) ∧
      selectedLevel (withX1 ea State.reset).cfg 15 0 = none :=
  ⟨(allowed_at ea).1, (allowed_at ea).2, rfl, rfl⟩

/-- Each answer of the device, without and with a Watchdog Timer. -/
theorem witness_ExternalMode (ea : Word) (_ : ea = 0x2000 ∨ ea = 0xFFFF) (l : List DirectAnswer) (w : Option WatchdogConfig) :
    Addresses byX1 (withX1 ea { State.reset with env.answers := l, cfg.watchdog := w }) ea ∧
      (withX1 ea { State.reset with env.answers := l, cfg.watchdog := w }).MayControl ∧
      (withX1 ea { State.reset with env.answers := l, cfg.watchdog := w }).cfg.directIo = true ∧
      (withX1 ea { State.reset with env.answers := l, cfg.watchdog := w }).env.answers = l ∧
      (withX1 ea { State.reset with env.answers := l, cfg.watchdog := w }).cfg.watchdog = w :=
  ⟨addresses_byX1 ea _ rfl, .inl rfl, rfl, rfl, rfl⟩

theorem witness_ExternalMode_no_timer_instruction :
    watchdogOp { Config.default with watchdog := some ⟨0x2001, 0x2002, 0x2003, none⟩ } 0x2000 = none := by decide

/-- A Watchdog Timer with its Enable at this address, the two others in an external mode. -/
def timed (ea : Word) (level : Option Level) (enabled due : Bool) : State :=
  { State.reset with
    cfg.watchdog := some ⟨ea, 0x2001, 0x2002, level⟩, watchdog.enabled := enabled, watchdog.signalDue := due
    watchdog.aborted := true }

/-- The ends of the external modes, an unassigned internal function, function code 000 and reserved bits of interrupt control; and
the two other instructions. -/
theorem witness_WatchdogTimer (ea : Word) (h : ea ∈ [(0x2000 : Word), 0xFFFF, 0x90, 0xFFF, 0x100F, 0x1810]) :
    (∃ w, Addresses byX1 (withX1 ea (timed ea none true false)) ea ∧ (withX1 ea (timed ea none true false)).MayControl ∧
      (timed ea none true false).cfg.directIo = true ∧ (timed ea none true false).cfg.watchdog = some w ∧ ea = w.enableEa ∧
      (0x2000 ≤ ea.toNat ∨ WriteUnassigned ea.toNat)) ∧
    ∀ x ∈ [(0x2001 : Word), 0x2002], x ≠ ea ∧ Addresses byX1 (withX1 x (timed ea none true false)) x ∧ 0x2000 ≤ x.toNat := by
  refine ⟨⟨_, addresses_byX1 ea _ rfl, .inl rfl, rfl, rfl, rfl, ?_⟩, ?_⟩
  · unfold WriteUnassigned
    simp only [List.mem_cons, List.not_mem_nil, or_false] at h
    rcases h with rfl | rfl | rfl | rfl | rfl | rfl <;> decide
  · intro x hx
    simp only [List.mem_cons, List.not_mem_nil, or_false] at h hx
    refine ⟨?_, addresses_byX1 x _ rfl, ?_⟩
    · rcases hx with rfl | rfl <;> rcases h with rfl | rfl | rfl | rfl | rfl | rfl <;> decide
    · rcases hx with rfl | rfl <;> decide

theorem witness_WatchdogTimer_signals (l : Option Level) (e d : Bool) :
    (timed 0x2000 l e d).cfg.watchdog = some ⟨0x2000, 0x2001, 0x2002, l⟩ ∧ (timed 0x2000 l e d).watchdog.enabled = e ∧
      (timed 0x2000 l e d).watchdog.signalDue = d ∧ (timed 0x2000 l e d).panel.compute ≠ .step :=
  ⟨rfl, rfl, rfl, (by decide : Compute.run ≠ .step)⟩

/-- The ends of every range that selects nothing. -/
theorem witness_UndefinedDirectFunctions (ea : Word)
    (_ : ea ∈ [(0x100 : Word), 0xFFF, 0x1000, 0x1FFF, 0x40, 0x43, 0x45, 0x47, 0x49, 0x4F, 0x51, 0x7F, 0x81, 0xBF, 0xC1, 0xDF, 0xE1,
      0xFF, 0x90, 0xCF, 0xD1, 0xD7, 0xD9, 0x100F, 0x1010, 0x1800]) :
    Addresses byX1 (withX1 ea State.reset) ea ∧ (withX1 ea State.reset).MayControl ∧
      watchdogOp (withX1 ea State.reset).cfg ea = none :=
  ⟨(allowed_at ea).1, (allowed_at ea).2, rfl⟩

theorem witness_UndefinedDirectFunctions_no_direct_io :
    Addresses byX1 (withX1 0x2000 { State.reset with cfg.directIo := false }) 0x2000 ∧
      (withX1 0x2000 { State.reset with cfg.directIo := false }).MayControl :=
  ⟨addresses_byX1 _ _ rfl, .inl rfl⟩

theorem witness_ReadDirectSelectsIo (ea : Word) (_ : ea ∈ [(0x41 : Word), 0x42, 0x44, 0x48, 0x50]) :
    Addresses byX1 (withX1 ea State.reset) ea :=
  (allowed_at ea).1

/-- Device 3, in the manual mode, still awaits its order byte. -/
def manual : State :=
  { attached { device .busy false with order := .memory, own := { (device .busy false).own with automatic := false } } with
    chan := (State.reset.chan.set 6 0x400).set 7 2 }

/-- An SIO that is accepted and one that is not; COMPUTE in IDLE, a device not busy, and one in the manual mode. -/
theorem witness_StartInputOutput :
    (∃ (s : State) (d : Device), s.exitCond = false ∧ s.MayControl ∧ s.panel.loadCond = false ∧
      s.findDevice (byte1 s.regs.a) = some d ∧ d.condition = .ready ∧ d.controller = .ready ∧ d.pending = false) ∧
    (∃ (s : State) (d : Device), s.exitCond = false ∧ s.MayControl ∧ s.panel.loadCond = false ∧
      s.findDevice (byte1 s.regs.a) = some d ∧ ¬ (d.condition = .ready ∧ d.controller = .ready ∧ d.pending = false)) ∧
    (∃ (s : State) (d : Device), s.findDevice 3 = some d ∧ s.computeMode = .idle) ∧
    (∃ (s : State) (d : Device), s.findDevice 3 = some d ∧ d.condition ≠ .busy) ∧
    (∃ d : Device, manual.findDevice 3 = some d ∧ manual.computeMode ≠ .idle ∧ d.condition = .busy ∧ d.own.automatic = false ∧
      d.order ≠ .notAwaited) ∧
    sameController 0x23 3 = false ∧ sameController 0x92 0x91 = true :=
  ⟨⟨attached (device .ready false), device .ready false, rfl, .inl rfl, rfl, rfl, rfl, rfl, rfl⟩,
    ⟨attached (device .ready true), device .ready true, rfl, .inl rfl, rfl, rfl, by decide⟩,
    ⟨{ attached (device .busy false) with panel.compute := .idle }, _, rfl, rfl⟩, ⟨attached (device .ready false), _, rfl, by decide⟩,
    ⟨_, rfl, (by decide : Compute.run ≠ .idle), rfl, rfl, by decide⟩, by decide, by decide⟩

theorem witness_TestDevices_and_HaltInputOutput (c : Condition) (p : Bool) :
    (attached (device c p)).exitCond = false ∧ (attached (device c p)).MayControl ∧
      (attached (device c p)).findDevice (byte1 (attached (device c p)).regs.a) = some (device c p) :=
  ⟨rfl, .inl rfl, rfl⟩

theorem witness_AcknowledgeInterrupt :
    ∃ (s : State) (d : Device) (before after : List Device), s.exitCond = false ∧ s.MayControl ∧
      s.devices = before ++ d :: after ∧ (∀ x ∈ before, x.pending = false) ∧ d.pending = true ∧
      ∀ x ∈ before ++ after, x.number ≠ d.number :=
  ⟨{ State.reset with devices := [{ device .ready false with number := 1 }, device .ready true, { device .busy true with number := 2 }] },
    device .ready true, [{ device .ready false with number := 1 }], [{ device .busy true with number := 2 }], rfl, .inl rfl, rfl,
    by simp [device], rfl, by simp [device]⟩

theorem witness_NoDeviceResponds :
    State.reset.exitCond = false ∧ State.reset.MayControl ∧ State.reset.findDevice (byte1 State.reset.regs.a) = none ∧
      State.reset.panel.loadCond = false ∧ ∀ d ∈ State.reset.devices, d.pending = false :=
  ⟨rfl, .inl rfl, rfl, rfl, by simp [State.reset, State.resetWith]⟩

/-- A device in any condition, no device, a number without a channel; the order request of the device. -/
theorem witness_StartUnderLoadCondition (c : Condition) (p : Bool) :
    (∃ s : State, s.exitCond = false ∧ s.MayControl ∧ s.panel.loadCond = true ∧ s.cfg.channels ≤ 20 ∧
      s.findDevice (byte1 s.regs.a) = some (device c p) ∧ channelOf s.cfg (byte1 s.regs.a) = some 3) ∧
    (∃ s : State, s.exitCond = false ∧ s.MayControl ∧ s.panel.loadCond = true ∧ s.cfg.channels ≤ 20 ∧
      s.findDevice (byte1 s.regs.a) = none ∧ channelOf s.cfg (byte1 s.regs.a) = none) ∧
    ∃ (s : State) (d : Device), s.computeMode ≠ .idle ∧ s.findDevice 3 = some d ∧ d.condition = .busy ∧ d.own.automatic = true ∧
      d.order = .processor ∧ channelOf s.cfg 3 = some 3 :=
  ⟨⟨{ attached (device c p) with panel.loadCond := true }, rfl, .inl rfl, rfl, (by decide : 4 ≤ 20), rfl, rfl⟩,
    ⟨{ State.reset with panel.loadCond := true, regs.a := 20 }, rfl, .inl rfl, rfl, (by decide : 4 ≤ 20), rfl, rfl⟩,
    attached { device .busy false with order := .processor }, _, (by decide : Compute.run ≠ .idle), rfl, rfl, rfl, rfl, rfl⟩

/-- A count of 2 with the chaining flag, which is not reached yet, a count of 1 without, the greatest count; also with the order
byte awaited. -/
theorem witness_ChannelByte (odd : Word) (_ : odd = 0x4002 ∨ odd = 1 ∨ odd = 0x1FFF) :
    (transferring 0x400 odd).mem.wf ∧ (transferring 0x400 odd).cfg.channels ≤ 20 ∧
      (transferring 0x400 odd).cfg.iocdCount = 0x1FFF ∧ (transferring 0x400 odd).cfg.iocdDc = 0x4000 ∧
      (transferring 0x400 odd).computeMode ≠ .idle ∧
      (transferring 0x400 odd).findDevice 3 = some (device .busy false) ∧ (device .busy false).condition = .busy ∧
      (device .busy false).order = .notAwaited ∧ channelOf (transferring 0x400 odd).cfg 3 = some 3 ∧
      (transferring 0x400 odd).getChannel (evenReg 3) = 0x400 ∧ (transferring 0x400 odd).getChannel (oddReg 3) = odd ∧
      0 < odd.toNat % 8192 ∧ (1 < odd.toNat % 8192 ∨ odd.getMsbD 1 = false) ∧
      State.findDevice { transferring 0x400 odd with devices := [{ device .busy false with order := .memory }] } 3 =
        some { device .busy false with order := .memory } ∧ (device .busy false).own.automatic = true := by
  refine ⟨Memory.wf_nil, (by decide : 4 ≤ 20), rfl, rfl, (by decide : Compute.run ≠ .idle), rfl, rfl, rfl, rfl, rfl, rfl, ?_, ?_, rfl,
    rfl⟩
  all_goals rcases ‹odd = 0x4002 ∨ odd = 1 ∨ odd = 0x1FFF› with rfl | rfl | rfl <;> decide

/-- A count of 1 with the chaining flag, the interrupt flag set and not; the second word of the next doubleword, at X'402', empty or
with a count; also with the order byte awaited. -/
theorem witness_DataChaining (odd : Word) (_ : odd = 0x4001 ∨ odd = 0x6001) (m : Memory) (_ : m = [] ∨ m = [(0x804, 0x9F)]) :
    ∃ s : State, s = { transferring 0x400 odd with mem := m } ∧ s.mem.wf ∧ s.cfg.channels ≤ 20 ∧
      s.cfg.iocdCount = 0x1FFF ∧ s.cfg.iocdDc = 0x4000 ∧ s.cfg.iocdI = 0x2000 ∧ s.computeMode ≠ .idle ∧
      s.findDevice 3 = some (device .busy false) ∧ (device .busy false).condition = .busy ∧
      (device .busy false).order = .notAwaited ∧ channelOf s.cfg 3 = some 3 ∧
      s.getChannel (evenReg 3) = 0x400 ∧ s.getChannel (oddReg 3) = odd ∧ odd.toNat % 8192 = 1 ∧ odd.getMsbD 1 = true ∧
      (s.wordAt (0x400 + 2) = if m = [] then 0 else 0x9F00) ∧
      State.findDevice { s with devices := [{ device .busy false with order := .memory }] } 3 =
        some { device .busy false with order := .memory } ∧ (device .busy false).own.automatic = true := by
  refine ⟨_, rfl, ?_, (by decide : 4 ≤ 20), rfl, rfl, rfl, (by decide : Compute.run ≠ .idle), rfl, rfl, rfl, rfl, rfl, rfl, ?_, ?_, ?_,
    rfl, rfl⟩
  · show m.wf
    rcases ‹m = [] ∨ m = [(0x804, 0x9F)]› with rfl | rfl <;> decide
  · rcases ‹odd = 0x4001 ∨ odd = 0x6001› with rfl | rfl <;> decide
  · rcases ‹odd = 0x4001 ∨ odd = 0x6001› with rfl | rfl <;> decide
  · rcases ‹m = [] ∨ m = [(0x804, 0x9F)]› with rfl | rfl <;> rcases ‹odd = 0x4001 ∨ odd = 0x6001› with rfl | rfl <;> decide +kernel

theorem witness_OperationEnd :
    (transferring 0x400 0x2000).cfg.channels ≤ 20 ∧ (transferring 0x400 0x2000).computeMode ≠ .idle ∧
      (transferring 0x400 0x2000).findDevice 3 = some (device .busy false) ∧ (device .busy false).condition = .busy ∧
      channelOf (transferring 0x400 0x2000).cfg 3 = some 3 ∧ (device .busy false).own.automatic = true ∧
      (device .busy false).order = .notAwaited :=
  ⟨(by decide : 4 ≤ 20), (by decide : Compute.run ≠ .idle), rfl, rfl, rfl, rfl, rfl⟩

theorem witness_LevelSelection : Config.default.wf = true := by decide +kernel

/-- A batch that makes device 3 request an interrupt; no batch left and a device pending; and none pending. -/
theorem witness_LevelSignals :
    (∃ s u : State, applyInputs (s.env.inputs.headD []) { s with env.inputs := s.env.inputs.tail } = .ok u ∧
      (∃ d ∈ u.devices, d.pending = true) ∧ ∀ d ∈ s.devices, d.pending = false) ∧
    (∃ s u : State, s.env.inputs = [] ∧ applyInputs (s.env.inputs.headD []) { s with env.inputs := s.env.inputs.tail } = .ok u ∧
      ∃ d ∈ u.devices, d.pending = true) ∧
    ∃ s u : State, applyInputs (s.env.inputs.headD []) { s with env.inputs := s.env.inputs.tail } = .ok u ∧
      ∀ d ∈ u.devices, d.pending = false :=
  ⟨⟨{ attached (device .ready false) with env.inputs := [[.deviceInterrupt 3]] }, _, rfl,
      ⟨device .ready true, by simp [State.raiseDevice, State.updateDevice, attached, device], rfl⟩, by simp [attached, device]⟩,
    ⟨attached (device .ready true), _, rfl, rfl, device .ready true, by simp [attached], rfl⟩,
    State.reset, _, rfl, by simp [State.reset, State.resetWith]⟩

theorem witness_ResetState :
    (stopped.panel.key = .unlocked ∧ stopped.panel.compute = .idle ∧ stopped.cfg.protect = false) ∧
    State.operative { stopped with cfg.protect := true, panel.protect := true } = true ∧ State.reset.panel.compute ≠ .idle :=
  ⟨⟨rfl, rfl, rfl⟩, rfl, by decide⟩

theorem witness_InterruptEntry :
    interrupted.mem.wf ∧ interrupted.running = true ∧ interrupted.exitCond = false ∧ interrupted.panel.firstFromD = false ∧
      select interrupted = some .controlPanel ∧ ∀ n, Level.controlPanel ≠ .counter n :=
  ⟨Memory.wf_nil, rfl, rfl, rfl, by decide +kernel, by simp⟩

/-- Counter 4 waiting and enabled. -/
def counting : State := State.reset.setLevel (.counter 3) ⟨.waiting, true⟩

theorem witness_CounterService :
    (State.reset.mem.wf ∧ (State.reset.storeWord 0xFF 0xFFFF).mem.wf) ∧
    (counting.running = true ∧ counting.exitCond = false ∧ counting.panel.firstFromD = false ∧
      select counting = some (.counter 3)) ∧
    State.reset.running = true ∧ State.reset.exitCond = false ∧ State.reset.panel.firstFromD = false ∧ select State.reset = none :=
  ⟨⟨Memory.wf_nil, State.wf_storeWord _ _ _ Memory.wf_nil⟩, ⟨rfl, rfl, rfl, by decide +kernel⟩, rfl, rfl, rfl, by decide +kernel⟩

theorem witness_NothingElseStops : State.reset.exitCond = false ∧ ∀ m, Instr.aio ≠ .rd m ∧ Instr.aio ≠ .wd m := ⟨rfl, by simp⟩

/-- A load of a protected word, which is allowed, and a store there, which takes the exception. -/
theorem witness_UnprotectedProgramIsConfined :
    guarded.mem.wf ∧ guarded.operative = true ∧ guarded.protBit guarded.h = false ∧ guarded.powerLevelBusy = false ∧
      guarded.exitCond = false ∧ guarded.protBit 0x50 = true ∧
      (∃ t, exec (.lda m50) guarded = .next t) ∧ ∃ t, exec (.sta m50) guarded = .next t :=
  ⟨Memory.wf_nil, rfl, rfl, rfl, rfl, rfl, ⟨_, rfl⟩, _, rfl⟩

theorem witness_StepKeepsInvariant : State.reset.Inv ∧ ∃ t, step State.reset = .next t := by
  refine ⟨⟨⟨Memory.wf_nil, ?_, ?_, ?_⟩, resetLevels_inv rfl, fun _ => rfl, ?_⟩, ?_⟩
  · simp [State.reset, State.resetWith]
  · simp [State.reset, State.resetWith]
  · simp [State.reset, State.resetWith]
  · simp [State.reset, State.resetWith]
  · obtain ⟨t, h, -⟩ := answers_next (r := step State.reset) (p := fun _ => true) (by decide +kernel)
    exact ⟨t, h⟩

theorem witness_StepKeepsConfiguration : ∃ t, step State.reset = .next t := witness_StepKeepsInvariant.2

/-! Points of the panel, the Watchdog Timer and the channel that two rules together decide. -/

/-- Locking the key over COMPUTE at IDLE runs the processor, from D; the switch stays (R402, R396). -/
theorem test_locked_key_acts_as_run :
    steps { stopped with env.inputs := [[.setKey .protectOff]], panel.dReg := 0x74F0, regs.a := 5 } (fun t =>
      t.regs.a == 0 && t.regs.p == 1 && t.panel.compute == .idle && t.running) = true := by
  decide +kernel

/-- Unlocking it there stops the processor (R402, R395). -/
theorem test_unlocked_key_shows_the_switch :
    steps { stopped with panel.key := .protectOff, env.inputs := [[.setKey .unlocked]], regs.a := 5 } (fun t =>
      t.regs.p == 0 && t.regs.a == 5 && !t.running) = true := by
  decide +kernel

/-- An instruction aborted right after an aborted one: the first signal comes and the second is due (R380). -/
theorem test_two_aborts_signal_twice :
    steps
      { (timed 0x2000 (some (.integral 0)) true true).storeWord 0 0x1200 with
        env.answers := [.silent], regs.x1 := 0x2003, levels := State.reset.levels.set 16 ⟨.armed, true⟩ }
      (fun t => (t.level (.integral 0)).state == .waiting && t.watchdog.signalDue && !t.watchdog.aborted) = true := by
  decide +kernel

/-- The Watchdog Timer enabled at an address that nothing assigns: O and C keep what they hold (R35, R221). -/
theorem test_wd_of_the_timer_at_an_unassigned_address :
    answers (exec (.wd byX1) (withX1 0x90 { timed 0x90 none false false with ind.o := true })) (fun t =>
      t.watchdog.enabled && t.ind.o && !t.ind.c && t.env.freeCount == 0) = true := by
  decide +kernel

/-- The order byte of a device in the manual mode is not served, and is once the device is in the automatic mode (R280). -/
theorem test_manual_device_begins_in_the_automatic_mode :
    applyInput (.service 3 .output) manual = .ok manual ∧
      (match applyInputs [.deviceOwn 3 (device .busy false).own, .service 3 .output] manual with
        | .ok t => t.env.sent == [.channelByte 3 0] && t.getChannel 15 == 1
        | .error _ => false) = true := by
  decide +kernel

/-- A write to the register of a busy channel (R414). -/
theorem test_wd_of_a_busy_channel_refused :
    refuses (exec (.wd byX1) (withX1 14 (transferring 0x400 1))) .channelRegisterBusy = true := by
  decide +kernel

end Sys2Proof.Tests
end

section
/-! The configuration through a step (R6). Each part of the step keeps it: the events from outside, the interrupt recognition, the
fetch, the meaning of every instruction, and what follows an instruction. -/

namespace Sys2Proof.Machine

/-! The events from outside. -/

@[simp] theorem setParityOf_cfg (a : Word) (bad : Bool) (s : State) : (setParityOf a bad s).cfg = s.cfg := by
  unfold setParityOf; split <;> rfl

@[simp] theorem endParityHalt_cfg (s : State) : (endParityHalt s).cfg = s.cfg := rfl

@[simp] theorem initializeLoad_cfg (s : State) : (initializeLoad s).cfg = s.cfg := rfl

@[simp] theorem State.panelWrite_cfg (s : State) (r : PanelReg) (v : Word) : (s.panelWrite r v).cfg = s.cfg := by
  cases r <;> rfl

@[simp] theorem showLocation_cfg (a : Word) (s : State) : (showLocation a s).cfg = s.cfg := rfl

theorem chain_cfg {ch : Nat} {dev : Byte} {s t : State} (h : chain ch dev s = .ok t) : t.cfg = s.cfg := by
  simp only [chain] at h
  split at h
  · cases h
  · cases h
    simp [apply_ite State.cfg]

theorem serviceByte_cfg {ch : Nat} {dev : Byte} {tr : Transfer} {s t : State} (h : serviceByte ch dev tr s = .ok t) :
    t.cfg = s.cfg := by
  simp only [serviceByte] at h
  split at h
  · cases h; rfl
  · split at h
    · cases h; simp
    · split at h
      · simpa using chain_cfg h
      · cases h; simp

/-- A request for service leaves the state, serves one byte with the order byte no longer awaited, or sends the processor's order. -/
theorem serviceDevice_cfg {dev : Byte} {tr : Transfer} {s t : State} (h : serviceDevice dev tr s = .ok t) : t.cfg = s.cfg := by
  unfold serviceDevice at h
  split at h
  · split at h
    · split at h
      · exact serviceByte_cfg h
      · split at h
        · cases h; rfl
        · simpa using serviceByte_cfg h
      all_goals cases h; rfl
    · cases h; rfl
  · cases h; rfl

/-- Only the service of a device can be refused; every other event is one update of the state, or none. -/
theorem applyInput_cfg {i : Input} {s t : State} (h : applyInput i s = .ok t) : t.cfg = s.cfg := by
  cases i
  case service dev tr =>
    simp only [applyInput] at h
    split at h
    · cases h; rfl
    · exact serviceDevice_cfg h
  all_goals
    simp only [applyInput, Except.ok.injEq] at h
    subst h
    simp [apply_ite State.cfg]

theorem applyInputs_cfg {l : List Input} {s t : State} (h : applyInputs l s = .ok t) : t.cfg = s.cfg := by
  induction l generalizing s with
  | nil => cases h; rfl
  | cons i l ih =>
    simp only [applyInputs] at h
    split at h
    · next u hu => exact (ih h).trans (applyInput_cfg hu)
    · cases h

theorem takeInputs_cfg {s t : State} (h : takeInputs s = .ok t) : t.cfg = s.cfg := by
  unfold takeInputs at h
  split at h
  · next u hu =>
    cases h
    rw [holdIoSignal_cfg, applyInputs_cfg hu]
  · cases h

/-! Recognition and fetch. -/

@[simp] theorem recognition_cfg (s : State) : (recognition s).cfg = s.cfg := by
  unfold recognition
  split
  · exact recognise_cfg 5 s
  · rfl

theorem fetchCheck_cfg {s t : State} (h : fetchCheck s = .ok t) : t.cfg = s.cfg := by
  rw [fetchCheck_ok h]

/-- The state a fetch leaves, whether the step ends there or a word is executed from it. -/
def Fetched.state : Fetched → State
  | .rest s => s
  | .run _ s => s

theorem fetch_cfg (s : State) : (fetch s).state.cfg = s.cfg := by
  unfold fetch
  split
  · rfl
  · split
    · simp [Fetched.state]
    · next u hu =>
      have hc : u.cfg = s.cfg := (fetchCheck_cfg hu).trans (startFetch_cfg s)
      split <;> simp [Fetched.state, hc]

/-! The meanings. -/

/-- The outcome, if it is a next state at all, has this configuration. -/
def KeepsConfig (c : Config) (r : Result) : Prop := ∀ t, r = .next t → t.cfg = c

theorem keepsConfig_next {c : Config} {t : State} (h : t.cfg = c) : KeepsConfig c (.next t) := by
  intro u hu
  cases hu
  exact h

theorem keepsConfig_fault (c : Config) (f : Fault) : KeepsConfig c (.fault f) := by
  intro t ht
  cases ht

theorem keepsConfig_refused (c : Config) (f : Refusal) : KeepsConfig c (.refused f) := by
  intro t ht
  cases ht

theorem keepsConfig_attempt {α : Type} {s : State} {r : Except Trap α} {k : α → Result} (h : ∀ v, KeepsConfig s.cfg (k v)) :
    KeepsConfig s.cfg (attempt s r k) := by
  intro t ht
  obtain ⟨v, -, hv⟩ | ⟨x, -, rfl⟩ := attempt_next ht
  · exact h v t hv
  · exact takeTrap_cfg x s

theorem keepsConfig_unlessExit {c : Config} {s : State} {k : Result} (h : KeepsConfig c k) : KeepsConfig c (unlessExit s k) :=
  fun t ht => h t (unlessExit_next ht).2

theorem keepsConfig_withAddr {m : MemRef} {s : State} {k : Word → Result} (h : ∀ ea, KeepsConfig s.cfg (k ea)) :
    KeepsConfig s.cfg (withAddr m s k) :=
  keepsConfig_unlessExit (keepsConfig_attempt h)

theorem keepsConfig_withOperand {m : MemRef} {s : State} {k : Word → Result} (h : ∀ v, KeepsConfig s.cfg (k v)) :
    KeepsConfig s.cfg (withOperand m s k) :=
  keepsConfig_withAddr fun _ => keepsConfig_attempt h

/-! Memory references. -/

theorem keepsConfig_execMul (m : MemRef) (s : State) : KeepsConfig s.cfg (execMul m s) :=
  keepsConfig_withAddr fun _ => keepsConfig_attempt fun _ => keepsConfig_attempt fun _ => keepsConfig_next (by simp)

theorem keepsConfig_execDiv (m : MemRef) (s : State) : KeepsConfig s.cfg (execDiv m s) := by
  refine keepsConfig_withAddr fun _ => keepsConfig_attempt fun _ => keepsConfig_attempt fun v => ?_
  split <;> exact keepsConfig_next (by simp)

theorem keepsConfig_execIm (m : MemRef) (s : State) : KeepsConfig s.cfg (execIm m s) :=
  keepsConfig_withAddr fun _ => keepsConfig_attempt fun _ => keepsConfig_attempt fun _ => keepsConfig_next (by simp)

theorem keepsConfig_execSta (m : MemRef) (s : State) : KeepsConfig s.cfg (execSta m s) :=
  keepsConfig_withAddr fun _ => keepsConfig_attempt fun _ => keepsConfig_next (by simp)

/-- LDX loads X1 or, with the exit condition set, reads a second word and returns from the routine (R123, R125). -/
theorem keepsConfig_execLdx (m : MemRef) (s : State) : KeepsConfig s.cfg (execLdx m s) := by
  refine keepsConfig_attempt fun _ => keepsConfig_attempt fun _ => ?_
  split
  · exact keepsConfig_attempt fun _ => keepsConfig_next (by simp)
  · exact keepsConfig_next (by simp)

/-! Branches and copies. -/

theorem keepsConfig_branchIf {c : Config} {s : State} (h : s.cfg = c) (taken : Bool) (k : BitVec 9) :
    KeepsConfig c (branchIf taken k s) :=
  keepsConfig_unlessExit (keepsConfig_next (by simp [apply_ite State.cfg, h]))

theorem keepsConfig_branchIndex (k : BitVec 9) (s : State) : KeepsConfig s.cfg (branchIndex k s) :=
  keepsConfig_branchIf (State.setReg_cfg ..) _ k

/-- BXNO and BXNC branch on X1 only while their indicator is clear (R166, R167). -/
theorem keepsConfig_branchIndex_unless (b : Bool) (k : BitVec 9) (s : State) :
    KeepsConfig s.cfg (if b then branchIf false k s else branchIndex k s) := by
  split
  · exact keepsConfig_branchIf rfl _ k
  · exact keepsConfig_branchIndex k s

theorem keepsConfig_execCopy (op : CopyOp) (ac ai cd : Bool) (c : CopyArgs) (s : State) :
    KeepsConfig s.cfg (execCopy op ac ai cd c s) :=
  keepsConfig_unlessExit (keepsConfig_next (copyOp_cfg op ac ai cd c s))

/-! READ DIRECT, WRITE DIRECT and the I/O functions. -/

theorem keepsConfig_privileged {s t : State} (h : t.cfg = s.cfg) : KeepsConfig s.cfg (privileged s t) :=
  keepsConfig_unlessExit (keepsConfig_attempt fun _ => keepsConfig_next h)

theorem keepsConfig_unacknowledged {c : Config} {s : State} (h : s.cfg = c) : KeepsConfig c (unacknowledged s) := by
  unfold unacknowledged
  split
  · exact keepsConfig_next (by simpa using h)
  · exact keepsConfig_fault c _

theorem keepsConfig_directRead (ea : Word) (s : State) : KeepsConfig s.cfg (directRead ea s) := by
  simp only [directRead]
  split
  · split
    · exact keepsConfig_next (by simp)
    · exact keepsConfig_unacknowledged (by simp)
    · exact keepsConfig_next (by simp)
  · exact keepsConfig_refused _ _

theorem keepsConfig_directWrite (ea : Word) (s : State) : KeepsConfig s.cfg (directWrite ea s) := by
  simp only [directWrite]
  split
  · split
    · exact keepsConfig_next (by simp)
    · split
      · exact keepsConfig_next (by simp)
      · exact keepsConfig_unacknowledged (by simp)
      · exact keepsConfig_next (by simp)
  · exact keepsConfig_refused _ _

theorem keepsConfig_unassignedWrite (ea : Word) (r : Refusal) (s : State) : KeepsConfig s.cfg (unassignedWrite ea r s) := by
  unfold unassignedWrite
  split
  · exact keepsConfig_next (by simp)
  · exact keepsConfig_refused _ _

theorem keepsConfig_readDirect (ea : Word) (s : State) : KeepsConfig s.cfg (readDirect ea s) := by
  unfold readDirect
  cases readFunction ea with
  | register n =>
    dsimp only
    split
    · exact keepsConfig_next (by simp)
    · exact keepsConfig_refused _ _
  | direct => exact keepsConfig_directRead ea s
  | undefined r => exact keepsConfig_refused _ _
  | sio | tio | tdv | hio | aio | dataSwitches | saveStatus | saveAndInhibit => exact keepsConfig_next (by simp)

theorem keepsConfig_writeDirect (ea : Word) (s : State) : KeepsConfig s.cfg (writeDirect ea s) := by
  unfold writeDirect
  cases writeFunction ea with
  | register n =>
    dsimp only
    split
    · exact keepsConfig_refused _ _
    · split
      · exact keepsConfig_next (by simp)
      · exact keepsConfig_refused _ _
  | testAndClear n =>
    dsimp only
    split
    · exact keepsConfig_next (by simp)
    · exact keepsConfig_refused _ _
  | direct => exact keepsConfig_directWrite ea s
  | undefined r => exact keepsConfig_unassignedWrite ea r s
  | protection | loadStatus | wait | exit | inhibit | control => exact keepsConfig_next (by simp)

theorem keepsConfig_exec (i : Instr) (s : State) : KeepsConfig s.cfg (exec i s) := by
  cases i with
  | wd m => exact keepsConfig_withAddr fun ea => keepsConfig_attempt fun _ => keepsConfig_writeDirect ea s
  | rd m => exact keepsConfig_withAddr fun ea => keepsConfig_attempt fun _ => keepsConfig_readDirect ea s
  | mul m => exact keepsConfig_execMul m s
  | div m => exact keepsConfig_execDiv m s
  | im m => exact keepsConfig_execIm m s
  | sta m => exact keepsConfig_execSta m s
  | ldx m => exact keepsConfig_execLdx m s
  | s m | b m => exact keepsConfig_withAddr fun _ => keepsConfig_next (by simp)
  | lda m | and m | add m | sub m | cp m => exact keepsConfig_withOperand fun _ => keepsConfig_next (by simp)
  | bno k | bnc k | baz k | ben k | ban k => exact keepsConfig_branchIf rfl _ k
  | bix k => exact keepsConfig_branchIndex k s
  | bxno k | bxnc k => exact keepsConfig_branchIndex_unless _ k s
  | rcpy c | radd c | ror c | reor c | rand c | rcpyi c | raddi c | rori c | reori c | randi c | rcpyc c | raddc c | rorc c
  | reorc c | randc c | copy op ac ai cd c => exact keepsConfig_execCopy _ _ _ _ c s
  | sio => exact keepsConfig_privileged (doSio_cfg s)
  | tio => exact keepsConfig_privileged (doTio_cfg s)
  | tdv => exact keepsConfig_privileged (doTdv_cfg s)
  | hio => exact keepsConfig_privileged (doHio_cfg s)
  | aio => exact keepsConfig_privileged (doAio_cfg s)

/-! The step. -/

theorem keepsConfig_afterInstruction {c : Config} {r : Result} (h : KeepsConfig c r) : KeepsConfig c (afterInstruction r) := by
  cases r with
  | next u => exact keepsConfig_next (by simpa using h u rfl)
  | fault f => exact keepsConfig_fault c f
  | refused f => exact keepsConfig_refused c f

theorem keepsConfig_step (s : State) : KeepsConfig s.cfg (step s) := by
  unfold step
  split
  · exact keepsConfig_refused _ _
  · next t ht =>
    have hf : (fetch (recognition t)).state.cfg = s.cfg := by rw [fetch_cfg, recognition_cfg, takeInputs_cfg ht]
    split
    · next u hu =>
      rw [hu] at hf
      exact keepsConfig_next ((endStep_cfg u).trans hf)
    · next w u hu =>
      rw [hu] at hf
      exact keepsConfig_afterInstruction (hf ▸ keepsConfig_exec (decode w) u)

/-- Settles O60: every part of the step keeps the configuration (R6). -/
theorem stepKeepsConfiguration : Obligations.StepKeepsConfiguration :=
  keepsConfig_step

end Sys2Proof.Machine
end

section
/-! The processor at rest, INITIALIZE RESET and the start state (R39, R45, R387, R391, R395). -/

namespace Sys2Proof.Machine

/-! The parts of a step that find nothing to do. -/

/-- With no event to come and no device pending, nothing arrives from outside (R345, R275). -/
theorem takeInputs_quiet {s : State} (hi : s.env.inputs = []) (hd : ∀ d ∈ s.devices, d.pending = false) :
    takeInputs s = .ok s := by
  have hs : { s with env.inputs := [] } = s := by rw [← hi]
  simp only [takeInputs, hi, List.headD_nil, List.tail_nil, hs, applyInputs, holdIoSignal_none hd]

theorem recognise_of_select_none {s : State} (h : select s = none) (k : Nat) : recognise k s = s := by
  cases k with
  | zero => rfl
  | succ k => rw [recognise, h]

theorem recognition_of_select_none {s : State} (h : select s = none) : recognition s = s := by
  unfold recognition
  split
  · exact recognise_of_select_none h 5
  · rfl

theorem recognition_of_not_running {s : State} (h : s.running = false) : recognition s = s := by
  simp [recognition, h]

/-- No instruction is fetched while the processor does not run or waits (R39, R41). -/
theorem fetch_at_rest {s : State} (h : s.running = false ∨ s.wff = true) : fetch s = .rest s := by
  rw [fetch, if_pos (by simpa using h)]

theorem endStep_of_not_step {s : State} (h : s.panel.compute ≠ .step) : endStep s = s := if_neg h

/-- A step at rest changes nothing: nothing arrives, no level is recognised, nothing is fetched and COMPUTE stays where it is. -/
theorem step_at_rest {s : State} (ht : takeInputs s = .ok s) (hr : recognition s = s) (hf : s.running = false ∨ s.wff = true)
    (hc : s.panel.compute ≠ .step) : step s = .next s := by
  simp only [step, ht, hr, fetch_at_rest hf, endStep_of_not_step hc]

/-! COMPUTE as the processor sees it. -/

theorem State.computeMode_unlocked {s : State} (h : s.panel.key = .unlocked) : s.computeMode = s.panel.compute := if_pos h

/-- The processor sees IDLE only where the switch stands, the key unlocked (R402). -/
theorem State.computeMode_idle {s : State} : s.computeMode = .idle ↔ s.panel.key = .unlocked ∧ s.panel.compute = .idle := by
  unfold State.computeMode
  split <;> simp [*]

theorem State.not_running_of_idle {s : State} (h : s.computeMode = .idle) : s.running = false := by
  simp [State.running, h]

/-- The other switches are operative exactly where the processor sees IDLE (R391, R395). -/
theorem State.panelOperative_iff {s : State} : s.panelOperative = true ↔ s.panel.key = .unlocked ∧ s.panel.compute = .idle := by
  simp [State.panelOperative]

/-- Moving COMPUTE to IDLE from elsewhere enters IDLE (R395). -/
theorem moveCompute_idle_enters {s : State} (hk : s.panel.key = .unlocked) (hc : s.panel.compute ≠ .idle) :
    moveCompute .idle s = enterIdle { s with panel.compute := .idle } := by
  have hs : s.computeMode ≠ .idle := State.computeMode_unlocked hk ▸ hc
  exact if_pos ⟨hs, State.computeMode_idle.2 ⟨hk, rfl⟩⟩

/-- Settles O7: at rest every part of the step leaves the state, and COMPUTE moved to IDLE enters IDLE. -/
theorem waitingAndIdle : Obligations.WaitingAndIdle := by
  refine ⟨fun s hi hd => ⟨fun hm => ?_, fun hc hw hn => ?_⟩, fun s hk hc => ?_⟩
  · have hr : s.running = false := State.not_running_of_idle hm
    have hc : s.panel.compute ≠ .step := by simp [(State.computeMode_idle.1 hm).2]
    exact step_at_rest (takeInputs_quiet hi hd) (recognition_of_not_running hr) (.inl hr) hc
  · exact step_at_rest (takeInputs_quiet hi hd) (recognition_of_select_none hn) (.inr hw) hc
  · rw [applyInput, moveCompute_idle_enters hk hc]
    simp only [enterIdle, State.wordAt, State.existsAt, decide_eq_true_eq]

/-! Reset. -/

/-- The override levels are those at locations X'100' to X'105' (R312, R313). -/
theorem isOverride_iff_levelIndex (l : Level) : isOverride l = true ↔ 4 ≤ (levelIndex l).val ∧ (levelIndex l).val < 10 := by
  rw [levelIndex_val]
  cases l <;> simp [isOverride, levelLocation] <;> omega

/-- The levels after reset: the override levels armed and enabled, the others disarmed and disabled (R45, R391). -/
theorem level_of_resetLevels {s : State} (h : s.levels = resetLevels) (l : Level) :
    s.level l = if isOverride l then ⟨.armed, true⟩ else ⟨.disarmed, false⟩ := by
  simp [State.level, h, resetLevels, Vector.get_eq_getElem, isOverride_iff_levelIndex]

/-- After INITIALIZE RESET PP is 1 if the protection system is operative (R391). -/
theorem initializeReset_pp_operative {s : State} (h : s.operative = true) : (initializeReset s).ind.pp = true := if_pos h

/-- Without the protection option PP is 0 (R32). -/
theorem initializeReset_pp_absent {s : State} (h : s.cfg.protect = false) : (initializeReset s).ind.pp = false := by
  simp [initializeReset, State.operative, h]

/-- The event acts with the panel operative (R391). -/
theorem applyInput_initializeReset {s : State} (hk : s.panel.key = .unlocked) (hc : s.panel.compute = .idle) :
    applyInput .initializeReset s = .ok (initializeReset s) := by
  rw [applyInput, if_pos (State.panelOperative_iff.2 ⟨hk, hc⟩)]

/-- And does nothing otherwise. -/
theorem applyInput_initializeReset_inoperative {s : State} (h : s.panel.key ≠ .unlocked ∨ s.panel.compute ≠ .idle) :
    applyInput .initializeReset s = .ok s := by
  have hp : ¬ s.panelOperative = true := fun hp => by simp [State.panelOperative_iff.1 hp] at h
  rw [applyInput, if_neg hp]

/-- Settles O57: the start state by its definition, the event by what `initializeReset` writes, the levels of both by
`level_of_resetLevels`. -/
theorem resetState : Obligations.ResetState :=
  ⟨⟨rfl, rfl, rfl, rfl, rfl, rfl, rfl, rfl, rfl, level_of_resetLevels rfl⟩, fun s =>
    ⟨fun hk hc => ⟨initializeReset s, applyInput_initializeReset hk hc, rfl, initializeReset_pp_operative,
      initializeReset_pp_absent, level_of_resetLevels rfl⟩, applyInput_initializeReset_inoperative⟩⟩

/-- Memory is empty after reset, so it lists no byte and no bad parity (R60). -/
theorem resetWith_memoryInv (c : Config) (p : Panel) : (State.resetWith c p).MemoryInv :=
  ⟨reset_memory_wf c p, by simp [State.resetWith], .nil, by simp [State.resetWith]⟩

/-- Without the protection option PP is 0 after reset, whatever the panel (R32). -/
theorem resetWith_pp_absent {c : Config} {p : Panel} (h : c.protect = false) : (State.resetWith c p).ind.pp = false := by
  simp [State.resetWith, h]

/-- Settles O58: memory is empty, the levels are those of `resetLevels`, and the processor does not wait. -/
theorem resetMeetsInvariant : Obligations.ResetMeetsInvariant := fun c p =>
  ⟨resetWith_memoryInv c p, resetLevels_inv rfl, resetWith_pp_absent, fun _ => rfl⟩

end Sys2Proof.Machine
end

section
/-! Checked reads: a word by its parity event and the PARITY ERROR switches, and locations that do not exist (R63 to R65,
R372, R402). -/

namespace Sys2Proof.Machine

theorem State.wordAt_of_exists {s : State} {a : Word} (h : s.existsAt a = true) : s.wordAt a = s.mem.readWord a.toNat := if_pos h

theorem State.wordAt_absent {s : State} {a : Word} (h : s.existsAt a = false) : s.wordAt a = 0 := by
  simp [State.wordAt, h]

/-- A read comes with a parity event exactly where the location is absent or its stored parity bad (R63, R79). -/
theorem State.parityEvent_iff {s : State} {a : Word} :
    s.parityEvent a = true ↔ s.existsAt a = false ∨ a.toNat ∈ s.badParity := by
  simp [State.parityEvent]

/-- A locked key forces INTERRUPT; unlocked, the processor sees the switches as they stand (R402). -/
theorem State.parityMode_unlocked {s : State} (h : s.panel.key = .unlocked) : s.parityMode = s.panel.parity := if_pos h

theorem State.parityMode_interrupt {s : State} (h : s.panel.key ≠ .unlocked ∨ s.panel.parity = .interrupt) :
    s.parityMode = .interrupt := by
  unfold State.parityMode
  split
  · next hk => exact h.resolve_left (not_not_intro hk)
  · rfl

/-- The processor ignores parity errors while the installed memory parity level is active (R372). -/
theorem State.parityMasked_iff {s : State} :
    s.parityMasked = true ↔ s.cfg.parityInt = true ∧ (s.level .memoryParity).state = .active := by
  simp [State.parityMasked]

/-! What a checked read gives, with and without a parity event (R64, R372). -/

theorem readChecked_good {s : State} {a : Word} (h : s.parityEvent a = false) : readChecked s a = .ok (s.wordAt a) := by
  simp [readChecked, h]

theorem readChecked_ignore {s : State} {a : Word} (h : s.parityEvent a = true) (hm : s.parityMode = .ignore) :
    readChecked s a = .ok (s.wordAt a) := by
  simp [readChecked, h, hm]

theorem readChecked_halt {s : State} {a : Word} (h : s.parityEvent a = true) (hm : s.parityMode = .halt) :
    readChecked s a = .error .parityHalt := by
  simp [readChecked, h, hm]

theorem readChecked_interrupt {s : State} {a : Word} (h : s.parityEvent a = true) (hm : s.parityMode = .interrupt) :
    readChecked s a = if s.parityMasked then .ok (s.wordAt a) else .error .parityInterrupt := by
  simp [readChecked, h, hm]

/-- Settles O9: the parity event selects the case of the read, the switches what an event does, and an absent location always
has one. -/
theorem checkedReads : Obligations.CheckedReads := by
  intro s a
  refine ⟨fun he hp => ?_, fun h => ?_, fun h => ?_⟩
  · have hg : s.parityEvent a = false := by
      rw [← Bool.not_eq_true, State.parityEvent_iff]
      simp [he, hp]
    rw [readChecked_good hg, State.wordAt_of_exists he]
  · have hev : s.parityEvent a = true := State.parityEvent_iff.2 h
    refine ⟨fun hk hs => ?_, fun hk hs => ?_, fun hs => ?_⟩
    · exact readChecked_ignore hev ((State.parityMode_unlocked hk).trans hs)
    · exact readChecked_halt hev ((State.parityMode_unlocked hk).trans hs)
    · rw [readChecked_interrupt hev (State.parityMode_interrupt hs)]
      simp only [State.parityMasked_iff]
  · have he : s.existsAt a = false := by simpa [State.existsAt] using h
    have hev : s.parityEvent a = true := State.parityEvent_iff.2 (.inl he)
    refine ⟨State.wordAt_absent he, hev, fun v => State.storeWord_absent s a v he, fun hm => ?_⟩
    rw [readChecked_ignore hev hm, State.wordAt_absent he]

end Sys2Proof.Machine
end

section
/-! The invariant through a step: the events from outside, the recognition, the fetch, the meaning of every instruction and what
follows it each keep it. -/

namespace Sys2Proof.Machine

/-! What the invariant looks at. -/

/-- The fields the invariant depends on: the installation, memory and its parity, the levels, PP, the exit condition and the wait
flip-flop. -/
def State.invFields (s : State) : Config × Memory × List Nat × Vector LevelFF 148 × Bool × Bool × Bool :=
  (s.cfg, s.mem, s.badParity, s.levels, s.ind.pp, s.exitCond, s.wff)

/-- Whatever leaves these fields as they are keeps the invariant. -/
theorem State.Inv.of_invFields {s t : State} (h : s.Inv) (e : t.invFields = s.invFields) : t.Inv := by
  simp only [State.invFields, Prod.mk.injEq] at e
  obtain ⟨hc, hm, hb, hl, hp, he, hw⟩ := e
  exact h.congr hc hm hb hl hp he hw

/-- A state chosen between two that meet the invariant meets it. -/
theorem State.Inv.ite {p : Prop} [Decidable p] {s t : State} (hs : s.Inv) (ht : t.Inv) : (if p then s else t).Inv := by
  split
  · exact hs
  · exact ht

/-! The shared operations that leave these fields. -/

@[simp] theorem State.setReg_invFields (s : State) (r : Reg) (v : Word) : (s.setReg r v).invFields = s.invFields := by
  simp [State.invFields]

@[simp] theorem State.setOC_invFields (s : State) (o c : Bool) : (s.setOC o c).invFields = s.invFields := rfl

@[simp] theorem State.setPair_invFields (s : State) (v : BitVec 32) : (s.setPair v).invFields = s.invFields := by
  simp [State.invFields]

@[simp] theorem State.send_invFields (s : State) (x : Sent) : (s.send x).invFields = s.invFields := rfl

@[simp] theorem State.dropAnswer_invFields (s : State) : s.dropAnswer.invFields = s.invFields := rfl

@[simp] theorem State.setInhibits_invFields (s : State) (x i e : Bool) : (s.setInhibits x i e).invFields = s.invFields := rfl

@[simp] theorem State.setChannel_invFields (s : State) (n : Nat) (v : Word) : (s.setChannel n v).invFields = s.invFields := by
  simp [State.invFields]

@[simp] theorem State.setBlock_invFields (s : State) (n : Nat) (v : Word) : (s.setBlock n v).invFields = s.invFields := by
  simp [State.invFields]

@[simp] theorem State.setProtection_invFields (s : State) (n : Nat) (v : Word) :
    (s.setProtection n v).invFields = s.invFields := by
  simp [State.invFields]

@[simp] theorem State.setError_invFields (s : State) (ch : Nat) (err : Bool) : (s.setError ch err).invFields = s.invFields := by
  simp [State.invFields]

@[simp] theorem stepChannel_invFields (ch : Nat) (s : State) : (stepChannel ch s).invFields = s.invFields := by
  simp [State.invFields]

@[simp] theorem State.updateDevice_invFields (s : State) (dev : Byte) (f : Device → Device) :
    (s.updateDevice dev f).invFields = s.invFields := rfl

@[simp] theorem State.startDevice_invFields (s : State) (dev : Byte) (o : OrderSource) :
    (s.startDevice dev o).invFields = s.invFields := rfl

@[simp] theorem State.endDevice_invFields (s : State) (dev : Byte) : (s.endDevice dev).invFields = s.invFields := rfl

@[simp] theorem State.raiseDevice_invFields (s : State) (dev : Byte) : (s.raiseDevice dev).invFields = s.invFields := rfl

@[simp] theorem changeCondition_invFields (dev : Byte) (d c : Condition) (s : State) :
    (changeCondition dev d c s).invFields = s.invFields := by
  simp [State.invFields]

@[simp] theorem endOperation_invFields (dev : Byte) (te il cm ce ue : Bool) (s : State) :
    (endOperation dev te il cm ce ue s).invFields = s.invFields := by
  simp [State.invFields]

@[simp] theorem State.respond_invFields (s : State) (status dev : Byte) (c : Bool) :
    (s.respond status dev c).invFields = s.invFields := by
  simp [State.respond]

@[simp] theorem State.noResponse_invFields (s : State) : s.noResponse.invFields = s.invFields := rfl

@[simp] theorem State.freeAOC_invFields (s : State) : s.freeAOC.invFields = s.invFields := rfl

@[simp] theorem State.freeOC_invFields (s : State) : s.freeOC.invFields = s.invFields := rfl

@[simp] theorem watchdogWrite_invFields (op : WatchdogOp) (ea : Word) (s : State) :
    (watchdogWrite op ea s).invFields = s.invFields := by
  simp [State.invFields]

@[simp] theorem State.panelWrite_invFields (s : State) (r : PanelReg) (v : Word) : (s.panelWrite r v).invFields = s.invFields := by
  cases r <;> rfl

@[simp] theorem shift_invFields (spec : Word) (s : State) : (shift spec s).invFields = s.invFields := by
  simp only [shift]
  split <;> simp

@[simp] theorem copyOp_invFields (op : CopyOp) (ac ai cd : Bool) (c : CopyArgs) (s : State) :
    (copyOp op ac ai cd c s).invFields = s.invFields := by
  cases op <;> simp [copyOp]

/-! The I/O functions. -/

@[simp] theorem startIo_invFields (order : OrderSource) (s : State) : (startIo order s).invFields = s.invFields := by
  simp only [startIo]
  split
  · simp
  · split <;> simp

@[simp] theorem doTio_invFields (s : State) : (doTio s).invFields = s.invFields := by
  simp only [doTio]
  split <;> simp

@[simp] theorem doTdv_invFields (s : State) : (doTdv s).invFields = s.invFields := by
  simp only [doTdv]
  split <;> simp

@[simp] theorem doHio_invFields (s : State) : (doHio s).invFields = s.invFields := by
  simp only [doHio]
  split
  · simp
  · split <;> simp

@[simp] theorem doAio_invFields (s : State) : (doAio s).invFields = s.invFields := by
  simp only [doAio]
  split <;> simp

/-! Setting the two flip-flops that exclude each other (R126, R230). -/

/-- A wait may begin with the exit condition clear. -/
theorem State.Inv.startWait {s : State} (h : s.Inv) (he : s.exitCond = false) : State.Inv { s with wff := true } :=
  ⟨h.1, h.2.1, h.2.2.1, by simp [he]⟩

/-- The exit condition may be set by a processor that does not wait. -/
theorem State.Inv.setExitCond {s : State} (h : s.Inv) (hw : s.wff = false) : State.Inv { s with exitCond := true } :=
  ⟨h.1, h.2.1, h.2.2.1, fun _ => hw⟩

/-- The end of a wait keeps the invariant. -/
theorem State.Inv.endWait {s : State} (h : s.Inv) : State.Inv { s with wff := false } :=
  ⟨h.1, h.2.1, h.2.2.1, fun _ => rfl⟩

/-! The panel and the Watchdog Timer. -/

theorem State.Inv.setPanel {s : State} (h : s.Inv) (p : Panel) : State.Inv { s with panel := p } := h.of_invFields rfl

theorem State.Inv.setEnv {s : State} (h : s.Inv) (e : Environment) : State.Inv { s with env := e } := h.of_invFields rfl

theorem State.Inv.endParityHalt {s : State} (h : s.Inv) : (endParityHalt s).Inv := h.setPanel _

theorem State.Inv.enterIdle {s : State} (h : s.Inv) : (enterIdle s).Inv := h.endWait.of_invFields rfl

theorem State.Inv.computeEffect {t : State} (h : t.Inv) (s : State) : (computeEffect s t).Inv :=
  .ite h.enterIdle (.ite (h.setPanel _) h)

theorem State.Inv.moveCompute {s : State} (h : s.Inv) (c : Compute) : (moveCompute c s).Inv := by
  have moved : ∀ p : Panel, (Sys2Proof.Machine.computeEffect s { s with panel := p }).Inv := fun p =>
    (h.setPanel p).computeEffect s
  cases c with
  | idle => exact moved _
  | run => exact .ite (moved _) h
  | step => exact .ite (moved _) h

theorem State.Inv.turnKey {s : State} (h : s.Inv) (k : KeySwitch) : (turnKey k s).Inv :=
  ((h.setPanel _).computeEffect s).endParityHalt

theorem State.Inv.initializeReset {s : State} (h : s.Inv) : (initializeReset s).Inv :=
  ⟨h.1.congr rfl rfl rfl, resetLevels_inv rfl, fun hc => initializeReset_pp_absent hc, fun _ => rfl⟩

theorem State.Inv.setParityOf {s : State} (h : s.Inv) (a : Word) (bad : Bool) : (setParityOf a bad s).Inv := by
  have hm := h.1.setParityOf a bad
  unfold Sys2Proof.Machine.setParityOf at hm ⊢
  split
  · next he => exact ⟨by simpa [he] using hm, h.2.1, h.2.2.1, h.2.2.2⟩
  · exact h

theorem State.Inv.watchdogSignal {s : State} (h : s.Inv) : (watchdogSignal s).Inv := by
  unfold Sys2Proof.Machine.watchdogSignal
  split
  · split
    · exact h.trigger _
    · exact h
  · exact h

theorem State.Inv.holdIoSignal {s : State} (h : s.Inv) : (holdIoSignal s).Inv := .ite (h.trigger _) h

/-! The service of a channel. -/

/-- An output byte leaves memory; an input byte is stored as a word (R268). -/
theorem State.Inv.moveByte {s : State} (h : s.Inv) (ch : Nat) (dev : Byte) (tr : Transfer) : (moveByte ch dev tr s).Inv := by
  cases tr with
  | output => exact h.of_invFields (by simp [Sys2Proof.Machine.moveByte])
  | input b ok => exact (h.storeWord _ _).of_invFields (State.setError_invFields ..)

theorem State.Inv.chain {ch : Nat} {dev : Byte} {s t : State} (h : s.Inv) (ht : chain ch dev s = .ok t) : t.Inv := by
  simp only [Sys2Proof.Machine.chain] at ht
  split at ht
  · cases ht
  · cases ht
    exact h.of_invFields (by simp [apply_ite State.invFields])

theorem State.Inv.serviceByte {ch : Nat} {dev : Byte} {tr : Transfer} {s t : State} (h : s.Inv)
    (ht : serviceByte ch dev tr s = .ok t) : t.Inv := by
  have hs : (stepChannel ch (Sys2Proof.Machine.moveByte ch dev tr s)).Inv :=
    (h.moveByte ch dev tr).of_invFields (stepChannel_invFields ..)
  simp only [Sys2Proof.Machine.serviceByte] at ht
  split at ht
  · cases ht; exact h
  · split at ht
    · cases ht; exact hs
    · split at ht
      · exact hs.chain ht
      · cases ht; exact hs.of_invFields rfl

theorem State.Inv.serviceDevice {dev : Byte} {tr : Transfer} {s t : State} (h : s.Inv)
    (ht : serviceDevice dev tr s = .ok t) : t.Inv := by
  unfold Sys2Proof.Machine.serviceDevice at ht
  split at ht
  · split at ht
    · split at ht
      · exact h.serviceByte ht
      · split at ht
        · cases ht; exact h
        · exact State.Inv.serviceByte (h.of_invFields (State.updateDevice_invFields ..)) ht
      all_goals cases ht; exact h.of_invFields rfl
    · cases ht; exact h
  · cases ht; exact h

/-! The events from outside. -/

theorem State.Inv.applyInput {i : Input} {s t : State} (h : s.Inv) (ht : applyInput i s = .ok t) : t.Inv := by
  cases i <;> simp only [Sys2Proof.Machine.applyInput, Except.ok.injEq] at ht
  case service dev tr =>
    split at ht
    · cases ht; exact h
    · exact h.serviceDevice ht
  all_goals subst ht
  case signal l => exact .ite (h.trigger l) h
  case agentWrite a v => exact .ite (h.storeWord a v) h
  case parity a bad => exact h.setParityOf a bad
  case ending => exact .ite h (h.of_invFields (by simp))
  case deviceInterrupt => exact h.of_invFields (by simp)
  case deviceCondition => exact h.of_invFields (by simp)
  case deviceOwn => exact h.of_invFields (by simp)
  case watchdogExpires => exact .ite (h.setEnv _).watchdogSignal h
  case setData | setProtect | setProgAdd => exact h.setPanel _
  case setParity => exact (h.setPanel _).endParityHalt
  case setKey k => exact h.turnKey k
  case computeIdle => exact h.moveCompute .idle
  case computeRun => exact h.moveCompute .run
  case computeStep => exact h.moveCompute .step
  case initializeReset => exact .ite h.initializeReset h
  case initializeLoad => exact .ite (h.of_invFields rfl) h
  case registerClear | registerEnter => exact .ite (h.of_invFields (by simp)) h
  case memoryStore => exact .ite (h.storeWord _ _) h
  case memoryFetch | incrementAddress => exact .ite (h.of_invFields rfl) h

theorem State.Inv.applyInputs {l : List Input} {s t : State} (h : s.Inv) (ht : applyInputs l s = .ok t) : t.Inv := by
  induction l generalizing s with
  | nil => cases ht; exact h
  | cons i l ih =>
    simp only [Sys2Proof.Machine.applyInputs] at ht
    split at ht
    · next u hu => exact ih (h.applyInput hu) ht
    · cases ht

theorem State.Inv.takeInputs {s t : State} (h : s.Inv) (ht : takeInputs s = .ok t) : t.Inv := by
  unfold Sys2Proof.Machine.takeInputs at ht
  split at ht
  · next u hu =>
    cases ht
    exact ((h.setEnv _).applyInputs hu).holdIoSignal
  · cases ht

/-! Recognition and fetch. -/

theorem State.Inv.recognition {s : State} (h : s.Inv) : (recognition s).Inv := .ite (h.recognise 5) h

theorem State.Inv.fetchCheck {s t : State} (h : s.Inv) (ht : fetchCheck s = .ok t) : t.Inv := by
  unfold Sys2Proof.Machine.fetchCheck at ht
  split at ht
  · cases ht
  · split at ht
    · cases ht; exact h.setPP _
    · cases ht; exact h

theorem State.Inv.fetch {s : State} (h : s.Inv) : (fetch s).state.Inv := by
  have hs : (startFetch s).Inv := h.of_invFields rfl
  unfold Sys2Proof.Machine.fetch
  split
  · exact h
  · split
    · exact hs.takeTrap _
    · next u hu =>
      have hu := hs.fetchCheck hu
      split
      · exact hu.takeTrap _
      · exact hu.setReg .p _

/-- An instruction is executed only by a processor that does not wait (R39, R345). -/
theorem wff_of_fetch_run {s u : State} {w : Word} (h : fetch s = .run w u) : u.wff = false := by
  unfold fetch at h
  split at h
  · cases h
  · next hr =>
    obtain ⟨-, hw⟩ : s.running = true ∧ s.wff = false := by simpa using hr
    split at h
    · cases h
    · next x hx =>
      split at h
      · cases h
      · cases h
        rw [State.setReg_wff, fetchCheck_ok hx]
        exact hw

/-! The meanings. -/

/-- The outcome, if it is a next state at all, meets the invariant. -/
def LeavesInv (r : Result) : Prop := ∀ t, r = .next t → t.Inv

theorem leavesInv_next {t : State} (h : t.Inv) : LeavesInv (.next t) := by
  intro u hu
  cases hu
  exact h

theorem leavesInv_fault (f : Fault) : LeavesInv (.fault f) := by
  intro t ht
  cases ht

theorem leavesInv_refused (f : Refusal) : LeavesInv (.refused f) := by
  intro t ht
  cases ht

/-- A meaning that leaves the fields of the invariant keeps it. -/
theorem leavesInv_same {s t : State} (h : s.Inv) (e : t.invFields = s.invFields) : LeavesInv (.next t) :=
  leavesInv_next (h.of_invFields e)

theorem leavesInv_attempt {α : Type} {s : State} {r : Except Trap α} {k : α → Result} (h : s.Inv) (hk : ∀ v, LeavesInv (k v)) :
    LeavesInv (attempt s r k) := by
  intro t ht
  obtain ⟨v, -, hv⟩ | ⟨x, -, rfl⟩ := attempt_next ht
  · exact hk v t hv
  · exact h.takeTrap x

/-- An instruction other than LDX is executed with the exit condition clear (R126). -/
theorem leavesInv_unlessExit {s : State} {k : Result} (hk : s.exitCond = false → LeavesInv k) : LeavesInv (unlessExit s k) :=
  fun t ht => hk (unlessExit_next ht).1 t (unlessExit_next ht).2

theorem leavesInv_withAddr {m : MemRef} {s : State} {k : Word → Result} (h : s.Inv)
    (hk : s.exitCond = false → ∀ ea, LeavesInv (k ea)) : LeavesInv (withAddr m s k) :=
  leavesInv_unlessExit fun he => leavesInv_attempt h (hk he)

theorem leavesInv_withOperand {m : MemRef} {s : State} {k : Word → Result} (h : s.Inv) (hk : ∀ v, LeavesInv (k v)) :
    LeavesInv (withOperand m s k) :=
  leavesInv_withAddr h fun _ _ => leavesInv_attempt h hk

/-! Memory references. -/

theorem leavesInv_execMul {s : State} (h : s.Inv) (m : MemRef) : LeavesInv (execMul m s) :=
  leavesInv_withAddr h fun _ _ => leavesInv_attempt h fun _ => leavesInv_attempt h fun _ => leavesInv_same h (by simp)

theorem leavesInv_execDiv {s : State} (h : s.Inv) (m : MemRef) : LeavesInv (execDiv m s) := by
  refine leavesInv_withAddr h fun _ _ => leavesInv_attempt h fun _ => leavesInv_attempt h fun v => ?_
  split <;> exact leavesInv_same h (by simp)

theorem leavesInv_execIm {s : State} (h : s.Inv) (m : MemRef) : LeavesInv (execIm m s) :=
  leavesInv_withAddr h fun _ _ => leavesInv_attempt h fun _ => leavesInv_attempt h fun _ =>
    leavesInv_next ((h.storeWord _ _).setOC _ _)

theorem leavesInv_execSta {s : State} (h : s.Inv) (m : MemRef) : LeavesInv (execSta m s) :=
  leavesInv_withAddr h fun _ _ => leavesInv_attempt h fun _ => leavesInv_next (h.storeWord _ _)

/-- LDX loads X1 or, with the exit condition set, returns from the routine, which resets it (R123, R125). -/
theorem leavesInv_execLdx {s : State} (h : s.Inv) (m : MemRef) : LeavesInv (execLdx m s) := by
  refine leavesInv_attempt h fun _ => leavesInv_attempt h fun v => ?_
  split
  · exact leavesInv_attempt h fun a => leavesInv_next (h.exitLevel v a)
  · exact leavesInv_next (h.setReg .x1 v)

/-! Branches and copies. -/

theorem leavesInv_branchIf {s : State} (h : s.Inv) (taken : Bool) (k : BitVec 9) : LeavesInv (branchIf taken k s) :=
  leavesInv_unlessExit fun _ => leavesInv_next (.ite (h.setReg .p _) h)

theorem leavesInv_branchIndex {s : State} (h : s.Inv) (k : BitVec 9) : LeavesInv (branchIndex k s) :=
  leavesInv_branchIf (h.setReg .x1 _) _ k

/-- BXNO and BXNC branch on X1 only while their indicator is clear (R166, R167). -/
theorem leavesInv_branchIndex_unless {s : State} (h : s.Inv) (b : Bool) (k : BitVec 9) :
    LeavesInv (if b then branchIf false k s else branchIndex k s) := by
  split
  · exact leavesInv_branchIf h _ k
  · exact leavesInv_branchIndex h k

theorem leavesInv_execCopy {s : State} (h : s.Inv) (op : CopyOp) (ac ai cd : Bool) (c : CopyArgs) :
    LeavesInv (execCopy op ac ai cd c s) :=
  leavesInv_unlessExit fun _ => leavesInv_same h (copyOp_invFields op ac ai cd c s)

/-! READ DIRECT, WRITE DIRECT and the I/O functions. -/

/-- SIO under the load condition waits, the exit condition being clear (R289). -/
theorem State.Inv.doSio {s : State} (h : s.Inv) (he : s.exitCond = false) : (doSio s).Inv := by
  have hio : ∀ order, (startIo order s).Inv := fun order => h.of_invFields (startIo_invFields order s)
  refine .ite ?_ (hio .memory)
  refine (h.startWait he).of_invFields ?_
  have hs := startIo_invFields .processor s
  simp only [State.invFields, Prod.mk.injEq] at hs
  simp only [startLoad]
  split <;> simp [State.invFields, hs]

theorem leavesInv_privileged {s t : State} (h : s.Inv) (ht : s.exitCond = false → t.Inv) : LeavesInv (privileged s t) :=
  leavesInv_unlessExit fun he => leavesInv_attempt h fun _ => leavesInv_next (ht he)

theorem leavesInv_unacknowledged {s : State} (h : s.Inv) : LeavesInv (unacknowledged s) := by
  unfold unacknowledged
  split
  · exact leavesInv_same h rfl
  · exact leavesInv_fault _

theorem leavesInv_directRead {s : State} (h : s.Inv) (ea : Word) : LeavesInv (directRead ea s) := by
  simp only [directRead]
  split
  · split
    · exact leavesInv_same h (by simp)
    · exact leavesInv_unacknowledged (h.of_invFields (by simp))
    · exact leavesInv_same h (by simp)
  · exact leavesInv_refused _

theorem leavesInv_directWrite {s : State} (h : s.Inv) (ea : Word) : LeavesInv (directWrite ea s) := by
  simp only [directWrite]
  split
  · split
    · exact leavesInv_same h (by simp)
    · split
      · exact leavesInv_same h (by simp)
      · exact leavesInv_unacknowledged (h.of_invFields (by simp))
      · exact leavesInv_same h (by simp)
  · exact leavesInv_refused _

theorem leavesInv_unassignedWrite {s : State} (h : s.Inv) (ea : Word) (r : Refusal) : LeavesInv (unassignedWrite ea r s) := by
  unfold unassignedWrite
  split
  · exact leavesInv_same h (by simp)
  · exact leavesInv_refused _

theorem leavesInv_readDirect {s : State} (h : s.Inv) (he : s.exitCond = false) (ea : Word) : LeavesInv (readDirect ea s) := by
  unfold readDirect
  cases readFunction ea with
  | register n =>
    dsimp only
    split
    · exact leavesInv_next (h.setReg .a _)
    · exact leavesInv_refused _
  | sio => exact leavesInv_next (h.doSio he)
  | direct => exact leavesInv_directRead h ea
  | undefined r => exact leavesInv_refused r
  | tio | tdv | hio | aio | dataSwitches | saveStatus | saveAndInhibit => exact leavesInv_same h (by simp)

/-- WRITE DIRECT: the wait begins with the exit condition clear, and the exit condition is set by a processor that does not wait. -/
theorem leavesInv_writeDirect {s : State} (h : s.Inv) (he : s.exitCond = false) (hw : s.wff = false) (ea : Word) :
    LeavesInv (writeDirect ea s) := by
  unfold writeDirect
  cases writeFunction ea with
  | register n =>
    dsimp only
    split
    · exact leavesInv_refused _
    · split
      · exact leavesInv_same h (by simp)
      · exact leavesInv_refused _
  | testAndClear n =>
    dsimp only
    split
    · exact leavesInv_same h (by simp)
    · exact leavesInv_refused _
  | loadStatus => exact leavesInv_next (h.loadStatus _)
  | wait => exact leavesInv_next (h.startWait he)
  | exit => exact leavesInv_next (h.setExitCond hw)
  | control op g => exact leavesInv_next (h.controlGroup op g _)
  | direct => exact leavesInv_directWrite h ea
  | undefined r => exact leavesInv_unassignedWrite h ea r
  | protection | inhibit => exact leavesInv_same h (by simp)

theorem leavesInv_exec {s : State} (h : s.Inv) (hw : s.wff = false) (i : Instr) : LeavesInv (exec i s) := by
  cases i with
  | wd m => exact leavesInv_withAddr h fun he ea => leavesInv_attempt h fun _ => leavesInv_writeDirect h he hw ea
  | rd m => exact leavesInv_withAddr h fun he ea => leavesInv_attempt h fun _ => leavesInv_readDirect h he ea
  | mul m => exact leavesInv_execMul h m
  | div m => exact leavesInv_execDiv h m
  | im m => exact leavesInv_execIm h m
  | sta m => exact leavesInv_execSta h m
  | ldx m => exact leavesInv_execLdx h m
  | s m | b m => exact leavesInv_withAddr h fun _ _ => leavesInv_same h (by simp)
  | lda m | and m | add m | sub m | cp m => exact leavesInv_withOperand h fun _ => leavesInv_same h (by simp)
  | bno k | bnc k | baz k | ben k | ban k => exact leavesInv_branchIf h _ k
  | bix k => exact leavesInv_branchIndex h k
  | bxno k | bxnc k => exact leavesInv_branchIndex_unless h _ k
  | rcpy c | radd c | ror c | reor c | rand c | rcpyi c | raddi c | rori c | reori c | randi c | rcpyc c | raddc c | rorc c
  | reorc c | randc c | copy op ac ai cd c => exact leavesInv_execCopy h _ _ _ _ c
  | sio => exact leavesInv_privileged h h.doSio
  | tio | tdv | hio | aio => exact leavesInv_privileged h fun _ => h.of_invFields (by simp)

/-! The step. -/

theorem State.Inv.endStep {s : State} (h : s.Inv) : (endStep s).Inv := .ite (h.moveCompute .idle) h

theorem State.Inv.countWatchdog {s : State} (h : s.Inv) : (countWatchdog s).Inv :=
  have ht : s.tickWatchdog.Inv := h.of_invFields rfl
  .ite ht.watchdogSignal ht

theorem leavesInv_afterInstruction {r : Result} (h : LeavesInv r) : LeavesInv (afterInstruction r) := by
  cases r with
  | next u => exact leavesInv_next (h u rfl).countWatchdog.endStep
  | fault f => exact leavesInv_fault f
  | refused f => exact leavesInv_refused f

theorem leavesInv_step {s : State} (h : s.Inv) : LeavesInv (step s) := by
  unfold step
  split
  · exact leavesInv_refused _
  · next t ht =>
    have hf : (fetch (recognition t)).state.Inv := (h.takeInputs ht).recognition.fetch
    split
    · next u hu =>
      rw [hu] at hf
      exact leavesInv_next (State.Inv.endStep hf)
    · next w u hu =>
      rw [hu] at hf
      exact leavesInv_afterInstruction (leavesInv_exec hf (wff_of_fetch_run hu) (decode w))

/-- Settles O59: every part of the step keeps the invariant. -/
theorem stepKeepsInvariant : Obligations.StepKeepsInvariant := fun _ t h => leavesInv_step h t

end Sys2Proof.Machine
end

section
/-! The decoder and the encoder undo each other (R92 to R94, R104 to R107, R109): first the fields of the words the encoder
writes, then each format in both directions, then whole words. -/

namespace Sys2Proof

/-! Registers and copy operations. -/

@[simp] theorem decodeReg_encodeReg (r : Reg) : decodeReg (encodeReg r) = r := by cases r <;> rfl

@[simp] theorem encodeReg_decodeReg (n : BitVec 3) : encodeReg (decodeReg n) = n := by revert n; decide

@[simp] theorem decodeCopyOp_encodeCopyOp (op : CopyOp) : decodeCopyOp (encodeCopyOp op) = op := by cases op <;> rfl

@[simp] theorem encodeCopyOp_decodeCopyOp (n : BitVec 2) : encodeCopyOp (decodeCopyOp n) = n := by revert n; decide

/-! The memory-reference format, `oooo RIXS dddd dddd` (R92). -/

@[simp] theorem encodeMemRef_code (op : BitVec 4) (m : MemRef) : (encodeMemRef op m).extractLsb' 12 4 = op := by
  simp only [encodeMemRef, BitVec.extractLsb'_append_eq_ite]
  simp

/-- Decoding bits 4 to 15 gives the operand, whatever its addressing form. -/
@[simp] theorem decodeMemRef_encodeMemRef (op : BitVec 4) (m : MemRef) : decodeMemRef (encodeMemRef op m) = m := by
  obtain ⟨form, indirect, indexed⟩ := m
  cases form <;>
    simp only [decodeMemRef, encodeMemRef, encodeRelative, encodeAddrLow, BitVec.getLsbD_append,
      BitVec.extractLsb'_append_eq_ite] <;>
    simp

@[simp] theorem decodeMemRef_indirect (w : Word) : (decodeMemRef w).indirect = w.getLsbD 10 := rfl

@[simp] theorem decodeMemRef_indexed (w : Word) : (decodeMemRef w).indexed = w.getLsbD 9 := rfl

/-- A decoded operand has the R bit of the word. -/
theorem encodeRelative_decodeMemRef (w : Word) : encodeRelative (decodeMemRef w).form = w.getLsbD 11 := by
  simp only [decodeMemRef]
  split
  · next h => exact h.symm
  · next h =>
    rw [Bool.not_eq_true] at h
    split <;> exact h.symm

/-- The S bit before the displacement is the 9-bit field of bits 7 to 15. -/
theorem ofBool_append_displacement {w : Word} {b : Bool} (h : w.getLsbD 8 = b) :
    BitVec.ofBool b ++ w.extractLsb' 0 8 = w.extractLsb' 0 9 := by
  subst h
  apply BitVec.eq_of_getLsbD_eq
  intro i hi
  simp only [BitVec.getLsbD_append, BitVec.getLsbD_extractLsb']
  interval_cases i <;> simp

/-- A decoded operand has the S bit and the displacement of the word. -/
theorem encodeAddrLow_decodeMemRef (w : Word) : encodeAddrLow (decodeMemRef w).form = w.extractLsb' 0 9 := by
  simp only [decodeMemRef]
  split
  · rfl
  · split
    · next h => exact ofBool_append_displacement (b := true) h
    · next h => exact ofBool_append_displacement (b := false) (by simpa using h)

/-- Encoding a decoded operand under the word's own operation code gives the word back. -/
theorem encodeMemRef_decodeMemRef {w : Word} {op : BitVec 4} (h : w.extractLsb' 12 4 = op) :
    encodeMemRef op (decodeMemRef w) = w := by
  subst h
  simp only [encodeMemRef, encodeRelative_decodeMemRef, encodeAddrLow_decodeMemRef, decodeMemRef_indirect, decodeMemRef_indexed]
  apply BitVec.eq_of_getLsbD_eq
  intro i hi
  simp only [BitVec.getLsbD_append, BitVec.getLsbD_extractLsb']
  interval_cases i <;> simp

/-! The conditional-branch format, `0110 cccS dddd dddd` (R93). -/

@[simp] theorem encodeBranch_code (cc : BitVec 3) (k : BitVec 9) : (encodeBranch cc k).extractLsb' 12 4 = 6#4 := by
  simp only [encodeBranch, BitVec.extractLsb'_append_eq_ite]
  simp

@[simp] theorem encodeBranch_condition (cc : BitVec 3) (k : BitVec 9) : (encodeBranch cc k).extractLsb' 9 3 = cc := by
  simp only [encodeBranch, BitVec.extractLsb'_append_eq_ite]
  simp

@[simp] theorem encodeBranch_offset (cc : BitVec 3) (k : BitVec 9) : (encodeBranch cc k).extractLsb' 0 9 = k :=
  BitVec.extractLsb'_append_eq_right

/-- A word of operation code X'6' is put together again from its two fields. -/
theorem encodeBranch_fields {w : Word} (h : w.extractLsb' 12 4 = 6#4) :
    encodeBranch (w.extractLsb' 9 3) (w.extractLsb' 0 9) = w := by
  rw [encodeBranch, ← h]
  apply BitVec.eq_of_getLsbD_eq
  intro i hi
  simp only [BitVec.getLsbD_append, BitVec.getLsbD_extractLsb']
  interval_cases i <;> simp

/-- The encoder reads the two fields of a branch that the decoder has named. -/
theorem encode_decodeBranch (w : Word) :
    (decodeBranch w).wf = true ∧ encode (decodeBranch w) = encodeBranch (w.extractLsb' 9 3) (w.extractLsb' 0 9) := by
  unfold decodeBranch
  generalize w.extractLsb' 9 3 = cc
  have hcc := cc.isLt
  obtain ⟨n, hn⟩ : ∃ n, n = cc.toNat := ⟨_, rfl⟩
  obtain rfl : cc = BitVec.ofNat 3 n := by simp [hn]
  rw [← hn] at hcc
  interval_cases n <;> exact ⟨rfl, rfl⟩

/-! The copy format, `0111 ppci kddd vsss` (R94). -/

section
variable (op : CopyOp) (ac ai cd : Bool) (c : CopyArgs)

@[simp] theorem encodeCopy_code : (encodeCopy op ac ai cd c).extractLsb' 12 4 = 7#4 := by
  simp only [encodeCopy, BitVec.extractLsb'_append_eq_ite]
  simp

@[simp] theorem encodeCopy_operation : (encodeCopy op ac ai cd c).extractLsb' 10 2 = encodeCopyOp op := by
  simp only [encodeCopy, BitVec.extractLsb'_append_eq_ite]
  simp

theorem encodeCopy_ac : (encodeCopy op ac ai cd c).getLsbD 9 = ac := by
  simp only [encodeCopy, BitVec.getLsbD_append]
  simp

theorem encodeCopy_ai : (encodeCopy op ac ai cd c).getLsbD 8 = ai := by
  simp only [encodeCopy, BitVec.getLsbD_append]
  simp

theorem encodeCopy_cd : (encodeCopy op ac ai cd c).getLsbD 7 = cd := by
  simp only [encodeCopy, BitVec.getLsbD_append]
  simp

@[simp] theorem decodeCopyArgs_encodeCopy : decodeCopyArgs (encodeCopy op ac ai cd c) = c := by
  simp only [decodeCopyArgs, encodeCopy, BitVec.getLsbD_append, BitVec.extractLsb'_append_eq_ite]
  simp

end

/-- A word of operation code X'7' is put together again from its fields. -/
theorem encodeCopy_fields {w : Word} (h : w.extractLsb' 12 4 = 7#4) :
    encodeCopy (decodeCopyOp (w.extractLsb' 10 2)) (w.getLsbD 9) (w.getLsbD 8) (w.getLsbD 7) (decodeCopyArgs w) = w := by
  simp only [encodeCopy, encodeCopyOp_decodeCopyOp, decodeCopyArgs, encodeReg_decodeReg, ← h]
  apply BitVec.eq_of_getLsbD_eq
  intro i hi
  simp only [BitVec.getLsbD_append, BitVec.getLsbD_extractLsb']
  interval_cases i <;> simp

/-- Whatever name the decoder gives a copy setting, the encoder reads the setting from it; there are 32 settings. -/
theorem encode_decodeCopy (w : Word) :
    (decodeCopy w).wf = true ∧
      encode (decodeCopy w) =
        encodeCopy (decodeCopyOp (w.extractLsb' 10 2)) (w.getLsbD 9) (w.getLsbD 8) (w.getLsbD 7) (decodeCopyArgs w) := by
  unfold decodeCopy
  generalize decodeCopyOp (w.extractLsb' 10 2) = op, w.getLsbD 9 = ac, w.getLsbD 8 = ai, w.getLsbD 7 = cd
  cases op <;> cases ac <;> cases ai <;> cases cd <;> exact ⟨rfl, rfl⟩

/-- A setting without a mnemonic decodes to the copy instruction in general (R202). -/
theorem decodeCopy_unnamed {op : CopyOp} {ac ai cd : Bool} (c : CopyArgs) (h : copyHasMnemonic op ac ai cd = false) :
    decodeCopy (encodeCopy op ac ai cd c) = .copy op ac ai cd c := by
  simp only [decodeCopy, encodeCopy_operation, decodeCopyOp_encodeCopyOp, encodeCopy_ac, encodeCopy_ai, encodeCopy_cd,
    decodeCopyArgs_encodeCopy]
  split
  case h_16 => rfl
  all_goals simp [copyHasMnemonic] at h

/-! READ DIRECT and the five I/O words (R107). -/

/-- The words that are SIO, TIO, TDV, HIO and AIO. -/
def ioWords : List Word := [0x1041, 0x1042, 0x1044, 0x1048, 0x1050]

theorem forall_ioWords {P : Word → Prop} :
    (∀ w ∈ ioWords, P w) ↔ P 0x1041 ∧ P 0x1042 ∧ P 0x1044 ∧ P 0x1048 ∧ P 0x1050 := by
  simp [ioWords]

/-- A READ DIRECT operand is ill-formed exactly where its word is one of the five. -/
theorem isIoWord_iff (m : MemRef) : m.isIoWord = true ↔ encodeMemRef 1#4 m ∈ ioWords := by
  constructor
  · obtain ⟨form, indirect, indexed⟩ := m
    cases form <;> simp only [MemRef.isIoWord, isIoDisplacement, Bool.false_eq_true, false_implies]
    simp only [Bool.and_eq_true, Bool.not_eq_true', Bool.or_eq_true, beq_iff_eq]
    rintro ⟨⟨rfl, rfl⟩, (((rfl | rfl) | rfl) | rfl) | rfl⟩ <;> decide
  · intro h
    have hw : ∀ w ∈ ioWords, (decodeMemRef w).isIoWord = true := forall_ioWords.2 ⟨rfl, rfl, rfl, rfl, rfl⟩
    simpa using hw _ h

/-- Any other word of operation code X'1' is READ DIRECT. -/
theorem decodeReadDirect_of_not_io {w : Word} (h : w ∉ ioWords) : decodeReadDirect w = .rd (decodeMemRef w) := by
  have hne : ∀ v ∈ ioWords, w.toNat ≠ v.toNat := fun v hv e => h (BitVec.eq_of_toNat_eq e ▸ hv)
  obtain ⟨hsio, htio, htdv, hhio, haio⟩ := forall_ioWords.1 hne
  unfold decodeReadDirect
  split
  · next e => exact absurd e hsio
  · next e => exact absurd e htio
  · next e => exact absurd e htdv
  · next e => exact absurd e hhio
  · next e => exact absurd e haio
  · rfl

/-- Each of the five I/O words decodes to an instruction that encodes to it. -/
theorem encode_decodeReadDirect_io : ∀ w ∈ ioWords, (decodeReadDirect w).wf = true ∧ encode (decodeReadDirect w) = w :=
  forall_ioWords.2 ⟨⟨rfl, rfl⟩, ⟨rfl, rfl⟩, ⟨rfl, rfl⟩, ⟨rfl, rfl⟩, ⟨rfl, rfl⟩⟩

theorem encode_decodeReadDirect {w : Word} (hc : w.extractLsb' 12 4 = 1#4) :
    (decodeReadDirect w).wf = true ∧ encode (decodeReadDirect w) = w := by
  by_cases h : w ∈ ioWords
  · exact encode_decodeReadDirect_io w h
  · have hw : encodeMemRef 1#4 (decodeMemRef w) = w := encodeMemRef_decodeMemRef hc
    rw [decodeReadDirect_of_not_io h]
    refine ⟨?_, hw⟩
    rw [← hw, ← isIoWord_iff] at h
    simpa [Instr.wf] using h

/-! Whole words. -/

/-- Settles O1: decoding the fields that each of the three formats writes gives the operands back; well-formedness rules out the two
names the decoder does not use. -/
theorem encodeThenDecode : Obligations.EncodeThenDecode := by
  intro i hi
  cases i with
  | rd m =>
    have hio : encodeMemRef 1#4 m ∉ ioWords := by
      rw [← isIoWord_iff]
      simpa [Instr.wf] using hi
    simp [encode, decode, decodeReadDirect_of_not_io hio]
  | wd m | s m | mul m | b m | div m | lda m | and m | add m | sub m | ldx m | cp m | sta m | im m => simp [encode, decode]
  | bno k | bnc k | baz k | bix k | bxno k | bxnc k | ben k | ban k => simp [encode, decode, decodeBranch]
  | copy op ac ai cd c =>
    have hn : copyHasMnemonic op ac ai cd = false := by simpa [Instr.wf] using hi
    simp [encode, decode, decodeCopy_unnamed c hn]
  | rcpy c | radd c | ror c | reor c | rand c | rcpyi c | raddi c | rori c | reori c | randi c | rcpyc c | raddc c | rorc c
  | reorc c | randc c =>
    simp [encode, decode, decodeCopy, encodeCopy_ac, encodeCopy_ai, encodeCopy_cd, -BitVec.getLsbD_eq_getElem]
  | sio | tio | tdv | hio | aio => rfl

/-- Settles O2: the operation code selects the format, and each format is put together again from its fields. The
cases are the sixteen codes in order: X'1', X'6' and X'7' have their own decoders, and X'F' is the last. -/
theorem decodeThenEncode : Obligations.DecodeThenEncode := by
  intro w
  unfold decode
  split
  case h_2 => exact encode_decodeReadDirect (BitVec.eq_of_toNat_eq ‹_›)
  case h_7 h =>
    have hc : w.extractLsb' 12 4 = 6#4 := BitVec.eq_of_toNat_eq h
    obtain ⟨hwf, he⟩ := encode_decodeBranch w
    exact ⟨hwf, he.trans (encodeBranch_fields hc)⟩
  case h_8 h =>
    have hc : w.extractLsb' 12 4 = 7#4 := BitVec.eq_of_toNat_eq h
    obtain ⟨hwf, he⟩ := encode_decodeCopy w
    exact ⟨hwf, he.trans (encodeCopy_fields hc)⟩
  case h_16 =>
    have hlt := (w.extractLsb' 12 4).isLt
    have hc : w.extractLsb' 12 4 = 15#4 := by
      apply BitVec.eq_of_toNat_eq
      simp only [imp_false, BitVec.toNat_ofNat] at *
      omega
    exact ⟨rfl, encodeMemRef_decodeMemRef hc⟩
  all_goals exact ⟨rfl, encodeMemRef_decodeMemRef (BitVec.eq_of_toNat_eq ‹_›)⟩

/-- Settles O3: the decoder evaluated at the twelve words. -/
theorem writtenWordsDecode : Obligations.WrittenWordsDecode := by
  refine ⟨?_, ?_, ?_, ?_, ?_, ?_, ?_, ?_, ?_, ?_, ?_, ?_⟩ <;> decide

end Sys2Proof
end

section
/-! The effective address (R100), the I/O functions of READ DIRECT (R107, R214), and that no instruction but RD and WD can stop
the machine (R109, R351). -/

namespace Sys2Proof.Machine

/-! The effective address. -/

/-- What follows a direct address: X1 is added to it, or it is the effective address already (R100 step 3). -/
theorem effAddr_of_directAddr {m : MemRef} {s : State} {d : Word} (h : directAddr m s = .ok d) :
    effAddr m s = .ok (if m.indexed then BitVec.ofNat 16 (d.toNat + s.regs.x1.toNat) else d) := by
  simp only [effAddr, h, BitVec.add_def]

theorem effAddr_of_directAddr_error {m : MemRef} {s : State} {t : Trap} (h : directAddr m s = .error t) :
    effAddr m s = .error t := by
  rw [effAddr, h]

theorem directAddr_direct (f : AddrForm) (x : Bool) (s : State) : directAddr ⟨f, false, x⟩ s = .ok (referenceAddr f s) := rfl

theorem directAddr_indirect (f : AddrForm) (x : Bool) (s : State) :
    directAddr ⟨f, true, x⟩ s = readChecked s (referenceAddr f s) := rfl

/-- Settles O8: the reference address by its form, then the step from the direct address, which is the reference address or the word
read there. -/
theorem effectiveAddressFormation : Obligations.EffectiveAddressFormation := by
  intro s
  refine ⟨fun d => ?_, fun d => ?_, fun k => add_sext9 s.h k, fun f => ⟨?_, ?_, fun v hv => ⟨?_, ?_⟩, fun t x ht => ?_⟩⟩
  · simp only [referenceAddr, zext, BitVec.toNat_setWidth]
    omega
  · simp only [referenceAddr, zext, BitVec.toNat_add, BitVec.toNat_setWidth]
    omega
  · exact effAddr_of_directAddr (directAddr_direct f false s)
  · exact effAddr_of_directAddr (directAddr_direct f true s)
  · exact effAddr_of_directAddr ((directAddr_indirect f false s).trans hv)
  · exact effAddr_of_directAddr ((directAddr_indirect f true s).trans hv)
  · exact effAddr_of_directAddr_error ((directAddr_indirect f x s).trans ht)

/-! READ DIRECT as an I/O instruction. -/

/-- A READ DIRECT whose function has one next state is the privileged function that leaves it. -/
theorem exec_rd_eq_privileged {m : MemRef} {s t : State} {ea : Word} (h : Addresses m s ea) (hf : readDirect ea s = .next t) :
    exec (.rd m) s = privileged s t := by
  simp only [exec, execRd, withAddr_ok h, hf, privileged, unlessExit, h.1, Bool.false_eq_true, if_false]

/-- Settles O40: each of the five effective addresses selects the function of its I/O instruction. -/
theorem readDirectSelectsIo : Obligations.ReadDirectSelectsIo := by
  intro m s ea h
  refine ⟨?_, ?_, ?_, ?_, ?_⟩ <;> (rintro rfl; exact exec_rd_eq_privileged h rfl)

/-! The instructions that complete. -/

/-- The outcome is a next state. -/
def Completes (r : Result) : Prop := ∃ t, r = .next t

theorem completes_next (t : State) : Completes (.next t) := ⟨t, rfl⟩

/-- An exception is a next state as well (R350). -/
theorem completes_attempt {α : Type} {s : State} {r : Except Trap α} {k : α → Result} (h : ∀ v, Completes (k v)) :
    Completes (attempt s r k) := by
  cases r with
  | ok v => exact h v
  | error t => exact completes_next (takeTrap t s)

theorem completes_unlessExit {s : State} {k : Result} (he : s.exitCond = false) (h : Completes k) : Completes (unlessExit s k) := by
  simpa [unlessExit, he] using h

theorem completes_withAddr {m : MemRef} {s : State} {k : Word → Result} (he : s.exitCond = false) (h : ∀ ea, Completes (k ea)) :
    Completes (withAddr m s k) :=
  completes_unlessExit he (completes_attempt h)

theorem completes_withOperand {m : MemRef} {s : State} {k : Word → Result} (he : s.exitCond = false) (h : ∀ v, Completes (k v)) :
    Completes (withOperand m s k) :=
  completes_withAddr he fun _ => completes_attempt h

theorem completes_execMul {s : State} (he : s.exitCond = false) (m : MemRef) : Completes (execMul m s) :=
  completes_withAddr he fun _ => completes_attempt fun _ => completes_attempt fun _ => completes_next _

/-- A division whose quotient does not fit completes too, with overflow set (R134). -/
theorem completes_execDiv {s : State} (he : s.exitCond = false) (m : MemRef) : Completes (execDiv m s) := by
  refine completes_withAddr he fun _ => completes_attempt fun _ => completes_attempt fun _ => ?_
  split <;> exact completes_next _

theorem completes_execIm {s : State} (he : s.exitCond = false) (m : MemRef) : Completes (execIm m s) :=
  completes_withAddr he fun _ => completes_attempt fun _ => completes_attempt fun _ => completes_next _

theorem completes_execSta {s : State} (he : s.exitCond = false) (m : MemRef) : Completes (execSta m s) :=
  completes_withAddr he fun _ => completes_attempt fun _ => completes_next _

/-- LDX completes whatever the exit condition: it loads X1 or returns from the routine (R123, R125). -/
theorem completes_execLdx (m : MemRef) (s : State) : Completes (execLdx m s) := by
  refine completes_attempt fun _ => completes_attempt fun _ => ?_
  split
  · exact completes_attempt fun _ => completes_next _
  · exact completes_next _

theorem completes_branchIf {s : State} (he : s.exitCond = false) (taken : Bool) (k : BitVec 9) : Completes (branchIf taken k s) :=
  completes_unlessExit he (completes_next _)

theorem completes_branchIndex {s : State} (he : s.exitCond = false) (k : BitVec 9) : Completes (branchIndex k s) :=
  completes_branchIf ((State.setReg_exitCond ..).trans he) _ k

/-- BXNO and BXNC complete with their indicator set or clear (R166, R167). -/
theorem completes_branchIndex_unless {s : State} (he : s.exitCond = false) (b : Bool) (k : BitVec 9) :
    Completes (if b then branchIf false k s else branchIndex k s) := by
  split
  · exact completes_branchIf he _ k
  · exact completes_branchIndex he k

theorem completes_execCopy {s : State} (he : s.exitCond = false) (op : CopyOp) (ac ai cd : Bool) (c : CopyArgs) :
    Completes (execCopy op ac ai cd c s) :=
  completes_unlessExit he (completes_next _)

theorem completes_privileged {s : State} (he : s.exitCond = false) (t : State) : Completes (privileged s t) :=
  completes_unlessExit he (completes_attempt fun _ => completes_next t)

/-- Settles O55: with the exit condition clear, every part of every other meaning ends in a next state. -/
theorem nothingElseStops : Obligations.NothingElseStops := by
  intro i s he hi
  change Completes (exec i s)
  cases i with
  | wd m => exact absurd rfl (hi m).2
  | rd m => exact absurd rfl (hi m).1
  | mul m => exact completes_execMul he m
  | div m => exact completes_execDiv he m
  | im m => exact completes_execIm he m
  | sta m => exact completes_execSta he m
  | ldx m => exact completes_execLdx m s
  | s m | b m => exact completes_withAddr he fun _ => completes_next _
  | lda m | and m | add m | sub m | cp m => exact completes_withOperand he fun _ => completes_next _
  | bno k | bnc k | baz k | ben k | ban k => exact completes_branchIf he _ k
  | bix k => exact completes_branchIndex he k
  | bxno k | bxnc k => exact completes_branchIndex_unless he _ k
  | rcpy c | radd c | ror c | reor c | rand c | rcpyi c | raddi c | rori c | reori c | randi c | rcpyc c | raddc c | rorc c
  | reorc c | randc c | copy op ac ai cd c => exact completes_execCopy he _ _ _ _ c
  | sio | tio | tdv | hio | aio => exact completes_privileged he _

end Sys2Proof.Machine
end

section
/-! The memory-reference instructions but SHIFT (R121 to R146): results, frames, aborts, and the return from an interrupt
routine. -/

namespace Sys2Proof.Machine

/-! The combinators step by step. -/

theorem attempt_ok {α : Type} {s : State} {r : Except Trap α} {v : α} {k : α → Result} (h : r = .ok v) :
    attempt s r k = k v := by
  rw [h, attempt]

theorem attempt_error {α : Type} {s : State} {r : Except Trap α} {t : Trap} {k : α → Result} (h : r = .error t) :
    attempt s r k = .next (takeTrap t s) := by
  rw [h, attempt]

theorem unlessExit_refused {s : State} {k : Result} (h : s.exitCond = true) : unlessExit s k = .refused .exitWithoutLdx :=
  if_pos h

/-- An instruction that only reads its operand takes the aborts of its two reads. -/
theorem abortsOnRead_of_withOperand {i : Instr} {m : MemRef} {s : State} {k : Word → Result} (h : exec i s = withOperand m s k)
    (he : s.exitCond = false) : AbortsOnRead i m s := by
  rw [AbortsOnRead, h]
  exact withOperand_error he

/-! The meanings in the combinators. -/

theorem exec_lda (m : MemRef) (s : State) : exec (.lda m) s = withOperand m s fun v => .next { s with regs.a := v } := rfl

theorem exec_and (m : MemRef) (s : State) :
    exec (.and m) s = withOperand m s fun v => .next { s with regs.a := s.regs.a &&& v } := rfl

theorem exec_sta (m : MemRef) (s : State) :
    exec (.sta m) s = withAddr m s fun ea => attempt s (checkStore s ea) fun _ => .next (s.storeWord ea s.regs.a) := rfl

theorem exec_b (m : MemRef) (s : State) : exec (.b m) s = withAddr m s fun ea => .next { s with regs.p := ea } := rfl

theorem exec_cp (m : MemRef) (s : State) :
    exec (.cp m) s = withOperand m s fun v => .next (s.setOC (compareCode s.regs.a v).1 (compareCode s.regs.a v).2) := rfl

/-- With the exit condition clear LDX reads its operand like any other instruction (R123). -/
theorem exec_ldx_load {m : MemRef} {s : State} (he : s.exitCond = false) :
    exec (.ldx m) s = withOperand m s fun v => .next { s with regs.x1 := v } := by
  simp [exec, execLdx, withOperand, withAddr, unlessExit, he, State.setReg]

/-- With the exit condition set LDX reads a doubleword and returns from the routine (R124, R125). -/
theorem exec_ldx_exit {m : MemRef} {s : State} (he : s.exitCond = true) :
    exec (.ldx m) s =
      attempt s (effAddr m s) fun ea =>
        attempt s (readChecked s ea) fun w => attempt s (readChecked s (ea + 1)) fun p => .next (exitLevel w p s) := by
  simp [exec, execLdx, he]

theorem addOverflow_add (a v : Word) : addOverflow a v (a + v) = outOfRange (a.toInt + v.toInt) := by
  simpa [BitVec.add_def] using addOverflow_eq a v 0 (by omega)

/-- ADD with its flags in the terms of the statements (R127, R130). -/
theorem exec_add (m : MemRef) (s : State) :
    exec (.add m) s = withOperand m s fun v => .next
      { s with
        regs.a := s.regs.a + v
        ind.o := outOfRange (s.regs.a.toInt + v.toInt)
        ind.c := decide (65536 ≤ s.regs.a.toNat + v.toNat) } := by
  simp only [exec, execAdd, ← BitVec.add_def, addOverflow_add]
  rfl

/-- SUB with its flags in the terms of the statements (R129, R130). -/
theorem exec_sub (m : MemRef) (s : State) :
    exec (.sub m) s = withOperand m s fun v => .next
      { s with
        regs.a := s.regs.a - v
        ind.o := outOfRange (s.regs.a.toInt - v.toInt)
        ind.c := decide (v.toNat ≤ s.regs.a.toNat) } := by
  simp only [exec, execSub, subtractSum_eq, subOverflow_eq, carryOut_subtractSum]
  rfl

theorem incrementOverflow_succ (v : Word) : incrementOverflow (v + 1) = (v == 0x7FFF) := by
  rw [incrementOverflow, Bool.eq_iff_iff, beq_iff_eq, beq_iff_eq]
  bv_omega

theorem incrementCarry_succ (v : Word) : incrementCarry (v + 1) = (v == 0xFFFF) := by
  rw [incrementCarry, Bool.eq_iff_iff, beq_iff_eq, beq_iff_eq]
  bv_omega

/-- IM with its flags read off the old contents (R137). -/
theorem exec_im (m : MemRef) (s : State) :
    exec (.im m) s = withAddr m s fun ea =>
      attempt s (checkStore s ea) fun _ =>
        attempt s (readChecked s ea) fun v => .next ((s.storeWord ea (v + 1)).setOC (v == 0x7FFF) (v == 0xFFFF)) := by
  simp only [exec, execIm, incrementOverflow_succ, incrementCarry_succ]

/-! Loads, stores, the branch. -/

/-- Settles O11: each of the three reads its operand and writes one register. -/
theorem loadsAndLogicalAnd : Obligations.LoadsAndLogicalAnd := by
  intro m s
  refine ⟨fun ea v h => ⟨?_, ?_, ?_⟩, fun he => ⟨?_, ?_, ?_⟩⟩
  · rw [exec_lda, withOperand_ok h]
  · rw [exec_and, withOperand_ok h]
  · rw [exec_ldx_load h.1.1, withOperand_ok h]
  · exact abortsOnRead_of_withOperand (exec_lda m s) he
  · exact abortsOnRead_of_withOperand (exec_and m s) he
  · exact abortsOnRead_of_withOperand (exec_ldx_load he) he

/-- Settles O12: a store that rule 3 allows changes one word, and one that it forbids is aborted. -/
theorem storeAccumulator : Obligations.StoreAccumulator := by
  intro m s hwf he
  refine ⟨fun ea hea => ⟨fun hs => ?_, fun hs => ?_⟩, fun t ht => withAddr_error he ht⟩
  · refine ⟨s.storeWord ea s.regs.a, ?_, s.storeWord_eq ea s.regs.a, wordStored_storeWord s ea s.regs.a hwf⟩
    rw [exec_sta, withAddr_ok ⟨he, hea⟩, attempt_ok (checkStore_ok hs)]
  · refine ⟨takeTrap .protection s, ?_, abortedTo_protection s⟩
    rw [exec_sta, withAddr_ok ⟨he, hea⟩, attempt_error (checkStore_error hs)]

/-- Settles O13: rule 3 is tested before the operand is read, and the flags are those of the word read. -/
theorem incrementMemory : Obligations.IncrementMemory := by
  intro m s hwf he
  refine ⟨fun ea hea => ⟨fun v hs hv => ?_, fun x hs hx => ?_, fun hs => ?_⟩, fun t ht => withAddr_error he ht⟩
  · refine ⟨(s.storeWord ea (v + 1)).setOC (v == 0x7FFF) (v == 0xFFFF), ?_, wordStored_storeWord s ea (v + 1) hwf, ?_⟩
    · rw [exec_im, withAddr_ok ⟨he, hea⟩, attempt_ok (checkStore_ok hs), attempt_ok hv]
    · exact congrArg (·.setOC (v == 0x7FFF) (v == 0xFFFF)) (s.storeWord_eq ea (v + 1))
  · rw [exec_im, withAddr_ok ⟨he, hea⟩, attempt_ok (checkStore_ok hs), attempt_error hx]
  · refine ⟨takeTrap .protection s, ?_, abortedTo_protection s⟩
    rw [exec_im, withAddr_ok ⟨he, hea⟩, attempt_error (checkStore_error hs)]

/-- Settles O20: the branch takes the effective address without reading it. -/
theorem branchResult : Obligations.BranchResult := by
  intro m s
  refine ⟨fun ea h => ?_, fun t he ht => withAddr_error he ht⟩
  rw [exec_b, withAddr_ok h]

/-! Add, subtract, compare. -/

/-- Settles O14: ADD reads its operand and writes the sum, with the adder's flags as ranges of the true sum. -/
theorem addResult : Obligations.AddResult := by
  intro m s
  refine ⟨fun ea v h => ?_, abortsOnRead_of_withOperand (exec_add m s)⟩
  rw [exec_add, withOperand_ok h]

/-- Settles O15: SUB reads its operand and writes the difference, with the adder's flags as ranges of the true difference. -/
theorem subtractResult : Obligations.SubtractResult := by
  intro m s
  refine ⟨fun ea v h => ?_, abortsOnRead_of_withOperand (exec_sub m s)⟩
  rw [exec_sub, withOperand_ok h]

theorem compareCode_lt {a m : Word} (h : a.toInt < m.toInt) : compareCode a m = (false, false) := if_pos h

theorem compareCode_gt {a m : Word} (h : m.toInt < a.toInt) : compareCode a m = (false, true) := by
  rw [compareCode, if_neg (by omega), if_pos h]

theorem compareCode_self (a : Word) : compareCode a a = (true, true) := by
  simp [compareCode]

/-- Settles O18: the three cases of the comparison. -/
theorem compareResult : Obligations.CompareResult := by
  intro m s
  refine ⟨fun ea v h => ?_, abortsOnRead_of_withOperand (exec_cp m s)⟩
  rw [exec_cp, withOperand_ok h]
  refine ⟨fun hlt => ?_, fun hgt => ?_, fun heq => ?_⟩
  · rw [compareCode_lt hlt]
    rfl
  · rw [compareCode_gt hgt]
    rfl
  · rw [← heq, compareCode_self]
    rfl

/-! Multiply and divide. -/

/-- An instruction of the multiply/divide option that reads its operand: without the option it takes its exception between the
address and the operand (R365, R370). -/
def withMulDiv (t : Trap) (m : MemRef) (s : State) (k : Word → Result) : Result :=
  withAddr m s fun ea => attempt s (requireMulDiv t s) fun _ => attempt s (readChecked s ea) k

theorem requireMulDiv_present {t : Trap} {s : State} (h : s.cfg.mulDiv = true) : requireMulDiv t s = .ok () := if_pos h

theorem requireMulDiv_absent {t : Trap} {s : State} (h : s.cfg.mulDiv = false) : requireMulDiv t s = .error t := by
  simp [requireMulDiv, h]

theorem withMulDiv_present {t : Trap} {m : MemRef} {s : State} {k : Word → Result} (h : s.cfg.mulDiv = true) :
    withMulDiv t m s k = withOperand m s k := by
  simp only [withMulDiv, attempt_ok (requireMulDiv_present h)]
  rfl

theorem withMulDiv_absent {t : Trap} {m : MemRef} {s : State} {ea : Word} {k : Word → Result} (h : s.cfg.mulDiv = false)
    (ha : Addresses m s ea) : withMulDiv t m s k = .next (takeTrap t s) := by
  rw [withMulDiv, withAddr_ok ha, attempt_error (requireMulDiv_absent h)]

theorem exec_mul (m : MemRef) (s : State) :
    exec (.mul m) s = withMulDiv .multiply m s fun v =>
      .next ((s.setPair (product s.regs.a v)).setOC s.ind.o (product s.regs.a v).msb) := rfl

/-- The product of two words always fits in a doubleword (R131). -/
theorem toInt_product (a m : Word) : (product a m).toInt = a.toInt * m.toInt := by
  have hl : -2 ^ 30 ≤ a.toInt * m.toInt := BitVec.le_toInt_mul_toInt
  have hu : a.toInt * m.toInt ≤ 2 ^ 30 := BitVec.toInt_mul_toInt_le
  exact BitVec.toInt_ofInt_eq_self (by omega) (by omega) (by omega)

/-- Settles O16: the product is exact in a doubleword. -/
theorem multiplyResult : Obligations.MultiplyResult := by
  intro m s
  refine ⟨fun ea v ho h => ?_, fun ea ho h => ?_, fun t he ht => withAddr_error he ht, fun ho => ?_⟩
  · refine ⟨(s.setPair (product s.regs.a v)).setOC s.ind.o (product s.regs.a v).msb, ?_, rfl, ?_, ?_⟩
    · rw [exec_mul, withMulDiv_present ho, withOperand_ok h]
    · exact (congrArg BitVec.toInt (s.pair_setPair _)).trans (toInt_product s.regs.a v)
    · rw [← toInt_product, ← BitVec.msb_eq_toInt]
      rfl
  · exact ⟨takeTrap .multiply s, (exec_mul m s).trans (withMulDiv_absent ho h), abortedTo_multiply s⟩
  · exact abortsOnRead_of_withOperand ((exec_mul m s).trans (withMulDiv_present ho))

theorem exec_div (m : MemRef) (s : State) :
    exec (.div m) s = withMulDiv .divide m s fun v =>
      match divide s.pair v with
      | some (q, r) => .next (((s.setReg .a q).setReg .e r).setOC false (bitAt r 0))
      | none => .next (s.setOC true (bitAt s.regs.e 0)) := rfl

theorem exec_div_overflow {m : MemRef} {s : State} {ea v : Word} (ho : s.cfg.mulDiv = true) (h : Reads m s ea v)
    (hd : divide s.pair v = none) : exec (.div m) s = .next (s.setOC true (bitAt s.regs.e 0)) := by
  rw [exec_div, withMulDiv_present ho, withOperand_ok h, hd]

theorem exec_div_quotient {m : MemRef} {s : State} {ea v q r : Word} (ho : s.cfg.mulDiv = true) (h : Reads m s ea v)
    (hd : divide s.pair v = some (q, r)) :
    exec (.div m) s = .next (((s.setReg .a q).setReg .e r).setOC false (bitAt r 0)) := by
  rw [exec_div, withMulDiv_present ho, withOperand_ok h, hd]

/-- E holds the sign of the doubleword E:A. -/
theorem bitAt_pair_sign (s : State) : bitAt s.regs.e 0 = decide ((s.regs.e ++ s.regs.a).toInt < 0) := by
  rw [bitAt_sign, ← BitVec.msb_eq_toInt, ← BitVec.msb_eq_toInt, BitVec.msb_append]
  rfl

theorem divide_none {n : BitVec 32} {v : Word} (h : v = 0 ∨ 32768 ≤ (n.toInt.tdiv v.toInt).natAbs) : divide n v = none :=
  if_pos h

/-- A remainder is smaller than its divisor (R133). -/
theorem natAbs_tmod_lt {v : Word} (n : Int) (h0 : v ≠ 0) : (n.tmod v.toInt).natAbs < v.toInt.natAbs := by
  rw [Int.natAbs_tmod]
  exact Nat.mod_lt _ (Int.natAbs_pos.2 fun h => h0 (BitVec.eq_of_toInt_eq h))

/-- A quotient that 16 bits hold comes with its remainder, both exact, for the remainder is smaller than the divisor (R133). -/
theorem divide_some {n : BitVec 32} {v : Word} (h0 : v ≠ 0) (hq : (n.toInt.tdiv v.toInt).natAbs < 32768) :
    ∃ q r, divide n v = some (q, r) ∧ q.toInt = n.toInt.tdiv v.toInt ∧ r.toInt = n.toInt.tmod v.toInt := by
  have hr := natAbs_tmod_lt n.toInt h0
  have hlo : -2 ^ 15 ≤ v.toInt := BitVec.le_toInt v
  have hhi : v.toInt < 2 ^ 15 := BitVec.toInt_lt
  refine ⟨_, _, if_neg ?_, ?_, ?_⟩
  · rintro (h | h)
    · exact h0 h
    · omega
  · exact BitVec.toInt_ofInt_eq_self (by omega) (by omega) (by omega)
  · exact BitVec.toInt_ofInt_eq_self (by omega) (by omega) (by omega)

/-- A remainder that is not zero has the dividend's sign (R133). -/
theorem tmod_neg_iff {n d : Int} (h : n.tmod d ≠ 0) : n.tmod d < 0 ↔ n < 0 := by
  have hd : ¬ d ∣ n := fun hd => h (Int.tmod_eq_zero_of_dvd hd)
  rw [← Int.sign_neg_iff, Int.sign_tmod, if_neg hd, Int.sign_neg_iff]

/-- Settles O17: quotient and remainder of the signed division, or the overflow exit. -/
theorem divideResult : Obligations.DivideResult := by
  intro m s
  refine ⟨fun ea v ho h => ⟨fun hx => ?_, fun h0 hq => ?_⟩, fun ea ho h => ?_, fun t he ht => withAddr_error he ht,
    fun ho => ?_⟩
  · rw [exec_div_overflow ho h (divide_none hx), bitAt_pair_sign]
    rfl
  · obtain ⟨q, r, hd, hqv, hrv⟩ := divide_some (n := s.pair) h0 hq
    refine ⟨_, exec_div_quotient ho h hd, rfl, ?_, ?_, ?_, bitAt_sign r⟩
    · change s.pair.toInt = q.toInt * v.toInt + r.toInt
      rw [hqv, hrv, Int.mul_comm, Int.mul_tdiv_add_tmod]
    · change r.toInt.natAbs < v.toInt.natAbs
      exact hrv ▸ natAbs_tmod_lt s.pair.toInt h0
    · change r = 0 ∨ (r.toInt < 0 ↔ s.pair.toInt < 0)
      refine or_iff_not_imp_left.2 fun hr => ?_
      rw [hrv]
      exact tmod_neg_iff fun hz => hr (BitVec.eq_of_toInt_eq (hrv.trans hz))
  · exact ⟨takeTrap .divide s, (exec_div m s).trans (withMulDiv_absent ho h), abortedTo_divide s⟩
  · exact abortsOnRead_of_withOperand ((exec_div m s).trans (withMulDiv_present ho))

/-! The return from an interrupt routine, and the exit condition anywhere else. -/

/-- The highest active level is the first active one of the chain (R331). -/
theorem highestActive_eq_some {s : State} {above below : List Level} {l : Level}
    (hc : priorityChain s.cfg = above ++ l :: below) (hl : (s.level l).state = .active)
    (ha : ∀ x ∈ above, (s.level x).state ≠ .active) : highestActive s = some l := by
  refine List.find?_eq_some_iff_append.2 ⟨by simp [isActive, hl], above, below, hc, fun x hx => ?_⟩
  simp [isActive, ha x hx]

theorem highestActive_eq_none {s : State} (h : ∀ l ∈ priorityChain s.cfg, (s.level l).state ≠ .active) :
    highestActive s = none :=
  List.find?_eq_none.2 fun l hl => by simp [isActive, h l hl]

/-- The return loads the indicators and P, resets the exit condition, and changes nothing else but levels (R125). -/
theorem exitLevel_eq (w p : Word) (s : State) :
    exitLevel w p s =
      { s with
        regs.p := p
        ind :=
          { pp := s.cfg.protect && w.getLsbD 7, ii := w.getLsbD 5, ei := w.getLsbD 4, o := w.getLsbD 1, c := w.getLsbD 0 }
        exitCond := false
        levels := (exitLevel w p s).levels } := by
  unfold exitLevel
  split <;> rfl

theorem level_exitLevel {s : State} {l : Level} (h : highestActive s = some l) (w p : Word) (k : Level) :
    (exitLevel w p s).level k = if k = l then { s.level l with state := .armed } else s.level k := by
  rw [exitLevel, h]
  exact State.level_setLevelState _ l k .armed

theorem level_exitLevel_none {s : State} (h : highestActive s = none) (w p : Word) (k : Level) :
    (exitLevel w p s).level k = s.level k := by
  rw [exitLevel, h]
  rfl

/-- Settles O21: the two reads in their order, then the return. -/
theorem exitFromInterruptRoutine : Obligations.ExitFromInterruptRoutine := by
  intro m s he
  refine ⟨fun ea hea => ⟨fun w p hw hp => ?_, fun x hx => ?_, fun w x hw hx => ?_⟩, fun x hx => ?_⟩
  · refine ⟨exitLevel w p s, ?_, exitLevel_eq w p s, fun above l below hc hl ha => ?_, fun hn => ?_⟩
    · rw [exec_ldx_exit he, attempt_ok hea, attempt_ok hw, attempt_ok hp]
    · exact level_exitLevel (highestActive_eq_some hc hl ha) w p
    · exact level_exitLevel_none (highestActive_eq_none hn) w p
  · rw [exec_ldx_exit he, attempt_ok hea, attempt_error hx]
  · rw [exec_ldx_exit he, attempt_ok hea, attempt_ok hw, attempt_error hx]
  · rw [exec_ldx_exit he, attempt_error hx]

theorem branchIndex_refused {s : State} (he : s.exitCond = true) (k : BitVec 9) :
    branchIndex k s = .refused .exitWithoutLdx :=
  unlessExit_refused ((State.setReg_exitCond ..).trans he)

/-- BXNO and BXNC are refused with their indicator set or clear (R126). -/
theorem branchIndex_unless_refused {s : State} (he : s.exitCond = true) (b : Bool) (k : BitVec 9) :
    (if b then branchIf false k s else branchIndex k s) = .refused .exitWithoutLdx := by
  split
  · exact unlessExit_refused he
  · exact branchIndex_refused he k

/-- Settles O22: every meaning but that of LDX tests the exit condition before anything else. -/
theorem exitWithoutLdxRefused : Obligations.ExitWithoutLdxRefused := by
  intro i s he hi
  cases i with
  | ldx m => exact absurd rfl (hi m)
  | bix k => exact branchIndex_refused he k
  | bxno k | bxnc k => exact branchIndex_unless_refused he _ k
  | wd m | rd m | s m | mul m | b m | div m | sta m | im m => exact unlessExit_refused he
  | lda m | and m | add m | sub m | cp m => exact unlessExit_refused he
  | bno k | bnc k | baz k | ben k | ban k => exact unlessExit_refused he
  | rcpy c | radd c | ror c | reor c | rand c | rcpyi c | raddi c | rori c | reori c | randi c | rcpyc c | raddc c | rorc c
  | reorc c | randc c | copy op ac ai cd c => exact unlessExit_refused he
  | sio | tio | tdv | hio | aio => exact unlessExit_refused he

end Sys2Proof.Machine
end

section
/-! Shifts (R141): the repeated one-position step of the model in closed form, for a word and for a doubleword. -/

namespace Sys2Proof.Machine

/-! Rotations of the library, taken one position at a time. -/

theorem rotateLeft_succ {w : Nat} (n : Nat) (v : BitVec w) : v.rotateLeft (n + 1) = (v.rotateLeft n).rotateLeft 1 := by
  apply BitVec.eq_of_getMsbD_eq
  intro i hi
  have hm : (1 + i) % w < w := Nat.mod_lt _ (by omega)
  simp [BitVec.getMsbD_rotateLeft, hi, hm, Nat.add_assoc]

/-- A rotation to the right reads the bits as one to the left by the rest of the width. -/
theorem getMsbD_rotateRight_eq {w : Nat} (n i : Nat) (v : BitVec w) (hi : i < w) :
    (v.rotateRight n).getMsbD i = v.getMsbD ((i + (w - n % w)) % w) := by
  have hn : n % w < w := Nat.mod_lt _ (by omega)
  rw [BitVec.getMsbD_rotateRight]
  by_cases h : i < n % w
  · simp [hi, h, show w + i - n % w = i + (w - n % w) by omega]
  · have he : i + (w - n % w) = i - n % w + w := by omega
    simp [hi, h, he, Nat.mod_eq_of_lt (show i - n % w < w by omega)]

theorem rotateRight_succ {w : Nat} (n : Nat) (v : BitVec w) : v.rotateRight (n + 1) = (v.rotateRight n).rotateRight 1 := by
  apply BitVec.eq_of_getMsbD_eq
  intro i hi
  have hw : 0 < w := by omega
  have hn := Nat.mod_lt n hw
  have h1 := Nat.mod_lt 1 hw
  rw [getMsbD_rotateRight_eq _ _ _ hi, getMsbD_rotateRight_eq _ _ _ hi, getMsbD_rotateRight_eq _ _ _ (Nat.mod_lt _ hw),
    Nat.mod_add_mod, Nat.add_mod_eq_ite (m := n)]
  congr 1
  split
  · congr 1
    omega
  · rw [show i + (w - 1 % w) + (w - n % w) = i + (w - (n % w + 1 % w)) + w by omega, Nat.add_mod_right]

/-! One position: what moves, and the bit that enters. -/

theorem rotateLeft_one {w : Nat} (v : BitVec w) : v.rotateLeft 1 = v <<< 1 ||| if v.msb then 1#w else 0#w := by
  apply BitVec.eq_of_getMsbD_eq
  intro i hi
  rw [BitVec.getMsbD_or, BitVec.getMsbD_shiftLeft, BitVec.getMsbD_rotateLeft, Nat.add_comm 1 i]
  by_cases h : i + 1 = w
  · subst h
    cases hm : v.msb <;> simp [hm, BitVec.getMsbD_one, ← BitVec.msb_eq_getMsbD_zero]
  · have hn : i + 1 < w := by omega
    cases hm : v.msb <;> simp [hi, Nat.mod_eq_of_lt hn, BitVec.getMsbD_one, show i ≠ w - 1 by omega]

/-- A shift to the right by one position with the bit `b` entering at the left. -/
theorem getMsbD_ushiftRight_or_intMin {w : Nat} (b : Bool) (v : BitVec w) {i : Nat} (hi : i < w) :
    (v >>> 1 ||| if b then BitVec.intMin w else 0#w).getMsbD i = if i = 0 then b else v.getMsbD (i - 1) := by
  rw [BitVec.getMsbD_or, BitVec.getMsbD_ushiftRight]
  by_cases h : i = 0
  · cases b <;> simp [h, BitVec.getMsbD_intMin, show 0 < w by omega]
  · cases b <;> simp [h, hi, BitVec.getMsbD_intMin]

theorem rotateRight_one {w : Nat} (v : BitVec w) :
    v.rotateRight 1 = v >>> 1 ||| if v.getLsbD 0 then BitVec.intMin w else 0#w := by
  apply BitVec.eq_of_getMsbD_eq
  intro i hi
  have hlast : v.getLsbD 0 = v.getMsbD (w - 1) := by
    rw [BitVec.getLsbD_eq_getMsbD]
    simp [show 0 < w by omega]
  rw [getMsbD_ushiftRight_or_intMin _ v hi, getMsbD_rotateRight_eq _ _ _ hi, hlast]
  rcases show w = 1 ∨ 1 < w by omega with rfl | hw
  · simp [show i = 0 by omega]
  · rw [Nat.mod_eq_of_lt hw]
    split
    · next h => rw [h, Nat.zero_add, Nat.mod_eq_of_lt (by omega)]
    · rw [show i + (w - 1) = i - 1 + w by omega, Nat.add_mod_right, Nat.mod_eq_of_lt (by omega)]

theorem sshiftRight_one {w : Nat} (v : BitVec w) :
    v.sshiftRight 1 = v >>> 1 ||| if v.msb then BitVec.intMin w else 0#w := by
  apply BitVec.eq_of_getMsbD_eq
  intro i hi
  rw [getMsbD_ushiftRight_or_intMin _ v hi, BitVec.getMsbD_sshiftRight]
  simp [hi]

theorem shifted_zero {w : Nat} (left circ : Bool) (v : BitVec w) : shifted left circ 0 v = v := by
  cases left <;> cases circ
  · exact BitVec.sshiftRight_zero
  · simp [shifted, BitVec.rotateRight_def]
  · exact BitVec.shiftLeft_zero v
  · simp [shifted, BitVec.rotateLeft_def, BitVec.ushiftRight_eq_zero]

/-- Shifting by one position more is shifting the result by one (R141). -/
theorem shifted_succ {w : Nat} (left circ : Bool) (n : Nat) (v : BitVec w) :
    shifted left circ (n + 1) v = shifted left circ 1 (shifted left circ n v) := by
  cases left <;> cases circ
  · exact BitVec.sshiftRight_add
  · exact rotateRight_succ n v
  · exact BitVec.shiftLeft_add v n 1
  · exact rotateLeft_succ n v

theorem shiftStep_v {w : Nat} (left circ : Bool) (x : ShiftState w) : (shiftStep left circ x).v = shifted left circ 1 x.v := by
  cases left <;> cases circ
  · exact (sshiftRight_one x.v).symm
  · exact (rotateRight_one x.v).symm
  · simp [shiftStep, shifted]
  · exact (rotateLeft_one x.v).symm

theorem shiftStep_cy {w : Nat} (left circ : Bool) (x : ShiftState w) :
    (shiftStep left circ x).cy = (x.cy != (left && x.v.msb)) := by
  cases left <;> simp [shiftStep]

theorem shiftStep_ovf {w : Nat} (left circ : Bool) (x : ShiftState w) :
    (shiftStep left circ x).ovf = (x.ovf || (left && !circ && x.v.msb != x.v.getMsbD 1)) := by
  cases left <;> cases circ <;> simp [shiftStep, bne_comm, BitVec.msb_shiftLeft]

/-! All positions. -/

/-- The bit in the sign position of a left shift after `n` positions. -/
theorem msb_shifted_left {w : Nat} (circ : Bool) (n : Nat) (v : BitVec w) :
    (shifted true circ n v).msb = v.getMsbD (if circ then n % w else n) := by
  cases circ
  · exact BitVec.msb_shiftLeft
  · exact BitVec.msb_rotateLeft

theorem shiftOverflow_succ {w : Nat} (left circ : Bool) (n : Nat) (v : BitVec w) :
    shiftOverflow left circ (n + 1) v =
      (shiftOverflow left circ n v || (left && !circ && (v.getMsbD n != v.getMsbD (n + 1)))) := by
  cases left <;> cases circ <;> simp [shiftOverflow, List.range_succ]

theorem shiftCarry_succ {w : Nat} (left circ : Bool) (n : Nat) (v : BitVec w) :
    shiftCarry left circ (n + 1) v = (shiftCarry left circ n v != (left && v.getMsbD (if circ then n % w else n))) := by
  cases left
  · rfl
  · rw [shiftCarry, List.range_succ, List.filter_append, List.length_append, shiftCarry]
    generalize ((List.range n).filter fun i => v.getMsbD (if circ then i % w else i)).length = k
    have hk := Nat.mod_two_eq_zero_or_one k
    cases h : v.getMsbD (if circ then n % w else n)
    · simp [h]
    · rcases hk with hk | hk <;> simp [h, hk, Nat.add_mod]

theorem shiftRun_succ {w : Nat} (left circ : Bool) (n : Nat) (x : ShiftState w) :
    shiftRun left circ (n + 1) x = shiftStep left circ (shiftRun left circ n x) := by
  induction n generalizing x with
  | zero => rfl
  | succ n ih => exact ih (shiftStep left circ x)

theorem shiftValue_succ {w : Nat} (left circ : Bool) (n : Nat) (v : BitVec w) :
    shiftValue left circ (n + 1) v = shiftStep left circ (shiftValue left circ n v) :=
  shiftRun_succ left circ n _

theorem shiftValue_v {w : Nat} (left circ : Bool) (n : Nat) (v : BitVec w) :
    (shiftValue left circ n v).v = shifted left circ n v := by
  induction n with
  | zero => exact (shifted_zero left circ v).symm
  | succ n ih => rw [shiftValue_succ, shiftStep_v, ih, ← shifted_succ]

/-- The sign position changes at a step of the shift exactly when two neighbours among the bits that reach it differ (R141). -/
theorem shiftValue_ovf {w : Nat} (left circ : Bool) (n : Nat) (v : BitVec w) :
    (shiftValue left circ n v).ovf = shiftOverflow left circ n v := by
  induction n with
  | zero => simp [shiftValue, shiftRun, shiftOverflow]
  | succ n ih =>
    rw [shiftValue_succ, shiftStep_ovf, shiftOverflow_succ, ih, shiftValue_v]
    cases left
    · rfl
    · cases circ
      · rw [msb_shifted_left, shifted, BitVec.getMsbD_shiftLeft, Nat.add_comm 1 n]
        rfl
      · rfl

theorem shiftValue_cy {w : Nat} (left circ : Bool) (n : Nat) (v : BitVec w) :
    (shiftValue left circ n v).cy = shiftCarry left circ n v := by
  induction n with
  | zero => simp [shiftValue, shiftRun, shiftCarry]
  | succ n ih =>
    rw [shiftValue_succ, shiftStep_cy, shiftCarry_succ, ih, shiftValue_v]
    cases left
    · rfl
    · rw [msb_shifted_left]

/-! The specification. -/

theorem field_low_five (v : Word) : field v 11 15 = v.toNat % 32 := by simp [field]

/-- A single shift: A, O and C are written (R141). -/
theorem shift_single {spec : Word} {s : State} (h : spec.getLsbD 7 = false) :
    shift spec s =
      { s with
        regs.a := shifted (spec.getLsbD 5) (spec.getLsbD 6) (spec.toNat % 32) s.regs.a
        ind.o := shiftOverflow (spec.getLsbD 5) (spec.getLsbD 6) (spec.toNat % 32) s.regs.a
        ind.c := shiftCarry (spec.getLsbD 5) (spec.getLsbD 6) (spec.toNat % 32) s.regs.a } := by
  have h8 : bitAt spec 8 = false := h
  rw [← shiftValue_v, ← shiftValue_ovf, ← shiftValue_cy, ← field_low_five, shift, h8]
  rfl

/-- A double shift: E:A, O and C are written (R141). -/
theorem shift_double {spec : Word} {s : State} (h : spec.getLsbD 7 = true) :
    shift spec s =
      (s.setPair (shifted (spec.getLsbD 5) (spec.getLsbD 6) (spec.toNat % 32) s.pair)).setOC
        (shiftOverflow (spec.getLsbD 5) (spec.getLsbD 6) (spec.toNat % 32) s.pair)
        (shiftCarry (spec.getLsbD 5) (spec.getLsbD 6) (spec.toNat % 32) s.pair) := by
  have h8 : bitAt spec 8 = true := h
  rw [← shiftValue_v, ← shiftValue_ovf, ← shiftValue_cy, ← field_low_five, shift, h8]
  rfl

theorem exec_s (m : MemRef) (s : State) : exec (.s m) s = withAddr m s fun ea => .next (shift ea s) := rfl

/-- Settles O19: the shift in closed form, for A and for E:A. -/
theorem shiftResult : Obligations.ShiftResult := by
  intro m s he
  refine ⟨fun ea hea => ⟨fun h => ?_, fun h => ?_⟩, fun t ht => withAddr_error he ht⟩
  · rw [exec_s, withAddr_ok ⟨he, hea⟩, shift_single h]
  · refine ⟨shift ea s, withAddr_ok ⟨he, hea⟩, ?_, ?_⟩
    · rw [shift_double h]
      rfl
    · rw [shift_double h]
      exact State.pair_setPair s _

end Sys2Proof.Machine
end

section
/-! The conditional branches (R160 to R169): what the shared branch and the shared index count do, then the eight conditions. -/

namespace Sys2Proof.Machine

/-! The two shared meanings. -/

/-- The state after a branch taken (R160). -/
def branchTaken (k : BitVec 9) (s : State) : State :=
  { s with regs.p := BitVec.ofInt 16 (s.h.toNat + k.toInt) }

/-- The state after X1 has counted: branched unless it has reached zero (R165). -/
def branchCounted (k : BitVec 9) (s : State) : State :=
  if s.regs.x1 = 0xFFFF then { s with regs.x1 := 0 }
  else { s with regs.x1 := s.regs.x1 + 1, regs.p := BitVec.ofInt 16 (s.h.toNat + k.toInt) }

theorem setReg_p_branchTarget (k : BitVec 9) (s : State) : s.setReg .p (branchTarget k s) = branchTaken k s := by
  rw [branchTarget, add_sext9, State.setReg, branchTaken]

theorem unlessExit_clear {s : State} {k : Result} (he : s.exitCond = false) : unlessExit s k = k := by
  simp [unlessExit, he]

theorem branchIf_clear {s : State} (he : s.exitCond = false) (taken : Bool) (k : BitVec 9) :
    branchIf taken k s = .next (if taken then branchTaken k s else s) := by
  rw [branchIf, unlessExit_clear he, setReg_p_branchTarget]

/-- The count wraps to zero from X'FFFF' alone (R165). -/
theorem succ_eq_zero_iff (v : Word) : v + 1 = 0 ↔ v = 0xFFFF := by
  bv_omega

theorem branchIndex_clear {s : State} (he : s.exitCond = false) (k : BitVec 9) :
    branchIndex k s = .next (branchCounted k s) := by
  rw [branchIndex, branchIf_clear ((State.setReg_exitCond ..).trans he), branchCounted]
  by_cases hx : s.regs.x1 = 0xFFFF
  · rw [if_pos hx, hx]
    rfl
  · have hne : (s.regs.x1 + 1 != 0) = true := bne_iff_ne.mpr (mt (succ_eq_zero_iff _).mp hx)
    rw [if_neg hx, if_pos hne]
    rfl

/-- BXNO and BXNC count only with their indicator clear (R166, R167). -/
theorem branchIndex_unless_clear {s : State} (he : s.exitCond = false) (b : Bool) (k : BitVec 9) :
    (if b then branchIf false k s else branchIndex k s) = .next (if b then s else branchCounted k s) := by
  cases b
  · exact branchIndex_clear he k
  · exact branchIf_clear he false k

/-! The conditions. -/

/-- BNO and BNC branch with their indicator clear (R162, R163). -/
theorem branchIf_not {s : State} (he : s.exitCond = false) (b : Bool) (k : BitVec 9) :
    branchIf (!b) k s = .next (if b then s else branchTaken k s) := by
  cases b <;> exact branchIf_clear he _ k

theorem branchIf_beq_zero {s : State} (he : s.exitCond = false) (v : Word) (k : BitVec 9) :
    branchIf (v == 0) k s = .next (if v = 0 then branchTaken k s else s) := by
  simp only [branchIf_clear he, beq_iff_eq]

/-- BEN and BAN branch on the sign of their register (R168, R169). -/
theorem branchIf_sign {s : State} (he : s.exitCond = false) (v : Word) (k : BitVec 9) :
    branchIf (bitAt v 0) k s = .next (if v.toInt < 0 then branchTaken k s else s) := by
  simp only [branchIf_clear he, bitAt_sign, decide_eq_true_eq]

/-- Settles O23: each branch is one of the two shared meanings under its own condition. -/
theorem conditionalBranches : Obligations.ConditionalBranches := by
  intro k s he
  refine ⟨?bno, ?bnc, ?baz, ?ben, ?ban, ?bix, ?bxno, ?bxnc⟩
  case bno => exact branchIf_not he s.ind.o k
  case bnc => exact branchIf_not he s.ind.c k
  case baz => exact branchIf_beq_zero he s.regs.a k
  case ben => exact branchIf_sign he s.regs.e k
  case ban => exact branchIf_sign he s.regs.a k
  case bix => exact branchIndex_clear he k
  case bxno => exact branchIndex_unless_clear he s.ind.o k
  case bxnc => exact branchIndex_unless_clear he s.ind.c k

end Sys2Proof.Machine
end

section
/-! The copy instruction (R182 to R204): its result and its flags by operation, the fifteen mnemonics, the worked examples. -/

namespace Sys2Proof.Machine

/-! The copy operation in words. -/

/-- The word a copy forms from its two operands, before the increment (R182 step 3). -/
def copyResult (op : CopyOp) (d v : Word) : Word :=
  match op with
  | .and => d &&& v
  | .or => d ||| v
  | .xor => d ^^^ v
  | .add => d + v

/-- The sum cut to 16 bits is the operation on words with the increment added modulo 2^16 (R182 step 3). -/
theorem copySum_word (op : CopyOp) (d v : Word) (inc : Nat) :
    BitVec.ofNat 16 (copySum op d v inc) = copyResult op d v + BitVec.ofNat 16 inc := by
  cases op <;> simp [copySum, copyResult, BitVec.ofNat_add]

/-- A logical copy writes its destination (R182 step 4). -/
theorem copyOp_logical {op : CopyOp} (hop : op ≠ .add) (ac ai cd : Bool) (c : CopyArgs) (s : State) :
    copyOp op ac ai cd c s =
      s.setReg c.dst (copyResult op (copyDest cd c s) (copySource c s) + BitVec.ofNat 16 (copyIncrement ac ai s)) := by
  rw [← copySum_word]
  cases op with
  | and | or | xor => rfl
  | add => exact absurd rfl hop

theorem copyIncrement_le_one (ac ai : Bool) (s : State) : copyIncrement ac ai s ≤ 1 := by
  rw [copyIncrement_eq]
  split
  · exact le_refl 1
  · split <;> omega

/-- An adding copy writes its destination, and O and C as ranges of the true sum with the increment in it (R186). -/
theorem copyOp_add (ac ai cd : Bool) (c : CopyArgs) (s : State) :
    copyOp .add ac ai cd c s =
      (s.setReg c.dst
        (BitVec.ofNat 16 ((copyDest cd c s).toNat + (copySource c s).toNat + copyIncrement ac ai s))).setOC
        (outOfRange ((copyDest cd c s).toInt + (copySource c s).toInt + copyIncrement ac ai s))
        (decide (65536 ≤ (copyDest cd c s).toNat + (copySource c s).toNat + copyIncrement ac ai s)) := by
  rw [← addOverflow_eq _ _ _ (copyIncrement_le_one ac ai s)]
  rfl

/-! What a copy writes. -/

theorem writesOnly_setReg (s : State) (r : Reg) (v : Word) : WritesOnly (.next (s.setReg r v)) s r v :=
  ⟨s.setReg r v, rfl, regWritten_setReg s r v, s.setReg_eq r v⟩

theorem writesWithFlags_setReg_setOC (s : State) (r : Reg) (v : Word) (o c : Bool) :
    WritesWithFlags (.next ((s.setReg r v).setOC o c)) s r v o c :=
  ⟨(s.setReg r v).setOC o c, rfl, fun q => (State.getReg_setOC ..).trans (s.getReg_setReg r q v),
    congrArg (State.setOC · o c) (s.setReg_eq r v)⟩

/-- The copy instruction with a logical operation: O and C are not written (R182 step 5). -/
theorem writesOnly_copy {s : State} (he : s.exitCond = false) {op : CopyOp} (hop : op ≠ .add) (ac ai cd : Bool) (c : CopyArgs) :
    WritesOnly (unlessExit s (.next (copyOp op ac ai cd c s))) s c.dst
      (copyResult op (copyDest cd c s) (copySource c s) + BitVec.ofNat 16 (copyIncrement ac ai s)) := by
  rw [unlessExit_clear he, copyOp_logical hop]
  exact writesOnly_setReg s c.dst _

/-- The copy instruction with the add: O and C are written whatever the destination (R186). -/
theorem writesWithFlags_copy {s : State} (he : s.exitCond = false) (ac ai cd : Bool) (c : CopyArgs) :
    WritesWithFlags (unlessExit s (.next (copyOp .add ac ai cd c s))) s c.dst
      (BitVec.ofNat 16 ((copyDest cd c s).toNat + (copySource c s).toNat + copyIncrement ac ai s))
      (outOfRange ((copyDest cd c s).toInt + (copySource c s).toInt + copyIncrement ac ai s))
      (decide (65536 ≤ (copyDest cd c s).toNat + (copySource c s).toNat + copyIncrement ac ai s)) := by
  rw [unlessExit_clear he, copyOp_add]
  exact writesWithFlags_setReg_setOC s c.dst _ _ _

/-- Settles O26: the three logical operations write the destination, the add writes O and C as well. -/
theorem generalCopy : Obligations.GeneralCopy := by
  intro op ac ai cd c s he
  simp only [← copySource_eq, ← copyIncrement_eq]
  cases op with
  | and => exact writesOnly_copy he (op := .and) nofun ac ai cd c
  | or => exact writesOnly_copy he (op := .or) nofun ac ai cd c
  | xor => exact writesOnly_copy he (op := .xor) nofun ac ai cd c
  | add => exact writesWithFlags_copy he ac ai cd c

/-! The fifteen mnemonics: no increment, AI, AC. -/

theorem writesOnly_copy_plain {s : State} (he : s.exitCond = false) {op : CopyOp} (hop : op ≠ .add) (cd : Bool) (c : CopyArgs) :
    WritesOnly (unlessExit s (.next (copyOp op false false cd c s))) s c.dst
      (copyResult op (copyDest cd c s) (copySource c s)) := by
  simpa [copyIncrement] using writesOnly_copy he hop false false cd c

theorem writesOnly_copy_increment {s : State} (he : s.exitCond = false) {op : CopyOp} (hop : op ≠ .add) (cd : Bool)
    (c : CopyArgs) :
    WritesOnly (unlessExit s (.next (copyOp op false true cd c s))) s c.dst
      (copyResult op (copyDest cd c s) (copySource c s) + 1) :=
  writesOnly_copy he hop false true cd c

theorem carry_word (b : Bool) : BitVec.ofNat 16 b.toNat = if b then 1 else 0 := by
  cases b <;> rfl

theorem writesOnly_copy_carry {s : State} (he : s.exitCond = false) {op : CopyOp} (hop : op ≠ .add) (cd : Bool) (c : CopyArgs) :
    WritesOnly (unlessExit s (.next (copyOp op true false cd c s))) s c.dst
      (copyResult op (copyDest cd c s) (copySource c s) + if s.ind.c then 1 else 0) := by
  rw [← carry_word]
  exact writesOnly_copy he hop true false cd c

/-- The OR with a cleared destination is the source operand itself: what makes RCPY a copy (R187). -/
theorem copyResult_or_cleared (c : CopyArgs) (s : State) : copyResult .or (copyDest true c s) (copySource c s) = copySource c s :=
  BitVec.zero_or

/-- Settles O24: each of the twelve is a logical copy with its own operation, increment and clearing of the destination. -/
theorem logicalCopies : Obligations.LogicalCopies := by
  intro c s he
  have hor : CopyOp.or ≠ .add := nofun
  have hxor : CopyOp.xor ≠ .add := nofun
  have hand : CopyOp.and ≠ .add := nofun
  simp only [← copySource_eq]
  refine ⟨?rcpy, ?ror, ?reor, ?rand, ?rcpyi, ?rori, ?reori, ?randi, ?rcpyc, ?rorc, ?reorc, ?randc⟩
  case rcpy => exact copyResult_or_cleared c s ▸ writesOnly_copy_plain he hor true c
  case ror => exact writesOnly_copy_plain he hor false c
  case reor => exact writesOnly_copy_plain he hxor false c
  case rand => exact writesOnly_copy_plain he hand false c
  case rcpyi => exact copyResult_or_cleared c s ▸ writesOnly_copy_increment he hor true c
  case rori => exact writesOnly_copy_increment he hor false c
  case reori => exact writesOnly_copy_increment he hxor false c
  case randi => exact writesOnly_copy_increment he hand false c
  case rcpyc => exact copyResult_or_cleared c s ▸ writesOnly_copy_carry he hor true c
  case rorc => exact writesOnly_copy_carry he hor false c
  case reorc => exact writesOnly_copy_carry he hxor false c
  case randc => exact writesOnly_copy_carry he hand false c

/-- Settles O25: RADD, RADDI and RADDC are the add with no increment, with AI and with AC. -/
theorem addingCopies : Obligations.AddingCopies := by
  intro c s he
  simp only [← copySource_eq]
  exact ⟨writesWithFlags_copy he false false false c, writesWithFlags_copy he false true false c,
    writesWithFlags_copy he true false false c⟩

/-! The worked examples. -/

theorem toInt_complement (v : Word) : (~~~ v).toInt = - v.toInt - 1 := by
  simp only [toInt_cases, BitVec.toNat_not]
  have := v.isLt
  split <;> split <;> omega

/-- Adding the one's complement and 1 subtracts, with the carry of SUB (R186). -/
theorem copyOp_subtract (cd : Bool) (dst src : Reg) (s : State) :
    copyOp .add false true cd ⟨dst, true, src⟩ s =
      (s.setReg dst (copyDest cd ⟨dst, true, src⟩ s - s.getReg src)).setOC
        (outOfRange ((copyDest cd ⟨dst, true, src⟩ s).toInt - (s.getReg src).toInt))
        (decide ((s.getReg src).toNat ≤ (copyDest cd ⟨dst, true, src⟩ s).toNat)) := by
  have hsrc : copySource ⟨dst, true, src⟩ s = ~~~ s.getReg src := rfl
  have hinc : copyIncrement false true s = 1 := rfl
  generalize hd : copyDest cd ⟨dst, true, src⟩ s = d
  generalize s.getReg src = v at hsrc
  rw [copyOp_add, hd, hsrc, hinc, toInt_complement, BitVec.toNat_not]
  have hv := v.isLt
  congr 1
  · congr 1
    bv_omega
  · congr 1
    omega
  · rw [decide_eq_decide]
    omega

theorem outOfRange_neg (v : Word) : outOfRange (0 - v.toInt) = (v == 0x8000) := by
  rw [outOfRange, toInt_cases, Bool.eq_iff_iff]
  simp only [Bool.or_eq_true, decide_eq_true_eq, beq_iff_eq]
  split <;> bv_omega

theorem outOfRange_pred (v : Word) : outOfRange (v.toInt - 1) = (v == 0x8000) := by
  rw [outOfRange, toInt_cases, Bool.eq_iff_iff]
  simp only [Bool.or_eq_true, decide_eq_true_eq, beq_iff_eq]
  split <;> bv_omega

/-- RCPY of an operand from a register (R187). -/
theorem exec_rcpy_clear {s : State} (he : s.exitCond = false) (c : CopyArgs) :
    exec (.rcpy c) s = .next (s.setReg c.dst (copySource c s)) := by
  rw [exec, execRcpy, unlessExit_clear he, copyOp_logical (op := .or) nofun, copyResult_or_cleared]
  exact congrArg (fun v => Host.Outcome.next (s.setReg c.dst v)) (BitVec.add_zero _)

/-- RCPYI of an operand from a register (R192). -/
theorem exec_rcpyi_clear {s : State} (he : s.exitCond = false) (c : CopyArgs) :
    exec (.rcpyi c) s = .next (s.setReg c.dst (copySource c s + 1)) := by
  rw [exec, execRcpyi, unlessExit_clear he, copyOp_logical (op := .or) nofun, copyResult_or_cleared]
  rfl

/-- Subtracting a register from a cleared destination negates it; the carry is there only from 0 (R186). -/
theorem copyOp_negate (s : State) :
    copyOp .add false true true ⟨.a, true, .a⟩ s =
      (s.setReg .a (- s.regs.a)).setOC (s.regs.a == 0x8000) (s.regs.a == 0) := by
  have hdst : copyDest true ⟨.a, true, .a⟩ s = 0 := rfl
  have hsrc : s.getReg .a = s.regs.a := rfl
  have hcarry : decide (s.regs.a.toNat ≤ (0 : Word).toNat) = (s.regs.a == 0) := by
    rw [Bool.eq_iff_iff, decide_eq_true_iff, beq_iff_eq]
    bv_omega
  rw [copyOp_subtract, hdst, hsrc, hcarry, ← outOfRange_neg]
  exact congrArg (fun v => (s.setReg .a v).setOC _ _) (BitVec.zero_sub _)

/-- Adding the one's complement of register 0 counts down; the carry is there unless the register held 0 (R186). -/
theorem copyOp_decrement (s : State) :
    copyOp .add false false false ⟨.a, true, .z⟩ s =
      (s.setReg .a (s.regs.a - 1)).setOC (s.regs.a == 0x8000) (s.regs.a != 0) := by
  have hdst : copyDest false ⟨.a, true, .z⟩ s = s.regs.a := rfl
  have hsrc : copySource ⟨.a, true, .z⟩ s = 0xFFFF := (by decide : ~~~ (0 : Word) = 0xFFFF)
  have hinc : copyIncrement false false s = 0 := rfl
  have hresult : BitVec.ofNat 16 (s.regs.a.toNat + (0xFFFF : Word).toNat + 0) = s.regs.a - 1 := by
    bv_omega
  have hcarry : decide (65536 ≤ s.regs.a.toNat + (0xFFFF : Word).toNat + 0) = (s.regs.a != 0) := by
    rw [Bool.eq_iff_iff, decide_eq_true_iff, bne_iff_ne]
    bv_omega
  have hsum : s.regs.a.toInt + (0xFFFF : Word).toInt + (0 : Nat) = s.regs.a.toInt - 1 := by
    rw [show (0xFFFF : Word).toInt = -1 by decide]
    omega
  rw [copyOp_add, hdst, hsrc, hinc, hresult, hcarry, hsum, outOfRange_pred]

/-- Settles O27: each word decoded, then the copy it stands for. -/
theorem copyWorkedExamples : Obligations.CopyWorkedExamples := by
  intro s he
  refine ⟨?clear, ?invert, ?negate, ?decrement, ?subtract, ?link⟩
  case clear =>
    rw [show decode 0x74F0 = .rcpy ⟨.a, false, .z⟩ by decide, exec_rcpy_clear he]
    rfl
  case invert =>
    rw [show decode 0x74FF = .rcpy ⟨.a, true, .a⟩ by decide, exec_rcpy_clear he]
    rfl
  case negate =>
    rw [show decode 0x7DFF = .copy .add false true true ⟨.a, true, .a⟩ by decide, exec, execCopy, unlessExit_clear he,
      copyOp_negate]
    rfl
  case decrement =>
    rw [show decode 0x7C78 = .radd ⟨.a, true, .z⟩ by decide, exec, execRadd, unlessExit_clear he, copyOp_decrement]
    rfl
  case subtract =>
    rw [show decode 0x7D7B = .raddi ⟨.a, true, .t⟩ by decide, exec, execRaddi, unlessExit_clear he, copyOp_subtract]
    rfl
  case link =>
    intro hp
    have hsrc : copySource ⟨.l, false, .p⟩ s + 1 = s.h + 2 := by
      rw [show copySource ⟨.l, false, .p⟩ s = s.h + 1 from hp]
      bv_omega
    rw [show decode 0x75A1 = .rcpyi ⟨.l, false, .p⟩ by decide, exec_rcpyi_clear he, hsrc]
    rfl

end Sys2Proof.Machine
end

section
/-! READ DIRECT and WRITE DIRECT (R211 to R249): which function an effective address selects, then what each function does. -/

namespace Sys2Proof.Machine

/-! The internal functions other than the register block (R214, R224), and the addresses that select nothing (R213, R221, R222, R234,
R244, R245). -/

/-- The effective address of a function that names inhibits: the code of bits 8 to 11, and bits 12 and 13 (R219, R232, R233). -/
def inhibitAddress (set i e : Bool) : Nat := (if set then 0xF0 else 0xE0) + 8 * i.toNat + 4 * e.toNat

theorem direct_inhibit {ea : Word} {set i e : Bool} (h : ea.toNat = inhibitAddress set i e) :
    readFunction ea = .saveAndInhibit set i e ∧ writeFunction ea = .inhibit set i e := by
  obtain rfl : ea = BitVec.ofNat 16 (inhibitAddress set i e) := by rw [← h, BitVec.ofNat_toNat, BitVec.setWidth_eq]
  clear h
  revert set i e
  decide

/-- The fields that tell the functions with an inhibit mask from the unassigned ones. -/
theorem field_mask {ea : Word} (h : ea.toNat < 256) : field ea 8 11 = ea.toNat / 16 ∧ field ea 14 15 = ea.toNat % 4 := by
  simp only [field]
  omega

theorem readFunction_unassigned {ea : Word}
    (h : ea.toNat = 0x40 ∨ ea.toNat = 0x43 ∨ 0x45 ≤ ea.toNat ∧ ea.toNat ≤ 0x47 ∨ 0x49 ≤ ea.toNat ∧ ea.toNat ≤ 0x4F ∨
      0x51 ≤ ea.toNat ∧ ea.toNat ≤ 0x7F ∨ 0x81 ≤ ea.toNat ∧ ea.toNat ≤ 0xBF ∨ 0xC1 ≤ ea.toNat ∧ ea.toNat ≤ 0xDF ∨
      0xE0 ≤ ea.toNat ∧ ea.toNat ≤ 0xFF ∧ ea.toNat % 4 ≠ 0) :
    readFunction ea = .undefined .readFunctionUnassigned := by
  have hlow : ea.toNat < 256 := by omega
  obtain ⟨hmode, hzero, hf⟩ := field_low hlow
  obtain ⟨hcode, hmask⟩ := field_mask hlow
  rw [readFunction, if_pos hmode, if_pos hzero]
  simp only [readInternal, hf, hcode, hmask]
  iterate 10 rw [if_neg (by omega)]

theorem writeFunction_unassigned {ea : Word}
    (h : 0x90 ≤ ea.toNat ∧ ea.toNat ≤ 0xBF ∨ 0xC1 ≤ ea.toNat ∧ ea.toNat ≤ 0xCF ∨ 0xD1 ≤ ea.toNat ∧ ea.toNat ≤ 0xD7 ∨
      0xD9 ≤ ea.toNat ∧ ea.toNat ≤ 0xDF ∨ 0xE0 ≤ ea.toNat ∧ ea.toNat ≤ 0xFF ∧ ea.toNat % 4 ≠ 0) :
    writeFunction ea = .undefined .writeFunctionUnassigned := by
  have hlow : ea.toNat < 256 := by omega
  obtain ⟨hmode, hzero, hf⟩ := field_low hlow
  obtain ⟨hcode, hmask⟩ := field_mask hlow
  rw [writeFunction, if_pos hmode, if_pos hzero]
  simp only [writeInternal, hf, hcode, hmask]
  iterate 8 rw [if_neg (by omega)]

/-- Bits 4 to 7 of an address in the internal mode (R213). -/
theorem direct_internalBits {ea : Word} (h : 0x100 ≤ ea.toNat) (h' : ea.toNat < 0x1000) :
    readFunction ea = .undefined .internalBitsNotZero ∧ writeFunction ea = .undefined .internalBitsNotZero := by
  have hmode : field ea 0 3 = 0 := by simp only [field]; omega
  have hbits : field ea 4 7 ≠ 0 := by simp only [field]; omega
  simp only [readFunction, writeFunction, if_pos hmode, if_neg hbits, and_self]

theorem field_controlMode {ea : Word} (h : 0x1000 ≤ ea.toNat) (h' : ea.toNat < 0x2000) : field ea 0 3 = 1 := by
  simp only [field]
  omega

theorem readFunction_control {ea : Word} (h : 0x1000 ≤ ea.toNat) (h' : ea.toNat < 0x2000) :
    readFunction ea = .undefined .readInterruptControl := by
  have hmode := field_controlMode h h'
  simp [readFunction, hmode]

theorem writeFunction_controlMode {ea : Word} (h : 0x1000 ≤ ea.toNat) (h' : ea.toNat < 0x2000) : writeFunction ea = writeControl ea := by
  have hmode := field_controlMode h h'
  simp [writeFunction, hmode]

theorem bitAt_four (ea : Word) : bitAt ea 4 = decide (0x800 ≤ ea.toNat % 0x1000) := by
  have hbit : bitAt ea 4 = ea.toNat.testBit 11 := rfl
  rw [hbit, Nat.testBit_eq_decide_div_mod_eq, decide_eq_decide]
  omega

theorem writeControl_codeZero {ea : Word} (h : 0x1000 ≤ ea.toNat) (h' : ea.toNat < 0x1010) :
    writeControl ea = .undefined .controlCodeUndefined := by
  have hbit : bitAt ea 4 = false := by rw [bitAt_four, decide_eq_false_iff_not]; omega
  have hbits : field ea 8 11 = 0 := by simp only [field]; omega
  have hcode : field ea 5 7 = 0 := by simp only [field]; omega
  simp [writeControl, hbit, hbits, hcode, levelOpOf]

theorem writeControl_bits {ea : Word} (h : 0x800 ≤ ea.toNat % 0x1000 ∨ 0x10 ≤ ea.toNat % 0x100) :
    writeControl ea = .undefined .controlBitsNotZero := by
  refine if_pos (h.imp (fun hb => ?_) fun hb => ?_)
  · rw [bitAt_four, decide_eq_true hb]
  · simp only [field]
    omega

/-- An address without a function is refused under some name (R213, R234, R244, R245). -/
theorem writeFunction_of_writeUnassigned {ea : Word} (h : WriteUnassigned ea.toNat) : ∃ r, writeFunction ea = .undefined r := by
  by_cases hlow : ea.toNat < 0x100
  · exact ⟨_, writeFunction_unassigned (by unfold WriteUnassigned at h; omega)⟩
  by_cases hint : ea.toNat < 0x1000
  · exact ⟨_, (direct_internalBits (by omega) hint).2⟩
  have hmode : ea.toNat < 0x2000 := by unfold WriteUnassigned at h; omega
  rw [writeFunction_controlMode (by omega) hmode]
  by_cases hcode : ea.toNat < 0x1010
  · exact ⟨_, writeControl_codeZero (by omega) hcode⟩
  · exact ⟨_, writeControl_bits (by unfold WriteUnassigned at h; omega)⟩

/-! An allowed READ DIRECT or WRITE DIRECT of each function. -/

section Allowed

variable {m : MemRef} {s : State} {ea : Word}

theorem exec_rd_undefined (h : Addresses m s ea) (hc : s.MayControl) {r : Refusal} (hf : readFunction ea = .undefined r) :
    exec (.rd m) s = .refused r := by
  rw [exec_rd_allowed h hc, readDirect, hf]

theorem exec_rd_direct (h : Addresses m s ea) (hc : s.MayControl) (he : 0x2000 ≤ ea.toNat) : exec (.rd m) s = directRead ea s := by
  rw [exec_rd_allowed h hc, readDirect, (direct_external he).1]

theorem exec_rd_inhibit (h : Addresses m s ea) (hc : s.MayControl) {set i e : Bool} (he : ea.toNat = inhibitAddress set i e) :
    exec (.rd m) s = .next (State.setInhibits { s with regs.a := statusValue s.ind } set i e) := by
  rw [exec_rd_allowed h hc, readDirect, (direct_inhibit he).1, statusWord_eq]
  rfl

theorem exec_wd_undefined (h : Addresses m s ea) (hc : s.MayControl) {r : Refusal} (hf : writeFunction ea = .undefined r) :
    exec (.wd m) s = unassignedWrite ea r s := by
  rw [exec_wd_allowed h hc, writeDirect, hf]

/-- A function that is none, where no Watchdog Timer responds (R221, D7). -/
theorem exec_wd_refused (h : Addresses m s ea) (hc : s.MayControl) {r : Refusal} (hf : writeFunction ea = .undefined r)
    (hw : watchdogOp s.cfg ea = none) : exec (.wd m) s = .refused r := by
  rw [exec_wd_undefined h hc hf, unassignedWrite, hw]

theorem exec_wd_direct (h : Addresses m s ea) (hc : s.MayControl) (he : 0x2000 ≤ ea.toNat) : exec (.wd m) s = directWrite ea s := by
  rw [exec_wd_allowed h hc, writeDirect, (direct_external he).2]

theorem exec_wd_inhibit (h : Addresses m s ea) (hc : s.MayControl) {set i e : Bool} (he : ea.toNat = inhibitAddress set i e) :
    exec (.wd m) s = .next (s.setInhibits set i e) := by
  rw [exec_wd_allowed h hc, writeDirect, (direct_inhibit he).2]

end Allowed

/-- Settles O39: each range selects no function, or the direct function without the feature it needs. -/
theorem undefinedDirectFunctions : Obligations.UndefinedDirectFunctions := by
  intro m s ea h hc
  refine ⟨?rdInternal, ?rdControl, ?rdUnassigned, fun hw => ⟨?wdInternal, ?wdUnassigned, ?wdCode, ?wdBits⟩, ?external⟩
  case rdInternal => exact fun lo hi => exec_rd_undefined h hc (direct_internalBits lo hi).1
  case rdControl => exact fun lo hi => exec_rd_undefined h hc (readFunction_control lo hi)
  case rdUnassigned => exact fun he => exec_rd_undefined h hc (readFunction_unassigned he)
  case wdInternal => exact fun lo hi => exec_wd_refused h hc (direct_internalBits lo hi).2 hw
  case wdUnassigned => exact fun he => exec_wd_refused h hc (writeFunction_unassigned he) hw
  case wdCode =>
    intro lo hi
    exact exec_wd_refused h hc ((writeFunction_controlMode lo (by omega)).trans (writeControl_codeZero lo hi)) hw
  case wdBits =>
    intro lo hi he
    exact exec_wd_refused h hc ((writeFunction_controlMode lo hi).trans (writeControl_bits he)) hw
  case external =>
    intro he hd
    rw [exec_rd_direct h hc he, exec_wd_direct h hc he]
    simp [directRead, directWrite, hd]

/-! The status word, the inhibits, the DATA switches (R218 to R220, R229, R232, R233). -/

theorem setInhibits_reset (s : State) (i e : Bool) :
    s.setInhibits false i e = { s with ind.ii := s.ind.ii && !i, ind.ei := s.ind.ei && !e } := by
  cases i <;> cases e <;> simp [State.setInhibits]

theorem setInhibits_set (s : State) (i e : Bool) :
    s.setInhibits true i e = { s with ind.ii := s.ind.ii || i, ind.ei := s.ind.ei || e } := by
  cases i <;> cases e <;> simp [State.setInhibits]

/-- Settles O30: each of the four functions by its address. -/
theorem readStatusAndSwitches : Obligations.ReadStatusAndSwitches := by
  intro m s ea h hc
  refine ⟨?switches, ?status, fun i e => ⟨?reset, ?set⟩⟩
  case switches =>
    rintro rfl
    rw [exec_rd_allowed h hc, readDirect, show readFunction 0x80 = .dataSwitches by decide]
    rfl
  case status =>
    rintro rfl
    rw [exec_rd_allowed h hc, readDirect, show readFunction 0xC0 = .saveStatus by decide, ← statusWord_eq]
    rfl
  case reset =>
    intro he
    rw [exec_rd_inhibit h hc (set := false) he, setInhibits_reset]
  case set =>
    intro he
    rw [exec_rd_inhibit h hc (set := true) he, setInhibits_set]

/-- Settles O33: each of the three functions by its address. -/
theorem loadStatusAndInhibits : Obligations.LoadStatusAndInhibits := by
  intro m s ea h hc
  refine ⟨?status, fun i e => ⟨?reset, ?set⟩⟩
  case status =>
    rintro rfl
    rw [exec_wd_allowed h hc, writeDirect, show writeFunction 0xC0 = .loadStatus by decide]
    rfl
  case reset =>
    intro he
    rw [exec_wd_inhibit h hc (set := false) he, setInhibits_reset]
  case set =>
    intro he
    rw [exec_wd_inhibit h hc (set := true) he, setInhibits_set]

/-! The wait flip-flop and the exit condition (R230, R231). -/

/-- The exit condition holds off the whole of part A (R345). -/
theorem recognition_of_exitCond {s : State} (h : s.exitCond = true) : recognition s = s := by
  simp [recognition, h]

/-- Settles O34: the two functions by their addresses, then the test of the exit condition in part A. -/
theorem waitAndExitCondition : Obligations.WaitAndExitCondition := by
  refine ⟨fun m s ea h hc => ⟨?wait, ?exit⟩, fun s => recognition_of_exitCond⟩
  case wait =>
    rintro rfl
    rw [exec_wd_allowed h hc, writeDirect, show writeFunction 0xD0 = .wait by decide]
  case exit =>
    rintro rfl
    rw [exec_wd_allowed h hc, writeDirect, show writeFunction 0xD8 = .exit by decide]

/-! Protection registers (R37, R228). -/

theorem State.setProtection_installed {s : State} (h : s.cfg.protect = true) (r : Fin 16) (v : Word) :
    s.setProtection r.val v = { s with prot := s.prot.set r.val v r.isLt } := by
  have hr : Fin.ofNat 16 r.val = r := Fin.ofNat_val_eq_self r
  simp only [State.setProtection, if_pos h, hr]

theorem State.setProtection_absent {s : State} (h : s.cfg.protect = false) (n : Nat) (v : Word) : s.setProtection n v = s := by
  simp [State.setProtection, h]

/-- The protection bit of an address is that of its page, in the register of its sixteen pages (R37). -/
theorem State.protBit_eq {s : State} (h : s.cfg.protect = true) (a : Word) :
    s.protBit a = (s.prot[a.toNat / 4096]'(by have := a.isLt; omega)).getMsbD (a.toNat / 256 % 16) := by
  have hreg : (Fin.ofNat 16 (field a 0 3)).val = a.toNat / 4096 := by simp only [field, Fin.val_ofNat]; omega
  have hpage : field a 4 7 = a.toNat / 256 % 16 := rfl
  simp only [State.protBit, h, Bool.true_and, bitAt, Vector.get_eq_getElem, hreg, hpage]

/-- Settles O32: the register named is loaded, and each address looks its page up in its own register. -/
theorem loadProtectionRegister : Obligations.LoadProtectionRegister := by
  intro m s ea r h hc he
  have hexec : exec (.wd m) s = .next (s.setProtection r.val s.regs.a) := by
    have hn : ea.toNat - 128 = r.val := by omega
    rw [exec_wd_allowed h hc, writeDirect, writeFunction_protection (by omega) (by omega), hn]
  refine ⟨fun hp => ⟨?load, fun a => ?bits⟩, fun hp => ?absent⟩
  case load => rw [hexec, State.setProtection_installed hp]
  case bits =>
    rw [State.protBit_eq (s := { s with prot := s.prot.set r.val s.regs.a r.isLt }) hp, State.protBit_eq hp,
      Vector.getElem_set]
    simp only [eq_comm (a := r.val)]
    split <;> rfl
  case absent => rw [hexec, State.setProtection_absent hp]

end Sys2Proof.Machine
end

section
/-! The register block under READ DIRECT and WRITE DIRECT (R215, R216, R225 to R227, R414). -/

namespace Sys2Proof.Machine

/-! A register of the block by its number. -/

theorem regOfNat_encodeReg (r : Reg) : regOfNat (encodeReg r).toNat = r := by
  cases r <;> rfl

theorem encodeReg_lt (r : Reg) : (encodeReg r).toNat < 8 := (encodeReg r).isLt

theorem State.getBlock_general (s : State) (r : Reg) : s.getBlock (encodeReg r).toNat = some (s.getReg r) := by
  rw [State.getBlock, if_pos (encodeReg_lt r), regOfNat_encodeReg]

theorem State.setBlock_general (s : State) (r : Reg) (v : Word) : s.setBlock (encodeReg r).toNat v = s.setReg r v := by
  rw [State.setBlock, if_pos (encodeReg_lt r), regOfNat_encodeReg]

theorem State.getBlock_channel {s : State} {k : Fin 40} (hk : k.val < 2 * s.cfg.channels) :
    s.getBlock (8 + k.val) = some (s.chan.get k) := by
  have hreg : hasChannelReg s.cfg (8 + k.val) = true := (hasChannelReg_iff _ _).2 (by omega)
  rw [State.getBlock, if_neg (by omega), if_pos hreg, State.getChannel, channelIndex rfl]

theorem State.setBlock_channel {s : State} {k : Fin 40} (hk : k.val < 2 * s.cfg.channels) (v : Word) :
    s.setBlock (8 + k.val) v = { s with chan := s.chan.set k.val v k.isLt } := by
  rw [State.setBlock, if_neg (by omega), State.setChannel_installed s v rfl hk]

theorem State.getBlock_none {s : State} {n : Nat} (h : 8 + 2 * s.cfg.channels ≤ n) : s.getBlock n = none := by
  have hreg : ¬ hasChannelReg s.cfg n = true := fun hr => by
    have := (hasChannelReg_iff _ _).1 hr
    omega
  rw [State.getBlock, if_neg (by omega), if_neg hreg]

/-! The channel that owns a register (R414). -/

theorem State.channelRegBusy_iff {s : State} {n : Nat} :
    s.channelRegBusy n = true ↔
      8 ≤ n ∧ ∃ d ∈ s.devices, d.condition = .busy ∧ channelOf s.cfg d.number = some ((n - 8) / 2) := by
  have hreg : ∀ ch, (n = evenReg ch ∨ n = oddReg ch) ↔ 8 ≤ n ∧ ch = (n - 8) / 2 := fun ch => by
    simp only [evenReg, oddReg]
    omega
  simp only [State.channelRegBusy, List.any_eq_true, Bool.and_eq_true, beq_iff_eq, Option.any_eq_true, Bool.or_eq_true, hreg]
  constructor
  · rintro ⟨d, hd, hb, ch, hch, hn, rfl⟩
    exact ⟨hn, d, hd, hb, hch⟩
  · rintro ⟨hn, d, hd, hb, hch⟩
    exact ⟨d, hd, hb, _, hch, hn, rfl⟩

/-- The registers of channels an installation lacks belong to no device. -/
theorem State.channelRegBusy_beyond {s : State} {n : Nat} (h : 8 + 2 * s.cfg.channels ≤ n) : s.channelRegBusy n = false := by
  rw [Bool.eq_false_iff, Ne, State.channelRegBusy_iff]
  rintro ⟨-, d, -, -, hch⟩
  have := channelOf_some hch
  omega

theorem State.channelRegBusy_general (s : State) (r : Reg) : s.channelRegBusy (encodeReg r).toNat = false := by
  rw [Bool.eq_false_iff, Ne, State.channelRegBusy_iff]
  rintro ⟨hn, -⟩
  have := encodeReg_lt r
  omega

/-! An allowed READ DIRECT or WRITE DIRECT of the register block. -/

section Allowed

variable {m : MemRef} {s : State} {ea : Word}

theorem exec_rd_block (h : Addresses m s ea) (hc : s.MayControl) (he : ea.toNat < 64) {v : Word}
    (hb : s.getBlock ea.toNat = some v) : exec (.rd m) s = .next { s with regs.a := v } := by
  rw [exec_rd_allowed h hc, readDirect, readFunction_register he]
  simp only [hb]
  rfl

theorem exec_rd_block_none (h : Addresses m s ea) (hc : s.MayControl) (he : ea.toNat < 64) (hb : s.getBlock ea.toNat = none) :
    exec (.rd m) s = .refused .noSuchRegister := by
  rw [exec_rd_allowed h hc, readDirect, readFunction_register he]
  simp only [hb]

theorem exec_wd_block (h : Addresses m s ea) (hc : s.MayControl) (he : ea.toNat < 64) :
    exec (.wd m) s =
      if s.channelRegBusy ea.toNat then .refused .channelRegisterBusy
      else if (s.getBlock ea.toNat).isSome then .next (s.setBlock ea.toNat s.regs.a)
      else .refused .noSuchRegister := by
  rw [exec_wd_allowed h hc, writeDirect, writeFunction_register he]

theorem exec_wd_testAndClear (h : Addresses m s ea) (hc : s.MayControl) {n : Nat} (hn : n < 64) (he : ea.toNat = 0x40 + n)
    {v : Word} (hb : s.getBlock n = some v) :
    exec (.wd m) s = .next ((s.setBlock n (v &&& 0x7FFF)).setOC v.msb s.ind.c) := by
  have hsub : ea.toNat - 64 = n := by omega
  rw [exec_wd_allowed h hc, writeDirect, writeFunction_testAndClear (by omega) (by omega), hsub]
  simp only [hb]
  rfl

theorem exec_wd_testAndClear_none (h : Addresses m s ea) (hc : s.MayControl) (he : 64 ≤ ea.toNat) (he' : ea.toNat < 128)
    (hb : s.getBlock (ea.toNat - 64) = none) : exec (.wd m) s = .refused .noSuchRegister := by
  rw [exec_wd_allowed h hc, writeDirect, writeFunction_testAndClear he he']
  simp only [hb]

end Allowed

theorem toNat_generalNumber (r : Reg) : ((encodeReg r).setWidth 16).toNat = (encodeReg r).toNat := by
  cases r <;> rfl

theorem toNat_testGeneral (r : Reg) : (0x40 + (encodeReg r).setWidth 16 : Word).toNat = 0x40 + (encodeReg r).toNat := by
  cases r <;> rfl

/-- Settles O29: a general register, an installed channel register, or neither. -/
theorem readRegisterBlock : Obligations.ReadRegisterBlock := by
  intro m s ea h hc _
  refine ⟨?general, ?channel, ?none⟩
  case general =>
    rintro r rfl
    have hr := toNat_generalNumber r
    have hlt := encodeReg_lt r
    exact exec_rd_block h hc (by omega) (hr ▸ s.getBlock_general r)
  case channel =>
    intro k he hk
    exact exec_rd_block h hc (by omega) (he ▸ State.getBlock_channel hk)
  case none =>
    intro lo hi
    exact exec_rd_block_none h hc hi (State.getBlock_none lo)

/-- Settles O31: both functions on a general register, on an installed channel register, and on neither; a write of a channel register
asks first whether a busy device owns it. -/
theorem writeRegisterBlock : Obligations.WriteRegisterBlock := by
  intro m s ea h hc _
  refine ⟨?general, ?channel, ?busy, ?none, ?testGeneral, ?testChannel, ?testNone⟩
  case general =>
    rintro r rfl
    have hr := toNat_generalNumber r
    have hlt := encodeReg_lt r
    rw [exec_wd_block h hc (by omega), hr, State.channelRegBusy_general, State.getBlock_general, State.setBlock_general]
    exact writesOnly_setReg s r _
  case channel =>
    intro k he hk hfree
    have hidle : ¬ s.channelRegBusy (8 + k.val) = true := fun hb => by
      obtain ⟨-, d, hd, hbusy, hown⟩ := State.channelRegBusy_iff.1 hb
      exact hfree d hd hbusy (by rw [hown, Nat.add_sub_cancel_left])
    rw [exec_wd_block h hc (by omega), he, if_neg hidle, State.getBlock_channel hk, State.setBlock_channel hk]
    rfl
  case busy =>
    intro k he d hd hbusy hown
    have hb : s.channelRegBusy (8 + k.val) = true :=
      State.channelRegBusy_iff.2 ⟨Nat.le_add_right 8 _, d, hd, hbusy, by rw [hown, Nat.add_sub_cancel_left]⟩
    rw [exec_wd_block h hc (by omega), he, if_pos hb]
  case none =>
    intro lo hi
    rw [exec_wd_block h hc hi, State.channelRegBusy_beyond lo, State.getBlock_none lo]
    rfl
  case testGeneral =>
    rintro r rfl
    have hlt := encodeReg_lt r
    rw [exec_wd_testAndClear h hc (by omega) (toNat_testGeneral r) (s.getBlock_general r), State.setBlock_general]
    exact writesWithFlags_setReg_setOC s r _ _ _
  case testChannel =>
    intro k he hk
    rw [exec_wd_testAndClear (n := 8 + k.val) h hc (by omega) (by omega) (State.getBlock_channel hk), State.setBlock_channel hk]
    rfl
  case testNone =>
    intro lo hi
    exact exec_wd_testAndClear_none h hc (by omega) hi (State.getBlock_none (by omega))

end Sys2Proof.Machine
end

section
/-! WRITE DIRECT in the interrupt control mode (R235 to R245): the levels the accumulator bits select, and what becomes of them. -/

namespace Sys2Proof.Machine

/-! Which level an accumulator bit selects (R236, R312). -/

/-- The dedicated location that accumulator bit `i` of group code 0 stands for (R236). -/
def groupZeroLocation (i : Fin 16) : Nat := if i.val < 4 then 0xFC + i.val else 0x100 + i.val

theorem levelLocation_groupZeroLevel (i : Fin 16) : ∀ l ∈ groupZeroLevel i, levelLocation l = groupZeroLocation i := by
  revert i
  decide

/-- The bits of group code 0 that select no level stand for the locations of two override levels (R236, R313). -/
theorem groupZeroLocation_of_none {i : Fin 16} (h : groupZeroLevel i = none) :
    groupZeroLocation i = levelLocation .multiply ∨ groupZeroLocation i = levelLocation .divide := by
  revert i
  decide

theorem groupZeroLevel_iff {i : Fin 16} {l : Level} :
    groupZeroLevel i = some l ↔ isOverride l = false ∧ levelLocation l = groupZeroLocation i := by
  constructor
  · intro h
    exact ⟨codedLevel_not_override (g := 0) h, levelLocation_groupZeroLevel i l h⟩
  · rintro ⟨ho, hl⟩
    cases hsel : groupZeroLevel i with
    | some k => rw [levelLocation_injective ((levelLocation_groupZeroLevel i k hsel).trans hl.symm)]
    | none =>
      rcases groupZeroLocation_of_none hsel with hm | hd
      · rw [levelLocation_injective (hl.trans hm)] at ho
        cases ho
      · rw [levelLocation_injective (hl.trans hd)] at ho
        cases ho

/-- The groups of external levels lie one after another from X'110' (R236, R312). -/
theorem externalLevel_iff {g : Nat} (h : 5 ≤ g) (h' : g ≤ 12) {i : Fin 16} {l : Level} :
    Level.external (Fin.ofNat 8 (g - 5)) i = l ↔ levelLocation l = 0x110 + 16 * (g - 5) + i.val := by
  have hloc : levelLocation (.external (Fin.ofNat 8 (g - 5)) i) = 0x110 + 16 * (g - 5) + i.val := by
    simp only [levelLocation, Fin.val_ofNat]
    omega
  constructor
  · rintro rfl
    exact hloc
  · exact fun hl => levelLocation_injective (hloc.trans hl.symm)

theorem codedLevel_iff {g : Nat} {i : Fin 16} {l : Level} :
    codedLevel g i = some l ↔
      isOverride l = false ∧
        (g = 0 ∧ levelLocation l = groupZeroLocation i ∨
          5 ≤ g ∧ g ≤ 12 ∧ levelLocation l = 0x110 + 16 * (g - 5) + i.val) := by
  by_cases hzero : g = 0
  · subst hzero
    simpa [codedLevel] using groupZeroLevel_iff
  by_cases hext : 5 ≤ g ∧ g ≤ 12
  · obtain ⟨lo, hi⟩ := hext
    have hcoded : codedLevel g i = some l ↔ levelLocation l = 0x110 + 16 * (g - 5) + i.val := by
      rw [codedLevel, if_neg hzero, if_pos ⟨lo, hi⟩, Option.some.injEq, externalLevel_iff lo hi]
    constructor
    · exact fun h => ⟨codedLevel_not_override h, .inr ⟨lo, hi, hcoded.1 h⟩⟩
    · rintro ⟨-, ⟨h, -⟩ | ⟨-, -, hl⟩⟩
      · exact absurd h hzero
      · exact hcoded.2 hl
  · rw [codedLevel, if_neg hzero, if_neg hext]
    simp only [reduceCtorEq, false_iff]
    rintro ⟨-, ⟨h, -⟩ | ⟨lo, hi, -⟩⟩
    · exact hzero h
    · exact hext ⟨lo, hi⟩

/-- Settles O35: a selected level is a coded one that is installed, and a coded one is known by its location. -/
theorem levelOfAccumulatorBit : Obligations.LevelOfAccumulatorBit := by
  intro c g i l
  rw [selectedLevel, Option.filter_eq_some_iff, codedLevel_iff]
  simp only [groupZeroLocation]
  tauto

/-! What an interrupt-control operation changes. -/

theorem exists_levelOpOf {code : Nat} (h : 1 ≤ code) (h' : code ≤ 7) : ∃ op, levelOpOf code = some op := by
  interval_cases code <;> exact ⟨_, rfl⟩

/-- A level that an accumulator bit selects changes by that bit (R237 to R243). -/
theorem level_controlGroup_selected {code : Nat} {op : LevelOp} (h : levelOpOf code = some op) {g : Nat} (a : Word) {s : State}
    {i : Fin 16} {l : Level} (hsel : selectedLevel s.cfg g i = some l) :
    (controlGroup op g a s).level l = levelUnder code (a.getMsbD i.val) (s.level l) := by
  rw [controlGroup, level_foldl_controlBit h g a s.cfg l _ s rfl (List.nodup_finRange 16)]
  cases hfind : (List.finRange 16).find? (fun i => selectedLevel s.cfg g i == some l) with
  | some j =>
    have hj : selectedLevel s.cfg g j = some l := by simpa using List.find?_some hfind
    rw [codedLevel_injective (selectedLevel_some hj).1 (selectedLevel_some hsel).1]
  | none =>
    rw [List.find?_eq_none] at hfind
    exact absurd (beq_iff_eq.2 hsel) (hfind i (List.mem_finRange i))

/-- A level that no accumulator bit selects stays (R236). -/
theorem level_controlGroup_other {code : Nat} {op : LevelOp} (h : levelOpOf code = some op) {g : Nat} (a : Word) {s : State}
    {l : Level} (hsel : ∀ i, selectedLevel s.cfg g i ≠ some l) : (controlGroup op g a s).level l = s.level l := by
  have hfind : (List.finRange 16).find? (fun i => selectedLevel s.cfg g i == some l) = none :=
    List.find?_eq_none.2 fun i _ hi => hsel i (beq_iff_eq.1 hi)
  rw [controlGroup, level_foldl_controlBit h g a s.cfg l _ s rfl (List.nodup_finRange 16), hfind]

/-- Settles O36: the function code gives the operation, and the operation on the group changes the flip-flops alone. -/
theorem interruptControl : Obligations.InterruptControl := by
  intro m s ea code g h hc h1 h7 hg he
  obtain ⟨op, hop⟩ := exists_levelOpOf h1 h7
  refine ⟨controlGroup op g s.regs.a s, ?runs, controlGroup_eq op g s.regs.a s, ?selected, ?others⟩
  case runs => rw [exec_wd_allowed h hc, writeDirect, writeFunction_control h7 hg he hop]
  case selected => exact fun i l hsel => level_controlGroup_selected hop s.regs.a hsel
  case others => exact fun l hsel => level_controlGroup_other hop s.regs.a hsel

end Sys2Proof.Machine
end

section
/-! The direct I/O interface and the Watchdog Timer (R246 to R248, R380): the three answers of a device, the instructions of the
timer, its signals. -/

namespace Sys2Proof.Machine

/-! The answers of an external device (R246). -/

theorem directRead_acknowledged {s : State} {ea d : Word} {o c : Bool} {rest : List DirectAnswer} (hd : s.cfg.directIo = true)
    (ha : s.env.answers = .acknowledge d o c :: rest) :
    directRead ea s = .next
      { s with regs.a := d, ind.o := o, ind.c := c, env.answers := rest, env.sent := .directRead ea :: s.env.sent } := by
  rw [directRead, if_pos hd]
  simp [ha, State.setReg, State.setOC, State.dropAnswer, State.send]

theorem directRead_unlisted {s : State} {ea : Word} (hd : s.cfg.directIo = true) (ha : s.env.answers = []) :
    directRead ea s = .next (s.send (.directRead ea)).freeAOC := by
  rw [directRead, if_pos hd]
  simp [ha]

theorem directRead_silent {s : State} {ea : Word} {rest : List DirectAnswer} (hd : s.cfg.directIo = true)
    (ha : s.env.answers = .silent :: rest) : directRead ea s = unacknowledged (s.send (.directRead ea)).dropAnswer := by
  rw [directRead, if_pos hd]
  simp [ha]

theorem directWrite_acknowledged {s : State} {ea d : Word} {o c : Bool} {rest : List DirectAnswer} (hd : s.cfg.directIo = true)
    (hw : watchdogOp s.cfg ea = none) (ha : s.env.answers = .acknowledge d o c :: rest) :
    directWrite ea s = .next
      { s with ind.o := o, ind.c := c, env.answers := rest, env.sent := .directWrite ea s.regs.a :: s.env.sent } := by
  rw [directWrite, if_pos hd]
  simp [hw, ha, State.setOC, State.dropAnswer, State.send]

theorem directWrite_unlisted {s : State} {ea : Word} (hd : s.cfg.directIo = true) (hw : watchdogOp s.cfg ea = none)
    (ha : s.env.answers = []) : directWrite ea s = .next (s.send (.directWrite ea s.regs.a)).freeOC := by
  rw [directWrite, if_pos hd]
  simp [hw, ha]

theorem directWrite_silent {s : State} {ea : Word} {rest : List DirectAnswer} (hd : s.cfg.directIo = true)
    (hw : watchdogOp s.cfg ea = none) (ha : s.env.answers = .silent :: rest) :
    directWrite ea s = unacknowledged (s.send (.directWrite ea s.regs.a)).dropAnswer := by
  rw [directWrite, if_pos hd]
  simp [hw, ha]

theorem unacknowledged_without_timer {s : State} (h : s.cfg.watchdog = none) :
    unacknowledged s = .fault .directIoNeverAcknowledged := by
  simp [unacknowledged, h]

theorem unacknowledged_with_timer {s : State} (h : s.cfg.watchdog ≠ none) :
    unacknowledged s = .next { s.freeAOC with watchdog.aborted := true } :=
  if_pos (Option.isSome_iff_ne_none.2 h)

theorem watchdogOp_without_timer {c : Config} (h : c.watchdog = none) (ea : Word) : watchdogOp c ea = none := by
  simp [watchdogOp, h]

/-- What an abort by the timer leaves after one thing sent and one answer taken (R246, R380, D25). -/
theorem unacknowledged_after_send {s : State} (h : s.cfg.watchdog ≠ none) {rest : List DirectAnswer}
    (ha : s.env.answers = .silent :: rest) (x : Sent) :
    ∃ d o c, unacknowledged (s.send x).dropAnswer = .next
      { s with
        regs.a := d, ind.o := o, ind.c := c, watchdog.aborted := true, env.answers := rest, env.sent := x :: s.env.sent
        env.freeCount := s.env.freeCount + 2 } := by
  have htail : (s.send x).dropAnswer = { s with env.answers := rest, env.sent := x :: s.env.sent } := by
    simp [State.dropAnswer, State.send, ha]
  rw [unacknowledged_with_timer (s := (s.send x).dropAnswer) h, htail]
  exact ⟨_, _, _, rfl⟩

/-- Settles O37: the first listed answer, or that none is listed, decides between the three outcomes. -/
theorem externalMode : Obligations.ExternalMode := by
  intro m s ea h hc hd he
  rw [exec_rd_direct h hc he, exec_wd_direct h hc he]
  refine ⟨?answered, ?unlisted, ?silent⟩
  case answered =>
    intro d o c rest ha
    exact ⟨directRead_acknowledged hd ha, fun hw => directWrite_acknowledged hd hw ha⟩
  case unlisted =>
    intro ha
    rw [directRead_unlisted hd ha]
    refine ⟨⟨_, _, _, rfl⟩, fun hw => ?_⟩
    rw [directWrite_unlisted hd hw ha]
    exact ⟨_, _, rfl⟩
  case silent =>
    intro rest ha
    rw [directRead_silent hd ha]
    refine ⟨fun hn => ⟨?stuckRead, ?stuckWrite⟩, fun hn => unacknowledged_after_send hn ha _, fun hn hw => ?abortedWrite⟩
    case stuckRead => exact unacknowledged_without_timer (s := (s.send _).dropAnswer) hn
    case stuckWrite =>
      rw [directWrite_silent hd (watchdogOp_without_timer hn ea) ha]
      exact unacknowledged_without_timer (s := (s.send _).dropAnswer) hn
    case abortedWrite =>
      rw [directWrite_silent hd hw ha]
      exact unacknowledged_after_send hn ha _

/-! The instructions of the Watchdog Timer (R248). -/

theorem watchdogOp_with_timer {c : Config} {w : WatchdogConfig} (h : c.watchdog = some w) (hd : c.directIo = true) (ea : Word) :
    watchdogOp c ea =
      if ea = w.enableEa then some .enable
      else if ea = w.disableEa then some .disable
      else if ea = w.resetEa then some .reset
      else none := by
  simp [watchdogOp, h, hd]

/-- What a Watchdog Timer instruction leaves, `en` the enabled flag after it. -/
def watchdogWritten (en : Bool) (ea : Word) (s : State) : State :=
  { s with watchdog.enabled := en, env.sent := .directWrite ea s.regs.a :: s.env.sent }

/-- The three commands, told apart by their addresses in this order (R248). -/
theorem watchdogOp_command {s : State} {w : WatchdogConfig} (h : s.cfg.watchdog = some w) (hd : s.cfg.directIo = true) {ea : Word}
    {en : Bool}
    (he : ea = w.enableEa ∧ en = true ∨ ea ≠ w.enableEa ∧ ea = w.disableEa ∧ en = false ∨
      ea ≠ w.enableEa ∧ ea ≠ w.disableEa ∧ ea = w.resetEa ∧ en = s.watchdog.enabled) :
    ∃ op, watchdogOp s.cfg ea = some op ∧ watchdogWrite op ea s = watchdogWritten en ea s := by
  rw [watchdogOp_with_timer h hd]
  rcases he with ⟨hen, rfl⟩ | ⟨hen, hdis, rfl⟩ | ⟨hen, hdis, hres, rfl⟩
  · exact ⟨.enable, if_pos hen, rfl⟩
  · exact ⟨.disable, by rw [if_neg hen, if_pos hdis], rfl⟩
  · exact ⟨.reset, by rw [if_neg hen, if_neg hdis, if_pos hres], rfl⟩

theorem directWrite_timer {s : State} {ea : Word} {op : WatchdogOp} (hd : s.cfg.directIo = true)
    (h : watchdogOp s.cfg ea = some op) : directWrite ea s = .next (watchdogWrite op ea s).freeOC := by
  rw [directWrite, if_pos hd]
  simp only [h]

theorem unassignedWrite_timer {s : State} {ea : Word} {op : WatchdogOp} (h : watchdogOp s.cfg ea = some op) (r : Refusal) :
    unassignedWrite ea r s = .next (watchdogWrite op ea s) := by
  simp only [unassignedWrite, h]

/-! The signals of the Watchdog Timer (R248, R380). -/

theorem watchdogSignal_connected {s : State} {w : WatchdogConfig} {l : Level} (h : s.cfg.watchdog = some w)
    (hl : w.level = some l) : watchdogSignal s = trigger l s := by
  simp [watchdogSignal, h, hl]

theorem watchdogSignal_unconnected {s : State} {w : WatchdogConfig} (h : s.cfg.watchdog = some w) (hl : w.level = none) :
    watchdogSignal s = s := by
  simp [watchdogSignal, h, hl]

theorem watchdogSignal_eq {s : State} {w : WatchdogConfig} (h : s.cfg.watchdog = some w) :
    watchdogSignal s = { s with levels := (watchdogSignal s).levels } := by
  cases hl : w.level with
  | none => rw [watchdogSignal_unconnected h hl]
  | some l =>
    rw [watchdogSignal_connected h hl]
    exact trigger_eq l s

theorem levelSignalled_watchdogSignal {s : State} {w : WatchdogConfig} {l : Level} (h : s.cfg.watchdog = some w)
    (hl : w.level = some l) : LevelSignalled l s (watchdogSignal s) :=
  watchdogSignal_connected h hl ▸ levelSignalled_trigger l s

theorem countWatchdog_due {s : State} (h : s.watchdog.signalDue = true) : countWatchdog s = watchdogSignal s.tickWatchdog :=
  if_pos h

theorem countWatchdog_not_due {s : State} (h : s.watchdog.signalDue = false) : countWatchdog s = s.tickWatchdog := by
  simp [countWatchdog, h]

theorem afterInstruction_next {s : State} (h : s.panel.compute ≠ .step) : afterInstruction (.next s) = .next (countWatchdog s) := by
  have hc : (countWatchdog s).panel.compute ≠ .step := by rwa [countWatchdog_panel]
  rw [afterInstruction, endStep_of_not_step hc]

/-- The end of the timer's interval (R248, R380). -/
theorem watchdogExpires_signals {s : State} {w : WatchdogConfig} (h : s.cfg.watchdog = some w) :
    ∃ t, applyInput .watchdogExpires s = .ok t ∧
      (s.watchdog.enabled = true →
        t = { s with levels := t.levels, env.sent := .hangUp :: s.env.sent } ∧
        (∀ l, w.level = some l → LevelSignalled l s t) ∧ (w.level = none → t.levels = s.levels)) ∧
      (s.watchdog.enabled = false → t = s) := by
  have hsent : (s.send .hangUp).cfg.watchdog = some w := h
  refine ⟨_, rfl, fun hen => ?enabled, fun hen => ?disabled⟩
  case enabled =>
    rw [if_pos hen]
    refine ⟨watchdogSignal_eq hsent, fun l hl => levelSignalled_watchdogSignal hsent hl, fun hl => ?_⟩
    rw [watchdogSignal_unconnected hsent hl]
    rfl
  case disabled => rw [hen, if_neg Bool.false_ne_true]

/-- The end of an instruction: an abort in it falls due, and an earlier one that was due signals (R380). -/
theorem afterInstruction_signals {s : State} {w : WatchdogConfig} (h : s.cfg.watchdog = some w) (hc : s.panel.compute ≠ .step) :
    ∃ t, afterInstruction (.next s) = .next t ∧
      t = { s with levels := t.levels, watchdog.aborted := false, watchdog.signalDue := s.watchdog.aborted } ∧
      (∀ l, w.level = some l → s.watchdog.signalDue = true → LevelSignalled l s t) ∧
      (w.level = none ∨ s.watchdog.signalDue = false → t.levels = s.levels) := by
  have htick : s.tickWatchdog.cfg.watchdog = some w := h
  refine ⟨countWatchdog s, afterInstruction_next hc, ?_⟩
  cases hdue : s.watchdog.signalDue with
  | false =>
    rw [countWatchdog_not_due hdue]
    exact ⟨rfl, fun _ _ h => absurd h Bool.false_ne_true, fun _ => rfl⟩
  | true =>
    rw [countWatchdog_due hdue]
    refine ⟨watchdogSignal_eq htick, fun l hl _ => levelSignalled_watchdogSignal htick hl, ?_⟩
    rintro (hl | hdue')
    · rw [watchdogSignal_unconnected htick hl]
      rfl
    · cases hdue'

/-- Settles O38: the command by its address, in an external mode and at an unassigned address, then the two signals. -/
theorem watchdogTimer : Obligations.WatchdogTimer := by
  refine ⟨fun m s ea w h hc hd hw en he => ?commands, fun s w hw => ⟨watchdogExpires_signals hw, afterInstruction_signals hw⟩⟩
  obtain ⟨op, hop, hwrite⟩ := watchdogOp_command hw hd he
  refine ⟨fun hext => ?external, fun hun => ?unassigned⟩
  case external =>
    rw [exec_wd_direct h hc hext, directWrite_timer hd hop, hwrite]
    exact ⟨_, _, rfl⟩
  case unassigned =>
    obtain ⟨r, hr⟩ := writeFunction_of_writeUnassigned hun
    rw [exec_wd_undefined h hc hr, unassignedWrite_timer hop, hwrite]
    rfl

end Sys2Proof.Machine
end

section
/-! The I/O functions of the processor (R280 to R285, R289): what each of them does with a device that recognizes its number and
without one, then the statements. -/

namespace Sys2Proof.Machine

/-! An allowed I/O instruction does its function (R212). -/

theorem exec_sio_allowed {s : State} (he : s.exitCond = false) (hc : s.MayControl) : exec .sio s = .next (doSio s) :=
  privileged_allowed he hc

theorem exec_tio_allowed {s : State} (he : s.exitCond = false) (hc : s.MayControl) : exec .tio s = .next (doTio s) :=
  privileged_allowed he hc

theorem exec_tdv_allowed {s : State} (he : s.exitCond = false) (hc : s.MayControl) : exec .tdv s = .next (doTdv s) :=
  privileged_allowed he hc

theorem exec_hio_allowed {s : State} (he : s.exitCond = false) (hc : s.MayControl) : exec .hio s = .next (doHio s) :=
  privileged_allowed he hc

theorem exec_aio_allowed {s : State} (he : s.exitCond = false) (hc : s.MayControl) : exec .aio s = .next (doAio s) :=
  privileged_allowed he hc

/-! The functions by their cases. -/

theorem canStart_eq_false {d : Device} (h : ¬ (d.condition = .ready ∧ d.controller = .ready ∧ d.pending = false)) :
    canStart d = false :=
  Bool.eq_false_iff.2 (mt (canStart_iff d).1 h)

theorem doSio_unloaded {s : State} (h : s.panel.loadCond = false) : doSio s = startIo .memory s := by simp [doSio, h]

theorem doSio_loaded {s : State} (h : s.panel.loadCond = true) : doSio s = startLoad s := if_pos h

/-- A device that reports the operation HIO halted, or does not (R283, U23). -/
def Device.haltReported (d : Device) : Device := { d with unusualEnd := d.own.haltUnusual }

/-- A device with its pending interrupt reset (R283, R284). -/
def Device.interruptReset (d : Device) : Device := { d with pending := false }

section Recognized

variable {s : State} {d : Device}

theorem doTio_recognized (h : s.findDevice (byte1 s.regs.a) = some d) :
    doTio s = s.respond (statusByte d) (byte1 s.regs.a) (!canStart d) := by
  simp only [doTio, h]

theorem doTdv_recognized (h : s.findDevice (byte1 s.regs.a) = some d) :
    doTdv s = s.respond d.own.tdvStatus (byte1 s.regs.a) d.own.tdvCondition := by
  simp only [doTdv, h]

theorem doHio_busy (h : s.findDevice (byte1 s.regs.a) = some d) (hb : d.condition = .busy) :
    doHio s =
      (((s.endDevice (byte1 s.regs.a)).updateDevice (byte1 s.regs.a) Device.haltReported).updateDevice (byte1 s.regs.a)
        Device.interruptReset).respond (statusByte d) (byte1 s.regs.a) (d.controller == .busy) := by
  simp only [doHio, h, hb, beq_self_eq_true, if_true]
  rfl

theorem doHio_notBusy (h : s.findDevice (byte1 s.regs.a) = some d) (hb : d.condition ≠ .busy) :
    doHio s =
      (s.updateDevice (byte1 s.regs.a) Device.interruptReset).respond (statusByte d) (byte1 s.regs.a)
        (d.controller == .busy) := by
  simp only [doHio, h, beq_eq_false_iff_ne.2 hb, Bool.false_eq_true, if_false]
  rfl

end Recognized

section NotRecognized

variable {s : State} (h : s.findDevice (byte1 s.regs.a) = none)
include h

theorem doTio_notRecognized : doTio s = s.noResponse := by simp only [doTio, h]

theorem doTdv_notRecognized : doTdv s = s.noResponse := by simp only [doTdv, h]

theorem doHio_notRecognized : doHio s = s.noResponse := by simp only [doHio, h]

end NotRecognized

theorem doAio_first {s : State} {d : Device} {before after : List Device} (hl : s.devices = before ++ d :: after)
    (hb : ∀ x ∈ before, x.pending = false) (hd : d.pending = true) :
    doAio s =
      (s.updateDevice d.number Device.interruptReset).respond d.own.aioStatus d.number d.own.aioUnusual := by
  have hbefore : before.find? (·.pending) = none := by simpa using hb
  have hfind : s.devices.find? (·.pending) = some d := by
    rw [hl, List.find?_append, hbefore, Option.none_or, List.find?_cons_of_pos hd]
  simp only [doAio, hfind]
  rfl

theorem doAio_none {s : State} (h : ∀ d ∈ s.devices, d.pending = false) : doAio s = s.noResponse := by
  have hfind : s.devices.find? (·.pending) = none := by simpa using h
  simp only [doAio, hfind]

theorem map_device_absent {l : List Device} {n : Byte} (h : ∀ x ∈ l, x.number ≠ n) (f : Device → Device) :
    l.map (fun x => if x.number == n then f x else x) = l :=
  (List.map_congr_left fun x hx => if_neg (by simpa using h x hx)).trans (List.map_id l)

/-- A device whose number no other has is the only one that a change by its number reaches. -/
theorem updateDevice_unique {s : State} {d : Device} {before after : List Device} (hl : s.devices = before ++ d :: after)
    (hn : ∀ x ∈ before ++ after, x.number ≠ d.number) (f : Device → Device) :
    s.updateDevice d.number f = { s with devices := before ++ f d :: after } := by
  have hbefore : ∀ x ∈ before, x.number ≠ d.number := fun x hx => hn x (List.mem_append_left _ hx)
  have hafter : ∀ x ∈ after, x.number ≠ d.number := fun x hx => hn x (List.mem_append_right _ hx)
  rw [State.updateDevice, hl, List.map_append, List.map_cons, map_device_absent hbefore, map_device_absent hafter,
    if_pos (beq_self_eq_true _)]

/-! The devices after HIO. -/

theorem findDevice_updateDevice_self {s : State} {dev : Byte} {d : Device} {f : Device → Device} (h : s.findDevice dev = some d)
    (hf : ∀ d, (f d).number = d.number) : (s.updateDevice dev f).findDevice dev = some (f d) := by
  rw [State.findDevice_updateDevice s dev dev f hf, h, Option.map_some, if_pos rfl]

theorem findDevice_updateDevice_ne {s : State} {dev n : Byte} {f : Device → Device} (hn : n ≠ dev)
    (hf : ∀ d, (f d).number = d.number) : (s.updateDevice dev f).findDevice n = s.findDevice n := by
  simp only [State.findDevice_updateDevice s dev n f hf, if_neg hn, Option.map_id']

theorem Device.haltReported_number (d : Device) : d.haltReported.number = d.number := rfl

theorem Device.interruptReset_number (d : Device) : d.interruptReset.number = d.number := rfl

@[simp] theorem State.findDevice_respond (s : State) (st dev n : Byte) (c : Bool) :
    (s.respond st dev c).findDevice n = s.findDevice n := rfl

/-- A response after a change of devices. -/
theorem State.respond_of_devices {s u : State} (h : u = { s with devices := u.devices }) (st dev : Byte) (c : Bool) :
    u.respond st dev c =
      { s with regs.a := st ++ dev, ind.o := false, ind.c := c, devices := (u.respond st dev c).devices } := by
  rw [State.respond_devices, h]
  rfl

/-! The statements. -/

/-- Settles O42: both functions answer and touch nothing but A, O and C. -/
theorem testDevices : Obligations.TestDevices := by
  intro s d he hc h
  rw [exec_tio_allowed he hc, exec_tdv_allowed he hc, doTio_recognized h, doTdv_recognized h]
  exact ⟨rfl, rfl⟩

/-- Settles O45: each function without a device to answer sets O and C (D16). -/
theorem noDeviceResponds : Obligations.NoDeviceResponds := by
  intro s he hc
  refine ⟨fun hn => ⟨?tio, ?tdv, ?hio, fun hl => ?sio⟩, fun hp => ?aio⟩
  case tio => rw [exec_tio_allowed he hc, doTio_notRecognized hn]; rfl
  case tdv => rw [exec_tdv_allowed he hc, doTdv_notRecognized hn]; rfl
  case hio => rw [exec_hio_allowed he hc, doHio_notRecognized hn]; rfl
  case sio => rw [exec_sio_allowed he hc, doSio_unloaded hl, startIo_notRecognized _ hn]
  case aio => rw [exec_aio_allowed he hc, doAio_none hp]; rfl

/-- Settles O44: the first pending device is found, and its number finds it alone. -/
theorem acknowledgeInterrupt : Obligations.AcknowledgeInterrupt := by
  intro s d before after he hc hl hb hd hn
  rw [exec_aio_allowed he hc, doAio_first hl hb hd, updateDevice_unique hl hn]
  rfl

/-- Settles O43: a busy device ends its operation, and any device loses its pending interrupt. -/
theorem haltInputOutput : Obligations.HaltInputOutput := by
  intro s d he hc h
  refine ⟨doHio s, exec_hio_allowed he hc, ?_⟩
  by_cases hb : d.condition = .busy
  · rw [doHio_busy h hb]
    have hend := (s.findDevice_endDevice (byte1 s.regs.a)).trans (congrArg _ h)
    refine ⟨State.respond_of_devices rfl _ _ _, fun _ => ⟨?device, ?others⟩, absurd hb⟩
    case device =>
      exact findDevice_updateDevice_self (findDevice_updateDevice_self hend Device.haltReported_number) Device.interruptReset_number
    case others =>
      intro n hn
      rw [State.findDevice_respond, findDevice_updateDevice_ne hn Device.interruptReset_number,
        findDevice_updateDevice_ne hn Device.haltReported_number]
      exact othersShow_endDevice s _ n hn
  · rw [doHio_notBusy h hb]
    exact ⟨State.respond_of_devices rfl _ _ _, (absurd · hb), fun _ =>
      ⟨findDevice_updateDevice_self h Device.interruptReset_number,
        fun n hn => findDevice_updateDevice_ne hn Device.interruptReset_number⟩⟩

/-- What SIO leaves, `dev` being the number in A: the device busy and awaiting its order byte if it could start, else its status
(R280, R285). -/
theorem startIo_recognized {s : State} {d : Device} (o : OrderSource) (h : s.findDevice (byte1 s.regs.a) = some d) :
    (d.condition = .ready ∧ d.controller = .ready ∧ d.pending = false →
      ∃ (t : State) (st : Byte), startIo o s = t ∧
        t = { s with regs.a := st ++ byte1 s.regs.a, ind.o := false, ind.c := false, devices := t.devices } ∧
        (st = statusByte d ∨ st = statusByte { d with condition := .busy, controller := .busy }) ∧
        t.findDevice (byte1 s.regs.a) = some { d with condition := .busy, controller := .busy, order := o } ∧
        OthersShow .busy (byte1 s.regs.a) s t) ∧
    (¬ (d.condition = .ready ∧ d.controller = .ready ∧ d.pending = false) →
      startIo o s = { s with regs.a := statusByte d ++ byte1 s.regs.a, ind.o := false, ind.c := true }) := by
  refine ⟨fun hs => ?accepted, fun hs => startIo_notAccepted o h (canStart_eq_false hs)⟩
  case accepted =>
    obtain ⟨st, ht, hst⟩ := startIo_accepted o h ((canStart_iff d).2 hs)
    refine ⟨_, st, ht, rfl, hst, ?_, othersShow_startDevice s _ o⟩
    exact (s.findDevice_startDevice _ o).trans (congrArg _ h)

/-! Requests of a device that may not be served. -/

/-- A device is served only while it is busy, and has begun or can begin (R262, R280). -/
theorem serviceDevice_idle {s : State} {d : Device} {dev : Byte} (hf : s.findDevice dev = some d)
    (h : (d.condition == .busy && d.operates) = false) (tr : Transfer) : serviceDevice dev tr s = .ok s := by
  cases hch : channelOf s.cfg dev with
  | none => simp only [serviceDevice, hf, hch]
  | some ch => simp only [serviceDevice, hf, hch, h, Bool.false_eq_true, if_false]

theorem endOperation_idle {s : State} {d : Device} {dev : Byte} {ue : Bool} (hf : s.findDevice dev = some d)
    (h : (d.condition == .busy && (d.operates || ue)) = false) (te il cm ce : Bool) : endOperation dev te il cm ce ue s = s := by
  cases hch : channelOf s.cfg dev with
  | none => simp only [endOperation, hf, hch]
  | some ch => simp only [endOperation, hf, hch, h, Bool.false_eq_true, if_false]

theorem applyInput_service_idle {s : State} (h : s.computeMode = .idle) (dev : Byte) (tr : Transfer) :
    applyInput (.service dev tr) s = .ok s := if_pos h

theorem applyInput_service {s : State} (h : s.computeMode ≠ .idle) (dev : Byte) (tr : Transfer) :
    applyInput (.service dev tr) s = serviceDevice dev tr s := if_neg h

theorem applyInput_ending {s : State} (h : s.computeMode ≠ .idle) (dev : Byte) (te il cm ce ue : Bool) :
    applyInput (.ending dev te il cm ce ue) s = .ok (endOperation dev te il cm (ce || !te && !ue) ue s) :=
  congrArg Except.ok (if_neg h)

theorem applyInput_ending_idle {s : State} (h : s.computeMode = .idle) (dev : Byte) (te il cm ce ue : Bool) :
    applyInput (.ending dev te il cm ce ue) s = .ok s := congrArg Except.ok (if_pos h)

theorem Device.not_operates {d : Device} (h : d.own.automatic = false ∧ d.order ≠ .notAwaited) : d.operates = false := by
  simp [Device.operates, h]

/-- Settles O41: the two answers of SIO, then what stands between a request and its service. -/
theorem startInputOutput : Obligations.StartInputOutput := by
  refine ⟨fun s d he hc hl h => ?answers, fun s d dev hf => ⟨fun tr hno => ?service, fun te il cm ce ue hno => ?ending⟩⟩
  case answers =>
    rw [exec_sio_allowed he hc, doSio_unloaded hl]
    obtain ⟨haccepted, hnot⟩ := startIo_recognized .memory h
    refine ⟨fun hs => ?_, fun hs => by rw [hnot hs]⟩
    obtain ⟨t, st, ht, hrest⟩ := haccepted hs
    exact ⟨t, st, congrArg _ ht, hrest⟩
  case service =>
    by_cases hidle : s.computeMode = .idle
    · exact applyInput_service_idle hidle dev tr
    · rw [applyInput_service hidle]
      refine serviceDevice_idle hf ?_ tr
      rcases hno with (hi | hb) | hm
      · exact absurd hi hidle
      · simp [hb]
      · simp [Device.not_operates hm]
  case ending =>
    by_cases hidle : s.computeMode = .idle
    · exact applyInput_ending_idle hidle dev te il cm ce ue
    · rw [applyInput_ending hidle]
      refine congrArg _ (endOperation_idle hf ?_ te il cm _)
      rcases hno with (hi | hb) | ⟨hm, hue⟩
      · exact absurd hi hidle
      · simp [hb]
      · simp [Device.not_operates hm, hue]

end Sys2Proof.Machine
end

section
/-! SIO under the load condition (R289, R398): the channel it loads, and the order byte the processor supplies. -/

namespace Sys2Proof.Machine

/-- The I/O control doubleword of the initial load in the channel that a number designates (R289). -/
def loadChannel (dev : Byte) (s : State) : State :=
  match channelOf s.cfg dev with
  | some ch => (s.setChannel (evenReg ch) 0).setChannel (oddReg ch) 0x80
  | none => s

theorem loadChannel_none {dev : Byte} {s : State} (h : channelOf s.cfg dev = none) : loadChannel dev s = s := by
  simp only [loadChannel, h]

theorem loadChannel_some {dev : Byte} {s : State} {ch : Nat} (h : channelOf s.cfg dev = some ch) :
    loadChannel dev s = (s.setChannel (evenReg ch) 0).setChannel (oddReg ch) 0x80 := by
  simp only [loadChannel, h]

theorem loadChannel_eq (dev : Byte) (s : State) : loadChannel dev s = { s with chan := (loadChannel dev s).chan } := by
  cases h : channelOf s.cfg dev with
  | none => rw [loadChannel_none h]
  | some ch => rw [loadChannel_some h, State.setChannel_eq (s.setChannel _ _), State.setChannel_eq s]

theorem evenReg_ne_oddReg (ch : Nat) : evenReg ch ≠ oddReg ch := by
  simp only [evenReg, oddReg]
  omega

/-- Both registers of a channel are among the channel registers 8 to 47 (R264). -/
theorem channelRegs_bounds {c : Config} {ch : Nat} (h : ch < c.channels) (h20 : c.channels ≤ 20) :
    (8 ≤ evenReg ch ∧ evenReg ch < 48) ∧ 8 ≤ oddReg ch ∧ oddReg ch < 48 := by
  simp only [evenReg, oddReg]
  omega

/-- Both registers of a channel written, as every channel register reads then. -/
theorem getChannel_setRegs (s : State) {ch : Nat} (hlt : ch < s.cfg.channels) (h20 : s.cfg.channels ≤ 20) (v w : Word) {n : Nat}
    (hn : 8 ≤ n) (hn' : n < 48) :
    ((s.setChannel (evenReg ch) v).setChannel (oddReg ch) w).getChannel n =
      if n = oddReg ch then w else if n = evenReg ch then v else s.getChannel n := by
  rw [State.getChannel_setChannel _ _ _ _ hn hn', State.getChannel_setChannel _ _ _ _ hn hn', State.setChannel_cfg]
  simp only [hasChannelReg_even hlt h20, hasChannelReg_odd hlt h20, true_and, eq_comm]

theorem State.getBlock_channelReg {s : State} {n : Nat} (h : hasChannelReg s.cfg n = true) :
    s.getBlock n = some (s.getChannel n) := by
  have hn := ((hasChannelReg_iff _ _).1 h).1
  rw [State.getBlock, if_neg (by omega), if_pos h]

/-- SIO under the load condition: the response, the channel, and the processor waiting at zero (R289). -/
theorem startLoad_eq (s : State) :
    startLoad s =
      { startIo .processor s with
        regs.p := 0, chan := (loadChannel (byte1 s.regs.a) (startIo .processor s)).chan, panel.loadCond := false, panel.sReg := 0
        wff := true } := by
  have h : startLoad s =
      { (loadChannel (byte1 s.regs.a) (startIo .processor s)).setReg .p 0 with
        panel.loadCond := false, panel.sReg := 0, wff := true } := by
    cases hch : channelOf s.cfg (byte1 s.regs.a) with
    | none =>
      rw [loadChannel_none ((startIo_cfg _ s).symm ▸ hch)]
      simp only [startLoad, hch]
    | some ch =>
      rw [loadChannel_some ((startIo_cfg _ s).symm ▸ hch)]
      simp only [startLoad, hch]
  rw [h, loadChannel_eq]
  rfl

/-- A response to SIO writes A, O, C and the devices. -/
theorem startIo_eq (o : OrderSource) (s : State) :
    startIo o s =
      { s with
        regs.a := (startIo o s).regs.a, ind.o := (startIo o s).ind.o, ind.c := (startIo o s).ind.c
        devices := (startIo o s).devices } := by
  cases h : s.findDevice (byte1 s.regs.a) with
  | none => rw [startIo_notRecognized o h]
  | some d =>
    by_cases hs : canStart d = true
    · obtain ⟨st, ht, -⟩ := startIo_accepted o h hs
      rw [ht]
    · rw [startIo_notAccepted o h (Bool.eq_false_iff.2 hs)]

theorem startLoad_frame (s : State) :
    startLoad s =
      { s with
        regs.a := (startLoad s).regs.a, regs.p := 0, ind.o := (startLoad s).ind.o, ind.c := (startLoad s).ind.c
        devices := (startLoad s).devices, chan := (startLoad s).chan, panel.loadCond := false, panel.sReg := 0, wff := true } := by
  rw [startLoad_eq, startIo_eq]

/-- The doubleword X'00000080' in the channel designated, and every other channel register as before (R289). -/
theorem startLoad_channel {s : State} {ch : Nat} (h20 : s.cfg.channels ≤ 20) (h : channelOf s.cfg (byte1 s.regs.a) = some ch) :
    (startLoad s).getBlock (evenReg ch) = some 0 ∧ (startLoad s).getBlock (oddReg ch) = some 0x80 ∧
      ∀ n, n ≠ evenReg ch → n ≠ oddReg ch → 8 ≤ n → n < 48 → (startLoad s).getChannel n = s.getChannel n := by
  have hlt := channelOf_some h
  obtain ⟨⟨he, he'⟩, ho, ho'⟩ := channelRegs_bounds hlt h20
  have hcfg := startIo_cfg .processor s
  have hget : ∀ n, 8 ≤ n → n < 48 →
      (startLoad s).getChannel n = if n = oddReg ch then 0x80 else if n = evenReg ch then 0 else s.getChannel n := by
    intro n hn hn'
    have hload : (startLoad s).chan = (loadChannel (byte1 s.regs.a) (startIo .processor s)).chan := by rw [startLoad_eq]
    rw [State.getChannel_congr hload, loadChannel_some (hcfg.symm ▸ h),
      getChannel_setRegs _ (hcfg.symm ▸ hlt) (hcfg.symm ▸ h20) _ _ hn hn', State.getChannel_congr (startIo_chan _ s)]
  rw [State.getBlock_channelReg ((startLoad_cfg s).symm ▸ hasChannelReg_even hlt h20),
    State.getBlock_channelReg ((startLoad_cfg s).symm ▸ hasChannelReg_odd hlt h20), hget _ he he', hget _ ho ho']
  refine ⟨by simp [evenReg_ne_oddReg], by simp, fun n hne hno hn hn' => ?_⟩
  rw [hget n hn hn', if_neg hno, if_neg hne]

theorem startLoad_noChannel {s : State} (h : channelOf s.cfg (byte1 s.regs.a) = none) : (startLoad s).chan = s.chan := by
  have hcfg := startIo_cfg .processor s
  rw [startLoad_eq, loadChannel_none (hcfg.symm ▸ h)]
  exact startIo_chan _ s

/-- The response of SIO under the load condition is that of SIO. -/
theorem startLoad_response (s : State) :
    (startLoad s).regs.a = (startIo .processor s).regs.a ∧ (startLoad s).ind = (startIo .processor s).ind ∧
      (startLoad s).devices = (startIo .processor s).devices := by
  rw [startLoad_eq]
  exact ⟨rfl, rfl, rfl⟩

/-- The order request of a device the initial load has started is answered by the processor (R289). -/
theorem serviceDevice_processorOrder {s : State} {d : Device} {dev : Byte} {ch : Nat} (hf : s.findDevice dev = some d)
    (hb : d.condition = .busy) (ha : d.own.automatic = true) (ho : d.order = .processor) (hch : channelOf s.cfg dev = some ch) :
    serviceDevice dev .output s =
      .ok ((s.send (.channelByte dev 0x02)).updateDevice dev fun d => { d with order := .notAwaited }) := by
  have hserve : (d.condition == .busy && d.operates) = true := by simp [hb, Device.operates, ha]
  simp only [serviceDevice, hf, hch, if_pos hserve, ho]

/-- Settles O46: the response is that of SIO, the channel and the processor are made ready for the load; then the order byte. -/
theorem startUnderLoadCondition : Obligations.StartUnderLoadCondition := by
  refine ⟨fun s he hc hl h20 => ?sio, fun s d dev ch hrun hf hb ha ho hch => ?order⟩
  case sio =>
    obtain ⟨hA, hind, hdev⟩ := startLoad_response s
    refine ⟨startLoad s, (exec_sio_allowed he hc).trans (congrArg _ (doSio_loaded hl)), startLoad_frame s,
      fun ch => startLoad_channel h20, startLoad_noChannel, fun hn => ?notRecognized, fun d hf => ?recognized⟩
    case notRecognized =>
      rw [hA, hind, hdev, startIo_notRecognized _ hn]
      exact ⟨rfl, rfl, rfl, rfl⟩
    case recognized =>
      obtain ⟨haccepted, hnot⟩ := startIo_recognized .processor hf
      refine ⟨fun hs => ?_, fun hs => ?_⟩
      · obtain ⟨t, st, rfl, ht, hst, hdevice, hothers⟩ := haccepted hs
        have hfind := State.findDevice_congr hdev
        refine ⟨⟨st, ?_, hst⟩, ?_, ?_, (hfind _).trans hdevice, fun n hn => (hfind n).trans (hothers n hn)⟩
        · rw [hA, ht]
        · rw [hind, ht]
        · rw [hind, ht]
      · rw [hA, hind, hdev, hnot hs]
        exact ⟨rfl, rfl, rfl, rfl⟩
  case order =>
    rw [applyInput_service hrun, serviceDevice_processorOrder hf hb ha ho hch]
    refine ⟨_, rfl, rfl, ?_, fun n hn => ?_⟩
    · exact findDevice_updateDevice_self (s := s.send _) hf fun _ => rfl
    · exact findDevice_updateDevice_ne (s := s.send _) hn fun _ => rfl

end Sys2Proof.Machine
end

section
/-! The service of a byte (R265 to R268, R273): the fields of the odd register, what one byte moves and counts, what follows it. -/

namespace Sys2Proof.Machine

/-! The fields of an odd register, the masks at their default places (R265, D17). -/

theorem toNat_iocdCount {c : Config} (h : c.iocdCount = 0x1FFF) (w : Word) : (iocdCount c w).toNat = w.toNat % 8192 := by
  rw [iocdCount, h, BitVec.toNat_and]
  exact Nat.and_two_pow_sub_one_eq_mod w.toNat 13

theorem iocdCount_eq_zero_iff {c : Config} (h : c.iocdCount = 0x1FFF) (w : Word) : iocdCount c w = 0 ↔ w.toNat % 8192 = 0 := by
  rw [← toNat_iocdCount h, ← BitVec.toNat_inj]
  rfl

/-- A flag of one bit is set if the bit of the word is. -/
theorem and_flag_eq_zero_iff {flag : Word} {k : Nat} (hf : flag = BitVec.twoPow 16 k) (hk : k < 16) (w : Word) :
    w &&& flag = 0 ↔ w.getLsbD k = false := by
  rw [hf, BitVec.and_twoPow]
  cases w.getLsbD k
  · simp
  · simpa using fun h => absurd (congrArg (BitVec.getLsbD · k) h) (by simp [hk])

/-- Bits outside a mask and bits inside it are put together by an addition. -/
theorem masked_or_eq_add (w v m : Word) : w &&& ~~~ m ||| v &&& m = (w &&& ~~~ m) + (v &&& m) := by
  refine (BitVec.add_eq_or_of_and_eq_zero _ _ ?_).symm
  ext i hi
  cases h : m[i] <;> simp [h]

theorem masked_or_self (w m : Word) : w &&& ~~~ m ||| w &&& m = w := by
  ext i hi
  cases h : m[i] <;> simp [h]

/-- Counting down a count that is not zero subtracts one from the whole register (R268). -/
theorem countDown_of_pos {c : Config} (h : c.iocdCount = 0x1FFF) {w : Word} (hw : 0 < w.toNat % 8192) : countDown c w = w - 1 := by
  have hcount := toNat_iocdCount h w
  have hlow : (iocdCount c w - 1) &&& c.iocdCount = iocdCount c w - 1 := by
    have hmod := toNat_iocdCount h (iocdCount c w - 1)
    apply BitVec.eq_of_toNat_eq
    rw [iocdCount] at hmod
    rw [hmod]
    bv_omega
  calc countDown c w
    _ = (w &&& ~~~ c.iocdCount) + (iocdCount c w - 1) := by rw [countDown, masked_or_eq_add, hlow]
    _ = (w &&& ~~~ c.iocdCount) + (w &&& c.iocdCount) - 1 := (add_sub_assoc _ _ _).symm
    _ = w - 1 := by rw [← masked_or_eq_add, masked_or_self]

theorem or_and_distrib (w v m : Word) : (w ||| v) &&& m = w &&& m ||| v &&& m := by
  ext i hi
  simp [Bool.and_or_distrib_right]

/-- The E flag is outside the count (R265). -/
theorem iocdCount_error {c : Config} (h : c.iocdCount = 0x1FFF) (w : Word) : iocdCount c (w ||| iocdError) = iocdCount c w := by
  have hout : iocdError &&& (0x1FFF : Word) = 0#16 := by decide
  rw [iocdCount, h, or_and_distrib, hout, BitVec.or_zero, iocdCount, h]

theorem countDown_error {c : Config} (h : c.iocdCount = 0x1FFF) (w : Word) :
    countDown c (w ||| iocdError) = countDown c w ||| iocdError := by
  have hkept : iocdError &&& ~~~ (0x1FFF : Word) = iocdError := by decide
  rw [countDown, iocdCount_error h, countDown, h, or_and_distrib, hkept, BitVec.or_assoc, BitVec.or_comm iocdError,
    BitVec.or_assoc]

/-- The odd register of a channel after a byte: counted down, the E flag set by an error (R267, R268). -/
def oddAfter (bad : Bool) (w : Word) : Word := if bad then (w - 1) ||| 0x8000 else w - 1

theorem countDown_oddAfter {c : Config} (h : c.iocdCount = 0x1FFF) {w : Word} (hw : 0 < w.toNat % 8192) (bad : Bool) :
    countDown c (if bad then w ||| iocdError else w) = oddAfter bad w := by
  cases bad
  · exact countDown_of_pos h hw
  · exact (countDown_error h w).trans (congrArg (· ||| iocdError) (countDown_of_pos h hw))

theorem iocdCount_oddAfter {c : Config} (h : c.iocdCount = 0x1FFF) {w : Word} (hw : 0 < w.toNat % 8192) (bad : Bool) :
    iocdCount c (oddAfter bad w) = 0 ↔ w.toNat % 8192 = 1 := by
  have hsame : iocdCount c (oddAfter bad w) = iocdCount c (w - 1) := by
    cases bad
    · rfl
    · exact iocdCount_error h _
  rw [hsame, iocdCount_eq_zero_iff h]
  bv_omega

/-- A byte leaves the data chaining flag and the interrupt flag (R268). -/
theorem getLsbD_oddAfter {c : Config} (h : c.iocdCount = 0x1FFF) {w : Word} (hw : 0 < w.toNat % 8192) (bad : Bool) {k : Nat}
    (hk : k = 13 ∨ k = 14) : (oddAfter bad w).getLsbD k = w.getLsbD k := by
  have herr : iocdError.getLsbD k = false := by rcases hk with rfl | rfl <;> decide
  have hmask : (0x1FFF : Word).getLsbD k = false := by rcases hk with rfl | rfl <;> decide
  have hcd : (w - 1).getLsbD k = w.getLsbD k := by
    rw [← countDown_of_pos h hw, countDown, h]
    simp only [BitVec.getLsbD_or, BitVec.getLsbD_and, BitVec.getLsbD_not, hmask]
    simp
    omega
  cases bad
  · exact hcd
  · change ((w - 1) ||| iocdError).getLsbD k = _
    rw [BitVec.getLsbD_or, herr, hcd, Bool.or_false]

/-! One byte (R268). -/

/-- The state after a byte, before what follows a count of zero. -/
def byteServed (ch : Nat) (dev : Byte) (tr : Transfer) (s : State) : State := stepChannel ch (moveByte ch dev tr s)

/-- The byte at the position of a word that a count names: odd is the right byte. -/
def byteAt (s : State) (a odd : Word) : Byte :=
  if s.existsAt a = true then s.mem.readByte (2 * a.toNat + odd.toNat % 2) else 0

/-- A transfer comes with a parity error: of the word read, or of the byte received (R267). -/
def transferError (s : State) (a : Word) : Transfer → Bool
  | .output => !s.existsAt a || s.badParity.contains a.toNat
  | .input _ ok => !ok

theorem byteAt_eq (s : State) (a odd : Word) :
    (if odd.getLsbD 0 then byte1 (s.wordAt a) else byte0 (s.wordAt a)) = byteAt s a odd := by
  rw [byteAt, getLsbD_zero_mod, State.wordAt_bytes]
  by_cases he : s.existsAt a = true
  · rcases Nat.mod_two_eq_zero_or_one odd.toNat with h | h <;> simp [he, h]
  · rw [if_neg he, if_neg he]
    split <;> rfl

theorem byteAt_right {s : State} {a odd : Word} (h : odd.toNat % 2 = 1) :
    byteAt s a odd = if s.existsAt a = true then s.mem.readByte (2 * a.toNat + 1) else 0 := by
  rw [byteAt, h]

theorem byteServed_output (ch : Nat) (dev : Byte) (s : State) :
    byteServed ch dev .output s =
      { s with
        chan := (byteServed ch dev .output s).chan
        env.sent := .channelByte dev (byteAt s (s.getChannel (evenReg ch)) (s.getChannel (oddReg ch))) :: s.env.sent } := by
  rw [byteServed, stepChannel_eq, moveByte_output, byteAt_eq]

theorem byteServed_input (ch : Nat) (dev b : Byte) (ok : Bool) (s : State) :
    byteServed ch dev (.input b ok) s =
      { s.storeWord (s.getChannel (evenReg ch))
          (putByte ((s.getChannel (oddReg ch)).getLsbD 0) (s.wordAt (s.getChannel (evenReg ch))) b) with
        chan := (byteServed ch dev (.input b ok) s).chan } := by
  rw [byteServed, stepChannel_eq, moveByte_input]

/-- The registers of a channel after a byte, and every other channel register as before. -/
def ChannelCounted (ch : Nat) (bad : Bool) (s t : State) : Prop :=
  t.getChannel (evenReg ch) =
      (if (s.getChannel (oddReg ch)).toNat % 2 = 1 then s.getChannel (evenReg ch) + 1 else s.getChannel (evenReg ch)) ∧
    t.getChannel (oddReg ch) = oddAfter bad (s.getChannel (oddReg ch)) ∧
    ∀ n, n ≠ evenReg ch → n ≠ oddReg ch → 8 ≤ n → n < 48 → t.getChannel n = s.getChannel n

/-- What a byte does to the channel registers can be read off any two states with these registers. -/
theorem ChannelCounted.congr {ch : Nat} {bad : Bool} {s s' t t' : State} (h : ChannelCounted ch bad s t) (hs : s'.chan = s.chan)
    (ht : t'.chan = t.chan) : ChannelCounted ch bad s' t' := by
  simpa only [ChannelCounted, State.getChannel_congr hs, State.getChannel_congr ht] using h

/-! The byte counted and what follows it, the masks at their default places (R268, R270). -/

section DefaultMasks

variable {s : State} {ch : Nat} (hlt : ch < s.cfg.channels) (h20 : s.cfg.channels ≤ 20) (hmask : s.cfg.iocdCount = 0x1FFF)
  (hpos : 0 < (s.getChannel (oddReg ch)).toNat % 8192)
include hlt h20 hmask hpos

theorem channelCounted_byteServed (dev : Byte) (tr : Transfer) :
    ChannelCounted ch (transferError s (s.getChannel (evenReg ch)) tr) s (byteServed ch dev tr s) := by
  obtain ⟨⟨he, he'⟩, ho, ho'⟩ := channelRegs_bounds hlt h20
  have hmove : ∀ n, 8 ≤ n → n < 48 → (moveByte ch dev tr s).getChannel n =
      if transferError s (s.getChannel (evenReg ch)) tr = true ∧ n = oddReg ch then s.getChannel (oddReg ch) ||| iocdError
      else s.getChannel n := by
    intro n hn hn'
    cases tr <;> exact getChannel_moveByte s dev _ (hasChannelReg_odd hlt h20) hn hn'
  have heven := hmove _ he he'
  have hodd := hmove _ ho ho'
  have hcfg := moveByte_cfg ch dev tr s
  have hstep := fun n => getChannel_stepChannel (moveByte ch dev tr s) (ch := ch) (hcfg.symm ▸ hlt) (hcfg.symm ▸ h20) (n := n)
  simp only [evenReg_ne_oddReg, and_false, if_false] at heven
  simp only [and_true] at hodd
  have hbit : ((moveByte ch dev tr s).getChannel (oddReg ch)).getLsbD 0 = (s.getChannel (oddReg ch)).getLsbD 0 := by
    rw [hodd]
    split
    · rw [BitVec.getLsbD_or, show iocdError.getLsbD 0 = false by decide, Bool.or_false]
    · rfl
  refine ⟨?even, ?odd, fun n hne hno hn hn' => ?others⟩
  case even =>
    rw [byteServed, hstep _ he he', if_neg (evenReg_ne_oddReg ch), if_pos rfl, heven, hbit, getLsbD_zero_mod]
    simp only [decide_eq_true_eq]
  case odd => rw [byteServed, hstep _ ho ho', if_pos rfl, hcfg, hodd, countDown_oddAfter hmask hpos]
  case others => rw [byteServed, hstep n hn hn', if_neg hno, if_neg hne, hmove n hn hn', if_neg fun h => hno h.2]

theorem getChannel_oddReg_byteServed (dev : Byte) (tr : Transfer) :
    (byteServed ch dev tr s).getChannel (oddReg ch) =
      oddAfter (transferError s (s.getChannel (evenReg ch)) tr) (s.getChannel (oddReg ch)) := by
  obtain ⟨-, hodd, -⟩ := channelCounted_byteServed hlt h20 hmask hpos dev tr
  exact hodd

/-- What follows the byte: nothing until the count is zero, then count done, or data chaining (R268, R270). -/
theorem serviceByte_eq (dev : Byte) (tr : Transfer) :
    serviceByte ch dev tr s =
      if (s.getChannel (oddReg ch)).toNat % 8192 ≠ 1 then .ok (byteServed ch dev tr s)
      else if (byteServed ch dev tr s).getChannel (oddReg ch) &&& s.cfg.iocdDc ≠ 0 then chain ch dev (byteServed ch dev tr s)
      else .ok ((byteServed ch dev tr s).send (.countDone dev)) := by
  have hcount : iocdCount s.cfg (s.getChannel (oddReg ch)) ≠ 0 := fun h => by
    have := (iocdCount_eq_zero_iff hmask _).1 h
    omega
  have hlast := iocdCount_oddAfter hmask hpos (transferError s (s.getChannel (evenReg ch)) tr)
  rw [← getChannel_oddReg_byteServed hlt h20 hmask hpos dev tr] at hlast
  rw [serviceByte, if_neg hcount]
  simp only [Ne, ← hlast]
  rfl

/-- The data chaining flag and the interrupt flag are read after the byte as they were before it. -/
theorem flag_byteServed (dev : Byte) (tr : Transfer) {flag : Word} {k : Nat} (hk : k = 13 ∨ k = 14)
    (hf : flag = BitVec.twoPow 16 k) :
    (byteServed ch dev tr s).getChannel (oddReg ch) &&& flag = 0 ↔ (s.getChannel (oddReg ch)).getMsbD (15 - k) = false := by
  rw [getChannel_oddReg_byteServed hlt h20 hmask hpos, and_flag_eq_zero_iff hf (by omega), getLsbD_oddAfter hmask hpos _ hk]
  rcases hk with rfl | rfl <;> rfl

theorem serviceByte_unchained (hdc : s.cfg.iocdDc = 0x4000) (dev : Byte) (tr : Transfer)
    (hno : 1 < (s.getChannel (oddReg ch)).toNat % 8192 ∨ (s.getChannel (oddReg ch)).getMsbD 1 = false) :
    serviceByte ch dev tr s = .ok
      { byteServed ch dev tr s with
        env.sent :=
          (if (s.getChannel (oddReg ch)).toNat % 8192 = 1 then [.countDone dev] else []) ++
            (byteServed ch dev tr s).env.sent } := by
  rw [serviceByte_eq hlt h20 hmask hpos]
  by_cases hlast : (s.getChannel (oddReg ch)).toNat % 8192 = 1
  · have hflag := (flag_byteServed hlt h20 hmask hpos dev tr (.inr rfl) hdc).2 (hno.resolve_left (by omega))
    rw [if_neg (not_not.2 hlast), if_neg (not_not.2 hflag), if_pos hlast]
    generalize byteServed ch dev tr s = t
    rfl
  · rw [if_pos hlast, if_neg hlast]
    generalize byteServed ch dev tr s = t
    rfl

theorem serviceByte_chained (hdc : s.cfg.iocdDc = 0x4000) (dev : Byte) (tr : Transfer)
    (hlast : (s.getChannel (oddReg ch)).toNat % 8192 = 1) (hflag : (s.getChannel (oddReg ch)).getMsbD 1 = true) :
    serviceByte ch dev tr s = chain ch dev (byteServed ch dev tr s) := by
  have hset : (byteServed ch dev tr s).getChannel (oddReg ch) &&& s.cfg.iocdDc ≠ 0 := fun h => by
    have hclear := (flag_byteServed hlt h20 hmask hpos dev tr (.inr rfl) hdc).1 h
    cases hflag.symm.trans hclear
  rw [serviceByte_eq hlt h20 hmask hpos, if_neg (not_not.2 hlast), if_pos hset]

end DefaultMasks

/-! A device that is served (R262, R273, R280). -/

theorem serviceDevice_data {s : State} {d : Device} {dev : Byte} {ch : Nat} (hf : s.findDevice dev = some d)
    (hb : d.condition = .busy) (hch : channelOf s.cfg dev = some ch) (ho : d.order = .notAwaited) (tr : Transfer) :
    serviceDevice dev tr s = serviceByte ch dev tr s := by
  have hserve : (d.condition == .busy && d.operates) = true := by simp [hb, Device.operates, ho]
  simp only [serviceDevice, hf, hch, if_pos hserve, ho]

theorem serviceDevice_memoryOrder {s : State} {d : Device} {dev : Byte} {ch : Nat} (hf : s.findDevice dev = some d)
    (hb : d.condition = .busy) (hch : channelOf s.cfg dev = some ch) (ho : d.order = .memory) (ha : d.own.automatic = true)
    (hcount : iocdCount s.cfg (s.getChannel (oddReg ch)) ≠ 0) :
    serviceDevice dev .output s =
      serviceByte ch dev .output (s.updateDevice dev fun d => { d with order := .notAwaited }) := by
  have hserve : (d.condition == .busy && d.operates) = true := by simp [hb, Device.operates, ha]
  simp only [serviceDevice, hf, hch, if_pos hserve, ho, if_neg hcount]

/-- A device that is served gets its byte with no order awaited. -/
theorem serviceDevice_serves {s : State} {d : Device} {dev : Byte} {ch : Nat} {tr : Transfer} (hf : s.findDevice dev = some d)
    (hb : d.condition = .busy) (hch : channelOf s.cfg dev = some ch) (hcount : iocdCount s.cfg (s.getChannel (oddReg ch)) ≠ 0)
    (ho : d.order = .notAwaited ∨ d.order = .memory ∧ d.own.automatic = true ∧ tr = .output) :
    ∃ ds, serviceDevice dev tr s = serviceByte ch dev tr { s with devices := ds } ∧
      State.findDevice { s with devices := ds } dev = some { d with order := .notAwaited } ∧
      ∀ n, n ≠ dev → State.findDevice { s with devices := ds } n = s.findDevice n := by
  rcases ho with ho | ⟨ho, ha, rfl⟩
  · refine ⟨s.devices, serviceDevice_data hf hb hch ho tr, hf.trans ?_, fun _ _ => rfl⟩
    rw [← ho]
  · exact ⟨_, serviceDevice_memoryOrder hf hb hch ho ha hcount, findDevice_updateDevice_self hf fun _ => rfl,
      fun n hn => findDevice_updateDevice_ne hn fun _ => rfl⟩

/-! Memory after a byte. -/

theorem byteServed_cfg (ch : Nat) (dev : Byte) (tr : Transfer) (s : State) : (byteServed ch dev tr s).cfg = s.cfg :=
  (stepChannel_cfg ch _).trans (moveByte_cfg ch dev tr s)

theorem byteServed_input_frame (ch : Nat) (dev b : Byte) (ok : Bool) (s : State) :
    byteServed ch dev (.input b ok) s =
      { s with
        mem := (byteServed ch dev (.input b ok) s).mem, badParity := (byteServed ch dev (.input b ok) s).badParity
        chan := (byteServed ch dev (.input b ok) s).chan } := by
  rw [byteServed_input, State.storeWord_eq]

theorem byteServed_input_memory (ch : Nat) (dev b : Byte) (ok : Bool) (s : State) :
    let t := s.storeWord (s.getChannel (evenReg ch))
      (putByte ((s.getChannel (oddReg ch)).getLsbD 0) (s.wordAt (s.getChannel (evenReg ch))) b)
    (byteServed ch dev (.input b ok) s).mem = t.mem ∧ (byteServed ch dev (.input b ok) s).badParity = t.badParity := by
  rw [byteServed_input]
  exact ⟨rfl, rfl⟩

/-- A byte changes memory or what has been sent, and the registers of its channel. -/
theorem byteServed_frame (ch : Nat) (dev : Byte) (tr : Transfer) (s : State) :
    byteServed ch dev tr s =
      { s with
        mem := (byteServed ch dev tr s).mem, badParity := (byteServed ch dev tr s).badParity
        chan := (byteServed ch dev tr s).chan, env.sent := (byteServed ch dev tr s).env.sent } := by
  cases tr with
  | output => rw [byteServed_output]
  | input b ok => rw [byteServed_input_frame]

/-- An input byte is stored where the count says, with good parity, and nowhere else (R60, R268). -/
theorem inputByte_stored {s : State} (hw : s.mem.wf) (ch : Nat) (dev b : Byte) (ok : Bool) {a : Word} {right : Nat}
    (ha : s.getChannel (evenReg ch) = a) (hr : (s.getChannel (oddReg ch)).toNat % 2 = right) {t : State}
    (ht : t = byteServed ch dev (.input b ok) s) :
    (s.existsAt a = true → t.mem.readByte (2 * a.toNat + right) = b) ∧
      (∀ x, (s.existsAt a = true → x ≠ 2 * a.toNat + right) → t.mem.readByte x = s.mem.readByte x) ∧
      ParityMended s t [a] := by
  subst ha hr ht
  obtain ⟨hstored, hkept⟩ := readByte_inputByte s (s.getChannel (evenReg ch)) (s.getChannel (oddReg ch)) b hw
  obtain ⟨hmem, hparity⟩ := byteServed_input_memory ch dev b ok s
  rw [hmem]
  refine ⟨hstored, hkept, fun k => ?_⟩
  rw [hparity]
  exact parityMended_storeWord s _ _ k

theorem State.wordAt_congr {s t : State} (hc : s.cfg = t.cfg) (hm : s.mem = t.mem) (a : Word) : s.wordAt a = t.wordAt a := by
  rw [State.wordAt, State.wordAt, State.existsAt, State.existsAt, hc, hm]

/-- A byte changes no word but the one the channel points at. -/
theorem wordAt_byteServed {s : State} (hw : s.mem.wf) (ch : Nat) (dev : Byte) (tr : Transfer) {a : Word}
    (ha : a ≠ s.getChannel (evenReg ch)) : (byteServed ch dev tr s).wordAt a = s.wordAt a := by
  have hcfg := byteServed_cfg ch dev tr s
  cases tr with
  | output => exact State.wordAt_congr hcfg (by rw [byteServed_output]) a
  | input b ok =>
    calc (byteServed ch dev (.input b ok) s).wordAt a
      _ = (s.storeWord _ _).wordAt a :=
        State.wordAt_congr (hcfg.trans (State.storeWord_cfg s _ _).symm) (byteServed_input_memory ch dev b ok s).1 a
      _ = s.wordAt a := (s.wordAt_storeWord _ _ a hw).trans (if_neg fun h => ha h.1)

/-- Settles O47: the request is served, the byte is the last or not, and the flag for chaining is not read. -/
theorem channelByte : Obligations.ChannelByte := by
  rintro s d dev ch _ _ h20 hmask hdc hrun hf hb hch rfl rfl hpos hno
  have hlt := channelOf_some hch
  have hcount : iocdCount s.cfg (s.getChannel (oddReg ch)) ≠ 0 := mt (iocdCount_eq_zero_iff hmask _).1 (by omega)
  refine ⟨fun b ok hw ho => ?input, fun hp ho => ?output⟩
  case input =>
    rw [applyInput_service hrun, serviceDevice_data hf hb hch ho, serviceByte_unchained hlt h20 hmask hpos hdc dev _ hno]
    have hframe := byteServed_input_frame ch dev b ok s
    have hcounted := channelCounted_byteServed hlt h20 hmask hpos dev (.input b ok)
    obtain ⟨hstored, hkept, hparity⟩ := inputByte_stored hw ch dev b ok rfl rfl rfl
    generalize byteServed ch dev (.input b ok) s = t at hframe hcounted hstored hkept hparity
    refine ⟨_, rfl, ?_, hstored, hkept, hparity, hcounted.congr rfl rfl⟩
    rw [hframe]
  case output =>
    have hserve : d.order = .notAwaited ∨ d.order = .memory ∧ d.own.automatic = true ∧ Transfer.output = .output := by
      cases hd : d.order with
      | notAwaited => exact .inl rfl
      | memory => exact .inr ⟨rfl, ho.resolve_right (by simp [hd]), rfl⟩
      | processor => exact absurd hd hp
    obtain ⟨ds, hserved, hdevice, hothers⟩ := serviceDevice_serves hf hb hch hcount hserve
    rw [applyInput_service hrun, hserved, serviceByte_unchained (s := { s with devices := ds }) hlt h20 hmask hpos hdc dev _ hno]
    have hframe := byteServed_output ch dev { s with devices := ds }
    have hcounted := channelCounted_byteServed (s := { s with devices := ds }) hlt h20 hmask hpos dev .output
    generalize byteServed ch dev .output { s with devices := ds } = t at hframe hcounted
    have hdevices : t.devices = ds := congrArg State.devices hframe
    refine ⟨_, rfl, ?_, (State.findDevice_congr hdevices _).trans hdevice,
      fun n hn => (State.findDevice_congr hdevices n).trans (hothers n hn), hcounted.congr rfl rfl⟩
    rw [hframe]
    rfl

end Sys2Proof.Machine
end

section
/-! Data chaining (R270, R271): what the doubleword after the table replaces, then the last byte of a chained table. -/

namespace Sys2Proof.Machine

/-- The state after data chaining: the interrupt of the completed doubleword, then both registers from the next one (R270, R271). -/
def chained (ch : Nat) (dev : Byte) (s : State) : State :=
  ((if s.getChannel (oddReg ch) &&& s.cfg.iocdI = 0 then s else s.raiseDevice dev).setChannel (evenReg ch)
    (s.wordAt (s.getChannel (evenReg ch)))).setChannel (oddReg ch) (s.wordAt (s.getChannel (evenReg ch) + 1))

theorem chain_eq (ch : Nat) (dev : Byte) (s : State) :
    chain ch dev s =
      if iocdCount s.cfg (s.wordAt (s.getChannel (evenReg ch) + 1)) = 0 then .error .chainedCountZero
      else .ok (chained ch dev s) := rfl

theorem chained_eq (ch : Nat) (dev : Byte) (s : State) :
    chained ch dev s = { s with chan := (chained ch dev s).chan, devices := (chained ch dev s).devices } := by
  rw [chained, State.setChannel_eq, State.setChannel_eq, (raiseDevice_unless s dev _).1]

theorem getChannel_chained {s : State} {ch : Nat} (dev : Byte) (hlt : ch < s.cfg.channels) (h20 : s.cfg.channels ≤ 20) {n : Nat}
    (hn : 8 ≤ n) (hn' : n < 48) :
    (chained ch dev s).getChannel n =
      if n = oddReg ch then s.wordAt (s.getChannel (evenReg ch) + 1)
      else if n = evenReg ch then s.wordAt (s.getChannel (evenReg ch))
      else s.getChannel n := by
  obtain ⟨hframe, -⟩ := raiseDevice_unless s dev (s.getChannel (oddReg ch) &&& s.cfg.iocdI = 0)
  rw [chained]
  generalize (if s.getChannel (oddReg ch) &&& s.cfg.iocdI = 0 then s else s.raiseDevice dev) = u at hframe
  have hcfg : u.cfg = s.cfg := by rw [hframe]
  have hchan : u.chan = s.chan := by rw [hframe]
  rw [getChannel_setRegs u (hcfg.symm ▸ hlt) (hcfg.symm ▸ h20) _ _ hn hn', State.getChannel_congr hchan n]

theorem findDevice_chained (ch : Nat) (dev n : Byte) (s : State) :
    (chained ch dev s).findDevice n = (s.findDevice n).map fun d =>
      if n = dev then { d with pending := d.pending || decide (¬ s.getChannel (oddReg ch) &&& s.cfg.iocdI = 0) } else d := by
  obtain ⟨-, hdevice⟩ := raiseDevice_unless s dev (s.getChannel (oddReg ch) &&& s.cfg.iocdI = 0)
  refine (State.findDevice_congr ?_ n).trans (hdevice n)
  rw [chained, State.setChannel_devices, State.setChannel_devices]

/-! The last byte of a table whose chaining flag is set, the masks at their default places. -/

section LastByte

variable {s : State} {ch : Nat} (hlt : ch < s.cfg.channels) (h20 : s.cfg.channels ≤ 20) (hmask : s.cfg.iocdCount = 0x1FFF)
  (hlast : (s.getChannel (oddReg ch)).toNat % 8192 = 1)
include hlt h20 hmask hlast

/-- The last byte is a right-hand byte, so the address has moved on to the doubleword after the table. -/
theorem evenReg_lastByte (dev : Byte) (tr : Transfer) :
    (byteServed ch dev tr s).getChannel (evenReg ch) = s.getChannel (evenReg ch) + 1 := by
  obtain ⟨heven, -⟩ := channelCounted_byteServed hlt h20 hmask (by omega) dev tr
  rw [heven, if_pos (by omega)]

/-- The doubleword after the table is read as it was before the byte was moved. -/
theorem doubleword_lastByte (hw : s.mem.wf) (dev : Byte) (tr : Transfer) :
    (byteServed ch dev tr s).wordAt ((byteServed ch dev tr s).getChannel (evenReg ch)) =
        s.wordAt (s.getChannel (evenReg ch) + 1) ∧
      (byteServed ch dev tr s).wordAt ((byteServed ch dev tr s).getChannel (evenReg ch) + 1) =
        s.wordAt (s.getChannel (evenReg ch) + 2) := by
  have hnext : s.getChannel (evenReg ch) + 1 + 1 = s.getChannel (evenReg ch) + 2 := add_assoc _ _ _
  rw [evenReg_lastByte hlt h20 hmask hlast, hnext]
  exact ⟨wordAt_byteServed hw ch dev tr (by bv_omega), wordAt_byteServed hw ch dev tr (by bv_omega)⟩

theorem serviceByte_lastByte (hw : s.mem.wf) (hdc : s.cfg.iocdDc = 0x4000) (hflag : (s.getChannel (oddReg ch)).getMsbD 1 = true)
    (dev : Byte) (tr : Transfer) :
    serviceByte ch dev tr s =
      if (s.wordAt (s.getChannel (evenReg ch) + 2)).toNat % 8192 = 0 then .error .chainedCountZero
      else .ok (chained ch dev (byteServed ch dev tr s)) := by
  have hcfg := byteServed_cfg ch dev tr s
  obtain ⟨-, hnext⟩ := doubleword_lastByte hlt h20 hmask hlast hw dev tr
  rw [serviceByte_chained hlt h20 hmask (by omega) hdc dev tr hlast hflag, chain_eq, hnext]
  simp only [iocdCount_eq_zero_iff (hcfg.symm ▸ hmask)]

/-- The channel registers after chaining (R270). -/
theorem getChannel_chained_lastByte (hw : s.mem.wf) (dev : Byte) (tr : Transfer) {t : State}
    (ht : t = chained ch dev (byteServed ch dev tr s)) :
    t.getChannel (evenReg ch) = s.wordAt (s.getChannel (evenReg ch) + 1) ∧
      t.getChannel (oddReg ch) = s.wordAt (s.getChannel (evenReg ch) + 2) ∧
      ∀ n, n ≠ evenReg ch → n ≠ oddReg ch → 8 ≤ n → n < 48 → t.getChannel n = s.getChannel n := by
  subst ht
  obtain ⟨⟨he, he'⟩, ho, ho'⟩ := channelRegs_bounds hlt h20
  obtain ⟨heven, hodd⟩ := doubleword_lastByte hlt h20 hmask hlast hw dev tr
  obtain ⟨-, -, hothers⟩ := channelCounted_byteServed hlt h20 hmask (by omega) dev tr
  have hcfg := byteServed_cfg ch dev tr s
  have hget := fun n => getChannel_chained (s := byteServed ch dev tr s) dev (hcfg.symm ▸ hlt) (hcfg.symm ▸ h20) (n := n)
  refine ⟨?_, ?_, fun n hne hno hn hn' => ?_⟩
  · rw [hget _ he he', if_neg (evenReg_ne_oddReg ch), if_pos rfl, heven]
  · rw [hget _ ho ho', if_pos rfl, hodd]
  · rw [hget n hn hn', if_neg hno, if_neg hne, hothers n hne hno hn hn']

/-- The devices after chaining: the interrupt flag of the completed doubleword asks for a device interrupt (R271). -/
theorem findDevice_chained_lastByte (hint : s.cfg.iocdI = 0x2000) (dev : Byte) (tr : Transfer) (n : Byte) :
    (chained ch dev (byteServed ch dev tr s)).findDevice n = (s.findDevice n).map fun d =>
      if n = dev then { d with pending := d.pending || (s.getChannel (oddReg ch)).getMsbD 2 } else d := by
  have hcfg := byteServed_cfg ch dev tr s
  have hflag := flag_byteServed hlt h20 hmask (by omega) dev tr (.inl rfl) hint
  have hdevices : (byteServed ch dev tr s).devices = s.devices := (stepChannel_devices ch _).trans (moveByte_devices ch dev tr s)
  rw [findDevice_chained, State.findDevice_congr hdevices, hcfg]
  simp only [hflag, Bool.not_eq_false, Bool.decide_eq_true]

end LastByte

/-- Settles O48: the byte is moved, it is the last, and the flag for chaining is set. -/
theorem dataChaining : Obligations.DataChaining := by
  rintro s d dev ch _ _ tr hw h20 hmask hdc hint hrun hf hb hch ho rfl rfl hlast hflag
  have hlt := channelOf_some hch
  have hright : (s.getChannel (oddReg ch)).toNat % 2 = 1 := by omega
  have hcount : iocdCount s.cfg (s.getChannel (oddReg ch)) ≠ 0 := mt (iocdCount_eq_zero_iff hmask _).1 (by omega)
  obtain ⟨ds, hserved, hdevice, hothers⟩ := serviceDevice_serves hf hb hch hcount ho
  have hbyte := serviceByte_lastByte (s := { s with devices := ds }) hlt h20 hmask hlast hw hdc hflag dev tr
  have hregs := getChannel_chained_lastByte (s := { s with devices := ds }) hlt h20 hmask hlast hw dev tr rfl
  have hfind := findDevice_chained_lastByte (s := { s with devices := ds }) hlt h20 hmask hlast hint dev tr
  have hframe := chained_eq ch dev (byteServed ch dev tr { s with devices := ds })
  rw [applyInput_service hrun, hserved, hbyte]
  refine ⟨fun hnew => ?chain, fun hzero => if_pos hzero⟩
  generalize chained ch dev (byteServed ch dev tr { s with devices := ds }) = t at hbyte hregs hfind hframe
  obtain ⟨heven, hodd, hrest⟩ := hregs
  refine ⟨t, if_neg hnew, ?frame, heven, hodd, hrest, ?device, fun n hn => ?devices, ?memory⟩
  case frame => rw [hframe, byteServed_frame]
  case device =>
    rw [hfind, hdevice, Option.map_some, if_pos rfl]
    rfl
  case devices =>
    rw [hfind, ← hothers n hn]
    simp only [if_neg hn, Option.map_id']
  case memory =>
    cases tr with
    | output =>
      have hsent := byteServed_output ch dev { s with devices := ds }
      generalize byteServed ch dev .output { s with devices := ds } = v at hframe hsent
      rw [hframe, hsent]
      exact ⟨rfl, rfl, congrArg (Sent.channelByte dev · :: s.env.sent) (byteAt_right (s := s) hright)⟩
    | input b ok =>
      obtain ⟨hstored, hkept, hparity⟩ := inputByte_stored (s := { s with devices := ds }) hw ch dev b ok rfl hright rfl
      have hsame := byteServed_input_frame ch dev b ok { s with devices := ds }
      generalize byteServed ch dev (.input b ok) { s with devices := ds } = v at hframe hsame hstored hkept hparity
      rw [hframe]
      exact ⟨hstored, hkept, hparity, by rw [hsame]⟩

end Sys2Proof.Machine
end

section
/-! The end of an operation of a channel (R269, R271, R272). -/

namespace Sys2Proof.Machine

theorem toNat_operationalStatus (te il cm ce ue : Bool) :
    (operationalStatus te il cm ce ue).toNat =
      32768 * te.toNat + 16384 * il.toNat + 8192 * cm.toNat + 4096 * ce.toNat + 2048 * ue.toNat := by
  cases te <;> cases il <;> cases cm <;> cases ce <;> cases ue <;> rfl

/-- Settles O49: what `endOperation` leaves, with the even register read as a number. -/
theorem operationEnd : Obligations.OperationEnd := by
  intro s d dev ch te il cm ce ue h20 hrun hf hb hch hop
  have hserve : (d.operates || ue) = true := by
    rw [Bool.or_eq_true, Device.operates_iff]
    exact or_assoc.2 hop
  have hlt := channelOf_some hch
  obtain ⟨⟨he, he'⟩, -⟩ := channelRegs_bounds hlt h20
  have hce : (ce || !te && !ue) = (ce || !(te || ue)) := by rw [Bool.not_or]
  rw [applyInput_ending hrun, hce]
  obtain ⟨hframe, hdevices⟩ := endOperation_all s d dev ch te il cm (ce || !(te || ue)) ue h20 hf hb hserve hch
  generalize endOperation dev te il cm (ce || !(te || ue)) ue s = t at hframe hdevices
  have hget : ∀ n, 8 ≤ n → n < 48 →
      t.getChannel n = if n = evenReg ch then operationalStatus te il cm (ce || !(te || ue)) ue else s.getChannel n := by
    intro n hn hn'
    rw [hframe]
    refine (State.getChannel_setChannel s _ n _ hn hn').trans ?_
    simp only [hasChannelReg_even hlt h20, true_and, eq_comm]
  refine ⟨t, rfl, ?frame, ?status, fun n hne hn hn' => ?others, ?device, fun n hn => ?devices⟩
  case frame =>
    rw [hframe, State.setChannel_eq]
  case status => rw [hget _ he he', if_pos rfl, toNat_operationalStatus]
  case others => rw [hget n hn hn', if_neg hne]
  case device =>
    rw [hdevices, hf, Option.map_some, if_pos rfl]
    simp only [bne, beq_eq_decide, decide_not]
  case devices =>
    rw [hdevices]
    simp only [if_neg hn]

end Sys2Proof.Machine
end

section
/-! Exceptions, the privileged instructions, rule 2 before a fetch, and the step that runs an instruction (R13, R345, R350, R361,
R362). -/

namespace Sys2Proof.Machine

/-- An aborted instruction will be fetched again (R350). -/
theorem AbortedTo.p_eq {l : Level} {s t : State} {w : Bool} (h : AbortedTo l s t w) : t.regs.p = s.h := by
  rw [h.1]

/-- Settles O10: a trigger on the aborted instruction's state, or the halt. -/
theorem exceptionEffects : Obligations.ExceptionEffects := fun s =>
  ⟨abortedTo_protection s, abortedTo_multiply s, abortedTo_divide s, abortedTo_parity s, rfl⟩

/-! Rule 1. -/

theorem privileged_violation {s : State} (he : s.exitCond = false) (hc : ¬ s.MayControl) (t : State) :
    privileged s t = .next (takeTrap .protection s) := by
  rw [privileged, unlessExit_clear he, attempt_error (checkPrivileged_error hc)]

/-- An instruction with an effective address that is privileged ends at rule 1, after its address and before its function (R212). -/
theorem withAddr_violation {m : MemRef} {s : State} {ea : Word} (h : Addresses m s ea) (hc : ¬ s.MayControl) (k : Word → Result) :
    (withAddr m s fun ea => attempt s (checkPrivileged s) fun _ => k ea) = .next (takeTrap .protection s) := by
  rw [withAddr_ok h, attempt_error (checkPrivileged_error hc)]

/-- Settles O28: rule 1 stops RD and WD after their effective address, whose own abort comes first, and the I/O instructions at
once. -/
theorem privilegeViolation : Obligations.PrivilegeViolation := by
  intro m s
  refine ⟨fun ea h hc i hi => ⟨takeTrap .protection s, ?_, abortedTo_protection s⟩,
    fun x he hx => ⟨withAddr_error he hx, withAddr_error he hx⟩⟩
  simp only [List.mem_cons, List.not_mem_nil, or_false] at hi
  rcases hi with rfl | rfl | rfl | rfl | rfl | rfl | rfl
  · exact withAddr_violation h hc (readDirect · s)
  · exact withAddr_violation h hc (writeDirect · s)
  all_goals exact privileged_violation h.1 hc _

/-! Rule 2. -/

theorem fetchCheck_violation {s : State} (ho : s.operative = true) (hb : s.protBit s.h = true) (hp : s.ind.pp = false)
    (hw : s.powerLevelBusy = false) : fetchCheck s = .error .protection := by
  simp [fetchCheck, ho, hb, hp, hw]

theorem fetchCheck_passes {s : State}
    (h : s.operative = false ∨ s.protBit s.h = false ∨ s.ind.pp = true ∨ s.powerLevelBusy = true) :
    fetchCheck s = .ok { s with ind.pp := if s.cfg.protect then s.protBit s.h else s.ind.pp } := by
  have hn : (s.operative && s.protBit s.h && !s.ind.pp && !s.powerLevelBusy) = false := by
    rcases h with h | h | h | h <;> simp [h]
  cases hp : s.cfg.protect <;> simp [fetchCheck, hn, hp, State.setPP]

theorem fetch_rule_two {s : State} {t : Trap} (hr : s.running = true) (hw : s.wff = false)
    (h : fetchCheck (startFetch s) = .error t) : fetch s = .rest (takeTrap t (startFetch s)) := by
  simp [fetch, hr, hw, h]

/-- Settles O6: the fetch check refuses exactly under rule 2, and its exception leaves P where the fetch found it. -/
theorem fetchCheckRuleTwo : Obligations.FetchCheckRuleTwo := by
  intro s hr hw
  refine ⟨fun ho hb hp hbusy => ?_, fun h => fetchCheck_passes (s := startFetch s) h⟩
  have herr : fetchCheck (startFetch s) = .error .protection := fetchCheck_violation (s := startFetch s) ho hb hp hbusy
  refine ⟨takeTrap .protection (startFetch s), fetch_rule_two hr hw herr, abortedTo_protection _, (abortedTo_protection _).p_eq⟩

/-! The fetch of a running processor from memory. -/

/-- The fetch check touches nothing that a checked read looks at. -/
theorem readChecked_of_fetchCheck {s x : State} (h : fetchCheck (startFetch s) = .ok x) :
    readChecked x x.h = readChecked s s.regs.p := by
  rw [fetchCheck_ok h]
  rfl

section Fetch

variable {s x : State} (hr : s.running = true) (hw : s.wff = false) (hd : s.panel.firstFromD = false)
  (hx : fetchCheck (startFetch s) = .ok x)
include hr hw hd hx

theorem fetch_runs {w : Word} (h : readChecked s s.regs.p = .ok w) : fetch s = .run w (x.setReg .p (nextP x)) := by
  simp [fetch, hr, hw, hx, instructionWord, hd, readChecked_of_fetchCheck hx, h]

theorem fetch_aborts {e : Trap} (h : readChecked s s.regs.p = .error e) : fetch s = .rest (takeTrap e x) := by
  simp [fetch, hr, hw, hx, instructionWord, hd, readChecked_of_fetchCheck hx, h]

end Fetch

theorem step_of_fetch_run {s u v : State} {w : Word} (hs : takeInputs s = .ok u) (hf : fetch (recognition u) = .run w v) :
    step s = afterInstruction (exec (decode w) v) := by
  simp only [step, hs, hf]

theorem step_of_fetch_rest {s u v : State} (hs : takeInputs s = .ok u) (hf : fetch (recognition u) = .rest v) :
    step s = .next (endStep v) := by
  simp only [step, hs, hf]

/-- The two bytes of a word give the instruction the word decodes to. -/
theorem decode_readWord {m : Memory} {a : Nat} {i : Instr}
    (h : decodeBytes [m.readByte (2 * a), m.readByte (2 * a + 1)] = .ok (i, [])) : decode (m.readWord a) = i := by
  simpa [decodeBytes, Memory.readWord] using h

theorem nextP_of_fetchCheck {s x : State} (h : fetchCheck (startFetch s) = .ok x) (hp : x.panel.progAddHold = false) :
    nextP x = x.h + 1 := by
  have hpc : x.regs.p = x.h := by rw [fetchCheck_ok h]; rfl
  simp [nextP, hp, hpc]

/-- With no abort of the Watchdog Timer noted, the end of an instruction notes none (R380). -/
theorem tickWatchdog_quiet {s : State} (ha : s.watchdog.aborted = false) (hd : s.watchdog.signalDue = false) :
    s.tickWatchdog = s := by
  calc s.tickWatchdog
      = { s with watchdog.aborted := s.watchdog.aborted, watchdog.signalDue := s.watchdog.signalDue } := by
        rw [State.tickWatchdog, hd, ha]
    _ = s := rfl

theorem afterInstruction_quiet {s : State} (ha : s.watchdog.aborted = false) (hd : s.watchdog.signalDue = false) :
    afterInstruction (.next s) = .next (endStep s) := by
  rw [afterInstruction, countWatchdog_not_due hd, tickWatchdog_quiet ha hd]

/-- Settles O4: the fetch hands the word at P to the decoder, or takes the abort of its parity event. -/
theorem stepRunsDecodedInstruction : Obligations.StepRunsDecodedInstruction := by
  intro s u x hs hr hw hd hx
  have hrun : ∀ w, readChecked (recognition u) (recognition u).regs.p = .ok w →
      step s = afterInstruction (exec (decode w) (x.setReg .p (nextP x))) :=
    fun w h => step_of_fetch_run hs (fetch_runs hr hw hd hx h)
  refine ⟨fun i he hp hi => ?bytes, hrun, fun e h => step_of_fetch_rest hs (fetch_aborts hr hw hd hx h), ?h,
    nextP_of_fetchCheck hx, fun t => afterInstruction_quiet, fun t => endStep_of_not_step, fun t ht => ?compute⟩
  case bytes =>
    have hgood : (recognition u).parityEvent (recognition u).regs.p = false := by simp [State.parityEvent, he, hp]
    rw [hrun _ (readChecked_good hgood), State.wordAt_of_exists he, decode_readWord hi]
  case h =>
    rw [fetchCheck_ok hx]
    rfl
  case compute => rw [applyInput, endStep, if_pos ht]

end Sys2Proof.Machine
end

section
/-! The selection of a level, the order of the priority chain, and the signals at the levels (R312 to R315, R326, R327, R330,
R331). -/

namespace Sys2Proof.Machine

/-! The selected level. -/

theorem eligible_iff {s : State} {l : Level} :
    eligible s l = true ↔ (s.level l).state = .waiting ∧ (s.level l).enabled = true ∧ inhibited s l = false := by
  simp [eligible, and_assoc]

theorem isActive_iff {s : State} {l : Level} : isActive s l = true ↔ (s.level l).state = .active := by
  simp [isActive]

theorem takeWhile_ne_append_cons {above below : List Level} {w : Level} (h : w ∉ above) :
    (above ++ w :: below).takeWhile (· ≠ w) = above := by
  have hne : ∀ x ∈ above, decide (x ≠ w) = true := fun x hx => by
    rw [decide_eq_true_eq]
    rintro rfl
    exact h hx
  rw [List.takeWhile_append_of_pos hne]
  simp

/-- The selected level stands in the chain behind levels none of which is active or eligible, and is eligible (R331). -/
theorem select_eq_some_iff {s : State} {w : Level} :
    select s = some w ↔
      ∃ above below, priorityChain s.cfg = above ++ w :: below ∧ eligible s w = true ∧
        ∀ x ∈ above, isActive s x = false ∧ eligible s x = false := by
  constructor
  · intro h
    obtain ⟨hmem, he, hbefore⟩ := select_some h
    obtain ⟨above, below, hchain, hnew⟩ := List.eq_append_cons_of_mem hmem
    rw [hchain, takeWhile_ne_append_cons hnew] at hbefore
    exact ⟨above, below, hchain, he, hbefore⟩
  · rintro ⟨above, below, hchain, he, hbefore⟩
    have hfind : (priorityChain s.cfg).find? (eligible s) = some w :=
      List.find?_eq_some_iff_append.2 ⟨he, above, below, hchain, fun x hx => by simp [(hbefore x hx).2]⟩
    have hnew : w ∉ above := fun hw => by simp [(hbefore w hw).2] at he
    have hactive : above.any (isActive s) = false := List.any_eq_false.2 fun x hx => by simp [(hbefore x hx).1]
    rw [select, hfind]
    simp only [hchain, takeWhile_ne_append_cons hnew, hactive, Bool.false_eq_true, if_false]

/-! The chain of an installation within the ranges of R6. -/

theorem groupOrder_of_wf {c : Config} (h : c.wf = true) :
    c.groupOrder.Nodup ∧ .inputOutput ∈ c.groupOrder ∧
      ∀ g, c.externals.get g ≠ 0 → .external g ∈ c.groupOrder := by
  simp only [Config.wf, Bool.and_eq_true, decide_eq_true_eq, List.contains_iff_mem, List.all_eq_true, List.mem_finRange, true_imp_iff,
    Bool.or_eq_true, beq_iff_eq] at h
  obtain ⟨⟨⟨⟨⟨⟨⟨⟨⟨⟨⟨-, hnodup⟩, hio⟩, hext⟩, -⟩, -⟩, -⟩, -⟩, -⟩, -⟩, -⟩, -⟩ := h
  exact ⟨hnodup, hio, fun g hg => (hext g).resolve_left hg⟩

/-- The group of Table 2 a level stands in, none for the override and counter levels (R312). -/
def levelGroup : Level → Option Group
  | .powerOn | .powerOff | .counter _ | .memoryParity | .protection | .multiply | .divide => none
  | .inputOutput | .controlPanel | .counterZero _ | .integral _ => some .inputOutput
  | .external g _ => some (.external g)

/-- The place of a level within its group, or among the ten override and counter levels (R312). -/
def placeInGroup : Level → Nat
  | .powerOn => 0
  | .powerOff => 1
  | .counter n => 5 - n.val
  | .memoryParity => 6
  | .protection => 7
  | .multiply => 8
  | .divide => 9
  | .inputOutput => 0
  | .controlPanel => 1
  | .counterZero n => 5 - n.val
  | .integral n => 6 + n.val
  | .external _ i => i.val

theorem placeInGroup_lt (l : Level) : placeInGroup l < 16 := by
  cases l <;> simp only [placeInGroup] <;> omega

theorem chainPlace_of_group {c : Config} {l : Level} {g : Group} (h : levelGroup l = some g) :
    chainPlace c l = 16 * (c.groupOrder.idxOf g + 1) + placeInGroup l := by
  cases l <;> cases h <;> simp only [chainPlace, placeInGroup] <;> omega

theorem chainPlace_of_no_group {c : Config} {l : Level} (h : levelGroup l = none) : chainPlace c l = placeInGroup l := by
  cases l <;> first | rfl | cases h

theorem mem_overrideAndCounterLevels_iff {l : Level} : l ∈ overrideAndCounterLevels ↔ levelGroup l = none := by
  cases l with
  | counter n => revert n; decide
  | counterZero n => revert n; decide
  | integral n => revert n; decide
  | external g i => simp [overrideAndCounterLevels, levelGroup]
  | _ => decide

theorem mem_groupLevels_iff {g : Group} {l : Level} : l ∈ groupLevels g ↔ levelGroup l = some g := by
  cases g with
  | external g => cases l <;> simp [groupLevels, levelGroup, eq_comm]
  | inputOutput =>
    cases l with
    | counter n => revert n; decide
    | counterZero n => revert n; decide
    | integral n => revert n; decide
    | external g i => simp [groupLevels, levelGroup]
    | _ => decide

theorem overrideAndCounterLevels_ordered : overrideAndCounterLevels.Pairwise fun x y => placeInGroup x < placeInGroup y := by
  decide

/-- The levels of a group stand in the order of Table 2 (R312). -/
theorem groupLevels_ordered (g : Group) : (groupLevels g).Pairwise fun x y => placeInGroup x < placeInGroup y := by
  cases g with
  | inputOutput => decide
  | external g => exact List.pairwise_map.2 (List.pairwise_lt_finRange 16)

theorem pairwise_idxOf {l : List Group} (h : l.Nodup) : l.Pairwise fun x y => l.idxOf x < l.idxOf y :=
  List.pairwise_iff_getElem.2 fun i j hi hj hij => by rwa [h.idxOf_getElem, h.idxOf_getElem]

/-- The chain before the absent levels are taken out is in the order of the places (R314). -/
theorem levels_ordered {c : Config} (h : c.groupOrder.Nodup) :
    (overrideAndCounterLevels ++ c.groupOrder.flatMap groupLevels).Pairwise fun x y => chainPlace c x < chainPlace c y := by
  refine List.pairwise_append.2 ⟨?first, List.pairwise_flatMap.2 ⟨fun g _ => ?within, ?between⟩, fun x hx y hy => ?across⟩
  case first =>
    refine overrideAndCounterLevels_ordered.imp_of_mem fun hx hy hlt => ?_
    rwa [chainPlace_of_no_group (mem_overrideAndCounterLevels_iff.1 hx),
      chainPlace_of_no_group (mem_overrideAndCounterLevels_iff.1 hy)]
  case within =>
    refine (groupLevels_ordered g).imp_of_mem fun hx hy hlt => ?_
    rw [chainPlace_of_group (mem_groupLevels_iff.1 hx), chainPlace_of_group (mem_groupLevels_iff.1 hy)]
    omega
  case between =>
    refine (pairwise_idxOf h).imp fun hlt x hx y hy => ?_
    rw [chainPlace_of_group (mem_groupLevels_iff.1 hx), chainPlace_of_group (mem_groupLevels_iff.1 hy)]
    have := placeInGroup_lt x
    omega
  case across =>
    obtain ⟨g, -, hg⟩ := List.mem_flatMap.1 hy
    rw [chainPlace_of_no_group (mem_overrideAndCounterLevels_iff.1 hx), chainPlace_of_group (mem_groupLevels_iff.1 hg)]
    have := placeInGroup_lt x
    omega

/-- The group of an installed level is a group of the installation's order. -/
theorem levelGroup_mem_groupOrder {c : Config} (h : c.wf = true) {l : Level} {g : Group} (hi : installed c l = true)
    (hg : levelGroup l = some g) : g ∈ c.groupOrder := by
  obtain ⟨-, hio, hext⟩ := groupOrder_of_wf h
  cases l <;> cases hg
  case external g i =>
    refine hext g fun h0 => ?_
    simp [installed, h0] at hi
  all_goals exact hio

theorem mem_priorityChain_iff {c : Config} (h : c.wf = true) {l : Level} : l ∈ priorityChain c ↔ installed c l = true := by
  refine ⟨fun hl => (List.mem_filter.1 hl).2, fun hi => List.mem_filter.2 ⟨List.mem_append.2 ?_, hi⟩⟩
  cases hg : levelGroup l with
  | none => exact .inl (mem_overrideAndCounterLevels_iff.2 hg)
  | some g => exact .inr (List.mem_flatMap.2 ⟨g, levelGroup_mem_groupOrder h hi hg, mem_groupLevels_iff.2 hg⟩)

/-- Settles O50: the selected level by its place in the chain, and the chain as the installed levels in rising places. -/
theorem levelSelection : Obligations.LevelSelection := by
  refine ⟨fun s w => ?_, fun c h => ⟨fun l => mem_priorityChain_iff h, (levels_ordered (groupOrder_of_wf h).1).filter _⟩⟩
  simp only [select_eq_some_iff, eligible_iff, ← Bool.not_eq_true, isActive_iff, and_assoc]

/-! Signals. -/

theorem applyInput_signal {l : Level} (h : externallySignalled l = true) (s : State) :
    ∃ t, applyInput (.signal l) s = .ok t ∧ t = { s with levels := t.levels } ∧ LevelSignalled l s t :=
  ⟨trigger l s, by rw [applyInput, if_pos h], trigger_eq l s, levelSignalled_trigger l s⟩

theorem holdIoSignal_pending {s : State} (h : ∃ d ∈ s.devices, d.pending = true) : holdIoSignal s = trigger .inputOutput s :=
  if_pos (List.any_eq_true.2 h)

theorem holdIoSignal_eq (s : State) : holdIoSignal s = { s with levels := (holdIoSignal s).levels } := by
  unfold holdIoSignal
  split
  · exact trigger_eq _ s
  · rfl

/-- Settles O51: a trigger for each level with a signal from outside, and the held signal after the batch. -/
theorem levelSignals : Obligations.LevelSignals := by
  refine ⟨fun s l => ?outside, fun s u hu => ⟨holdIoSignal u, by rw [takeInputs, hu], holdIoSignal_eq u, fun hp => ?pending,
    holdIoSignal_none⟩⟩
  case outside =>
    cases l with
    | powerOn | powerOff | counter | controlPanel | integral | external => exact applyInput_signal rfl s
    | memoryParity | protection | multiply | divide | inputOutput | counterZero => rfl
  case pending =>
    rw [holdIoSignal_pending hp]
    exact levelSignalled_trigger .inputOutput u

end Sys2Proof.Machine
end

section
/-! Interrupt recognition: the service of a counter, the entry to a normal level, and the bound on their number (R340, R341, R345,
R346). -/

namespace Sys2Proof.Machine

theorem recognition_applies {s : State} (hr : s.running = true) (he : s.exitCond = false) (hd : s.panel.firstFromD = false) :
    recognition s = recognise 5 s := by
  simp [recognition, hr, he, hd]

theorem recognise_counter {s : State} {n : Fin 4} (h : select s = some (.counter n)) (k : Nat) :
    recognise (k + 1) s = recognise k (serviceCounter n s) := by
  rw [recognise, h]

theorem recognise_entry {s : State} {l : Level} (h : select s = some l) (hn : ∀ n, l ≠ .counter n) (k : Nat) :
    recognise (k + 1) s = enterLevel l s := by
  rw [recognise, h]
  cases l with
  | counter n => exact absurd rfl (hn n)
  | _ => rfl

/-! The service of a counter. -/

/-- The location of a counter (R312). -/
def counterLocation (n : Fin 4) : Word := BitVec.ofNat 16 (0xFF - n.val)

/-- What the service of a counter leaves in its location (R340). -/
def counterNext (n : Fin 4) (s : State) : Word := s.wordAt (counterLocation n) + 1

/-- The service of a counter before the signal of its counter-equals-zero level (R340). -/
def counterStored (n : Fin 4) (s : State) : State :=
  (State.storeWord { s.setLevelState (.counter n) .active with wff := false } (counterLocation n) (counterNext n s)).setLevelState
    (.counter n) .armed

theorem serviceCounter_eq_counterStored (n : Fin 4) (s : State) :
    serviceCounter n s = if counterNext n s = 0 then trigger (.counterZero n) (counterStored n s) else counterStored n s := rfl

theorem counterStored_eq (n : Fin 4) (s : State) :
    counterStored n s =
      { s with
        wff := false, levels := (counterStored n s).levels, mem := (counterStored n s).mem
        badParity := (counterStored n s).badParity } := by
  rw [counterStored, State.storeWord_eq]
  rfl

/-- The store of the service is one of the state before it: it depends on memory and its size alone. -/
theorem wordStored_counterStored {s : State} (h : s.mem.wf) (n : Fin 4) :
    WordStored s (counterStored n s) (counterLocation n) (counterNext n s) :=
  wordStored_storeWord { s.setLevelState (.counter n) .active with wff := false } (counterLocation n) (counterNext n s) h

/-- A counter is active only within its service, which leaves it armed, its enable as it was (R340). -/
theorem level_counterStored (n : Fin 4) (s : State) (l : Level) :
    (counterStored n s).level l = if l = .counter n then { s.level l with state := .armed } else s.level l := by
  have hactive : ∀ k, State.level
      (State.storeWord { s.setLevelState (.counter n) .active with wff := false } (counterLocation n) (counterNext n s)) k =
        if k = .counter n then { s.level (.counter n) with state := .active } else s.level k := fun k =>
    (State.level_congr (State.storeWord_levels ..) k).trans (State.level_setLevelState s (.counter n) k .active)
  rw [counterStored, State.level_setLevelState, hactive, hactive, if_pos rfl]
  by_cases hl : l = .counter n
  · rw [if_pos hl, if_pos hl, hl]
  · rw [if_neg hl, if_neg hl, if_neg hl]

/-- A service changes no more than the wait flip-flop, the levels and memory, with its parity (R340). -/
theorem serviceCounter_eq (n : Fin 4) (s : State) :
    serviceCounter n s =
      { s with
        wff := false, levels := (serviceCounter n s).levels, mem := (serviceCounter n s).mem
        badParity := (serviceCounter n s).badParity } := by
  rw [serviceCounter_eq_counterStored]
  split
  · rw [trigger_eq, counterStored_eq]
  · exact counterStored_eq n s

theorem wordStored_serviceCounter {s : State} (h : s.mem.wf) (n : Fin 4) :
    WordStored s (serviceCounter n s) (counterLocation n) (counterNext n s) := by
  rw [serviceCounter_eq_counterStored]
  split
  · rw [trigger_eq]
    exact wordStored_counterStored h n
  · exact wordStored_counterStored h n

theorem level_serviceCounter (n : Fin 4) (s : State) (l : Level) :
    (serviceCounter n s).level l =
      if l = .counter n then { s.level l with state := .armed }
      else if l = .counterZero n ∧ counterNext n s = 0 ∧ installed s.cfg l = true ∧ (s.level l).state = .armed then
        { s.level l with state := .waiting }
      else s.level l := by
  have hcfg : (counterStored n s).cfg = s.cfg := by rw [counterStored_eq]
  have hzero : (counterStored n s).level (.counterZero n) = s.level (.counterZero n) := by
    rw [level_counterStored, if_neg (by simp)]
  rw [serviceCounter_eq_counterStored]
  by_cases hv : counterNext n s = 0
  · rw [if_pos hv, level_trigger, hcfg, hzero, level_counterStored]
    by_cases hl : l = .counterZero n
    · subst hl
      simp [hv]
    · simp [hl]
  · rw [if_neg hv, level_counterStored]
    simp only [hv, false_and, and_false, if_false]

theorem running_serviceCounter (n : Fin 4) (s : State) : (serviceCounter n s).running = s.running := by
  simp [State.running, State.computeMode]

/-! The number of services. -/

/-- The counters whose level waits. -/
def waitingCounters (s : State) : Finset (Fin 4) := Finset.univ.filter fun n => (s.level (.counter n)).state = .waiting

theorem mem_waitingCounters {s : State} {n : Fin 4} : n ∈ waitingCounters s ↔ (s.level (.counter n)).state = .waiting := by
  simp [waitingCounters]

theorem card_waitingCounters_le (s : State) : (waitingCounters s).card ≤ 4 := Finset.card_le_univ _

/-- A service takes its counter out of the waiting ones and brings none in (R340). -/
theorem waitingCounters_serviceCounter (n : Fin 4) (s : State) :
    waitingCounters (serviceCounter n s) = (waitingCounters s).erase n := by
  ext k
  rw [Finset.mem_erase, mem_waitingCounters, mem_waitingCounters, level_serviceCounter]
  by_cases hk : k = n
  · simp [hk]
  · simp [hk]

theorem card_waitingCounters_lt {s : State} {n : Fin 4} (h : select s = some (.counter n)) :
    (waitingCounters (serviceCounter n s)).card < (waitingCounters s).card := by
  have hw : (s.level (.counter n)).state = .waiting := (eligible_iff.1 (select_some h).2.1).1
  rw [waitingCounters_serviceCounter]
  exact Finset.card_erase_lt_of_mem (mem_waitingCounters.2 hw)

/-- One round more changes nothing once the rounds exceed the waiting counters. -/
theorem recognise_succ {s : State} {k : Nat} (h : (waitingCounters s).card < k) : recognise (k + 1) s = recognise k s := by
  induction k generalizing s with
  | zero => exact absurd h (Nat.not_lt_zero _)
  | succ k ih =>
    cases hs : select s with
    | none => rw [recognise_of_select_none hs, recognise_of_select_none hs]
    | some l =>
      by_cases hl : ∃ n, l = .counter n
      · obtain ⟨n, rfl⟩ := hl
        have hlt := card_waitingCounters_lt hs
        rw [recognise_counter hs, recognise_counter hs, ih (by omega)]
      · rw [not_exists] at hl
        rw [recognise_entry hs hl, recognise_entry hs hl]

/-- Settles O54: at most four counters wait, and each service takes one away. -/
theorem recognitionEnds : Obligations.RecognitionEnds := by
  intro s k
  induction k with
  | zero => rfl
  | succ k ih =>
    have hle := card_waitingCounters_le s
    rw [show k + 1 + 5 = k + 5 + 1 by omega, recognise_succ (by omega), ih]

/-- Settles O53: what one service leaves, and that recognition goes on from it as from any state. -/
theorem counterService : Obligations.CounterService := by
  refine ⟨fun s n h => ⟨serviceCounter_eq n s, wordStored_serviceCounter h n, level_serviceCounter n s⟩,
    fun s hr he hd => ⟨fun n hs => ?_, recognition_of_select_none⟩⟩
  rw [recognition_applies hr he hd,
    recognition_applies ((running_serviceCounter n s).trans hr) ((serviceCounter_exitCond n s).trans he) (by simpa using hd),
    ← recognise_counter hs]
  exact (recognitionEnds s 1).symm

/-! The entry to a normal level. -/

/-- Two words stored one after the other at neighbouring addresses: both are there, the parity of both is good, and no other byte
changes (R60, R63, R65). -/
theorem doubleword_stored {s : State} (h : s.mem.wf) (q v w : Word) :
    let t := (s.storeWord q v).storeWord (q + 1) w
    (s.existsAt q = true → t.mem.readWord q.toNat = v) ∧
      (s.existsAt (q + 1) = true → t.mem.readWord (q + 1).toNat = w) ∧
      ParityMended s t [q, q + 1] ∧
      ∀ b, (s.existsAt q = true → b / 2 ≠ q.toNat) → (s.existsAt (q + 1) = true → b / 2 ≠ (q + 1).toNat) →
        t.mem.readByte b = s.mem.readByte b := by
  intro t
  have hex : ∀ a, (s.storeWord q v).existsAt a = s.existsAt a := fun a => by simp [State.existsAt]
  obtain ⟨hword, hbyte, hparity⟩ := wordStored_storeWord s q v h
  obtain ⟨hword', hbyte', hparity'⟩ := wordStored_storeWord (s.storeWord q v) (q + 1) w (s.wf_storeWord q v h)
  simp only [hex] at hword' hbyte' hparity'
  refine ⟨fun hq => ?first, hword', fun k => ?parity, fun b hb hb' => ?others⟩
  case first =>
    have hne : q.toNat ≠ (q + 1).toNat := by bv_omega
    rw [← hword hq, Memory.readWord, Memory.readWord, hbyte' _ fun _ => by omega, hbyte' _ fun _ => by omega]
  case parity =>
    rw [hparity', hparity]
    simp [and_assoc]
  case others =>
    rw [hbyte' b fun hq => by have := hb' hq; omega, hbyte b fun hq => by have := hb hq; omega]

/-- The routine of a level begins behind the doubleword its dedicated location points at (R346). -/
def routineAddress (l : Level) (s : State) : Word := s.wordAt (BitVec.ofNat 16 (levelLocation l))

/-- The state in which the entry stores the status word and P. -/
def levelActive (l : Level) (s : State) : State := { s.setLevelState l .active with wff := false }

/-- The entry's doubleword stored. -/
def statusStored (l : Level) (s : State) : State :=
  ((levelActive l s).storeWord (routineAddress l s) (statusWord s.ind)).storeWord (routineAddress l s + 1) s.regs.p

theorem enterLevel_eq_statusStored (l : Level) (s : State) :
    enterLevel l s = ((statusStored l s).setReg .p (routineAddress l s + 2)).setPP true := rfl

theorem statusStored_eq (l : Level) (s : State) :
    statusStored l s =
      { levelActive l s with mem := (statusStored l s).mem, badParity := (statusStored l s).badParity } := by
  rw [statusStored, State.storeWord_eq, State.storeWord_eq]

theorem enterLevel_eq (l : Level) (s : State) :
    enterLevel l s =
      { s with
        regs.p := routineAddress l s + 2, ind.pp := s.cfg.protect, wff := false, levels := (enterLevel l s).levels
        mem := (enterLevel l s).mem, badParity := (enterLevel l s).badParity } := by
  rw [enterLevel_eq_statusStored, statusStored_eq, State.setPP, Bool.and_true]
  rfl

theorem level_enterLevel (l : Level) (s : State) (k : Level) :
    (enterLevel l s).level k = if k = l then { s.level l with state := .active } else s.level k := by
  rw [enterLevel_eq_statusStored, statusStored_eq]
  exact State.level_setLevelState s l k .active

theorem doubleword_enterLevel {s : State} (h : s.mem.wf) (l : Level) :
    let q := routineAddress l s
    let t := enterLevel l s
    (s.existsAt q = true → t.mem.readWord q.toNat = statusWord s.ind) ∧
      (s.existsAt (q + 1) = true → t.mem.readWord (q + 1).toNat = s.regs.p) ∧
      ParityMended s t [q, q + 1] ∧
      ∀ b, (s.existsAt q = true → b / 2 ≠ q.toNat) → (s.existsAt (q + 1) = true → b / 2 ≠ (q + 1).toNat) →
        t.mem.readByte b = s.mem.readByte b :=
  doubleword_stored (s := levelActive l s) h (routineAddress l s) (statusWord s.ind) s.regs.p

/-- Settles O52: recognition of a normal level is its entry. -/
theorem interruptEntry : Obligations.InterruptEntry := by
  intro s l hwf hr he hd hs hn q t
  have ht : t = enterLevel l s := (recognition_applies hr he hd).trans (recognise_entry hs hn 4)
  rw [ht, ← statusWord_eq]
  exact ⟨enterLevel_eq l s, level_enterLevel l s, doubleword_enterLevel hwf l⟩

end Sys2Proof.Machine
end

section
/-! A program in unprotected memory is confined (R360, R361, R363, R382): rule 1 stops the instructions that reach the protected
state, rule 3 the stores, and an exception only signals its level. -/

namespace Sys2Proof.Machine

/-- What an instruction in unprotected memory leaves of the guarded state. -/
def Confined (s t : State) : Prop :=
  (∀ a, s.protBit a = true → t.wordAt a = s.wordAt a) ∧
    t.prot = s.prot ∧ t.chan = s.chan ∧ t.devices = s.devices ∧ t.exitCond = false ∧ t.watchdog = s.watchdog ∧
    t.env = s.env ∧ t.ind.pp = s.ind.pp ∧ t.ind.ii = s.ind.ii ∧ t.ind.ei = s.ind.ei ∧
    ∀ l, t.level l = s.level l ∨
      isOverride l = true ∧ (s.level l).state = .armed ∧ t.level l = { s.level l with state := .waiting }

theorem confined_refl {s : State} (he : s.exitCond = false) : Confined s s :=
  ⟨fun _ _ => rfl, rfl, rfl, rfl, he, rfl, rfl, rfl, rfl, rfl, fun _ => .inl rfl⟩

/-! Confinement does not look at the general registers, O and C, which no rule guards. -/

theorem Confined.setReg {s t : State} (h : Confined s t) (r : Reg) (v : Word) : Confined s (t.setReg r v) := by
  rw [State.setReg_eq]
  exact h

theorem Confined.setOC {s t : State} (h : Confined s t) (o c : Bool) : Confined s (t.setOC o c) := h

theorem Confined.setPair {s t : State} (h : Confined s t) (v : BitVec 32) : Confined s (t.setPair v) := (h.setReg .e _).setReg .a _

theorem Confined.shift {s t : State} (h : Confined s t) (spec : Word) : Confined s (shift spec t) := by
  unfold Sys2Proof.Machine.shift
  split
  · exact (h.setPair _).setOC _ _
  · exact (h.setReg .a _).setOC _ _

theorem Confined.copyOp {s t : State} (h : Confined s t) (op : CopyOp) (ac ai cd : Bool) (c : CopyArgs) :
    Confined s (copyOp op ac ai cd c t) := by
  cases op with
  | add => exact (h.setReg _ _).setOC _ _
  | and | or | xor => exact h.setReg _ _

/-! Exceptions and stores. -/

/-- An exception leaves all but its own level (R350, R372). -/
theorem confined_takeTrap (x : Trap) (s : State) : Confined s (takeTrap x s) := by
  have he : (takeTrap x s).exitCond = false := by cases x <;> simp [takeTrap]
  refine ⟨fun a _ => State.wordAt_congr (takeTrap_cfg x s) (takeTrap_mem x s) a, takeTrap_prot x s, takeTrap_chan x s,
    takeTrap_devices x s, he, takeTrap_watchdog x s, takeTrap_env x s, ?pp, ?ii, ?ei, fun l => ?level⟩
  case pp | ii | ei => rw [takeTrap_ind]
  case level => exact (level_takeTrap x s l).imp_right fun ⟨ho, _, ha, hw⟩ => ⟨ho, ha, hw⟩

/-- A store into an unprotected word leaves every protected one (R363). -/
theorem confined_storeWord {s : State} (hm : s.mem.wf) (he : s.exitCond = false) {a : Word} (ha : s.protBit a = false) (v : Word) :
    Confined s (s.storeWord a v) := by
  refine ⟨fun b hb => ?_, ?_⟩
  · have hne : b ≠ a := by
      rintro rfl
      rw [ha] at hb
      cases hb
    rw [State.wordAt_storeWord s a v b hm, if_neg fun h => hne h.1]
  · rw [State.storeWord_eq]
    exact ⟨rfl, rfl, rfl, he, rfl, rfl, rfl, rfl, rfl, fun _ => .inl rfl⟩

theorem protBit_of_mayStore {s : State} {a : Word} (hc : ¬ s.MayControl) (h : s.MayStore a) : s.protBit a = false := by
  simp only [State.MayControl, not_or] at hc
  obtain ⟨ho, hp, hb⟩ := hc
  exact ((h.resolve_left ho).resolve_left hp).resolve_right hb

/-- Rule 3 lets no store into protected memory pass (R363). -/
theorem protBit_of_checkStore {s : State} {a : Word} (hc : ¬ s.MayControl) (h : checkStore s a = .ok ()) : s.protBit a = false := by
  by_contra hp
  have hs : ¬ s.MayStore a := fun hs => hp (protBit_of_mayStore hc hs)
  rw [checkStore_error hs] at h
  cases h

/-! The outcomes. -/

/-- The outcome, if it is a next state at all, is confined. -/
def LeavesConfined (s : State) (r : Result) : Prop := ∀ t, r = .next t → Confined s t

theorem leavesConfined_next {s t : State} (h : Confined s t) : LeavesConfined s (.next t) := by
  rintro u ⟨⟩
  exact h

theorem leavesConfined_attempt {α : Type} {s : State} {r : Except Trap α} {k : α → Result}
    (h : ∀ v, r = .ok v → LeavesConfined s (k v)) : LeavesConfined s (attempt s r k) := by
  intro t ht
  obtain ⟨v, hv, hk⟩ | ⟨x, -, rfl⟩ := attempt_next ht
  · exact h v hv t hk
  · exact confined_takeTrap x s

theorem leavesConfined_unlessExit {s u : State} {k : Result} (h : LeavesConfined s k) : LeavesConfined s (unlessExit u k) :=
  fun t ht => h t (unlessExit_next ht).2

theorem leavesConfined_withAddr {m : MemRef} {s : State} {k : Word → Result} (h : ∀ ea, LeavesConfined s (k ea)) :
    LeavesConfined s (withAddr m s k) :=
  leavesConfined_unlessExit (leavesConfined_attempt fun ea _ => h ea)

theorem leavesConfined_withOperand {m : MemRef} {s : State} {k : Word → Result} (h : ∀ v, LeavesConfined s (k v)) :
    LeavesConfined s (withOperand m s k) :=
  leavesConfined_withAddr fun _ => leavesConfined_attempt fun v _ => h v

theorem leavesConfined_branchIf {s t : State} (h : Confined s t) (taken : Bool) (k : BitVec 9) :
    LeavesConfined s (branchIf taken k t) := by
  refine leavesConfined_unlessExit (leavesConfined_next ?_)
  split
  · exact h.setReg .p _
  · exact h

/-! The instructions rule 1 stops. -/

section Violation

variable {s : State} (hc : ¬ s.MayControl)
include hc

theorem leavesConfined_checkPrivileged (k : Unit → Result) : LeavesConfined s (attempt s (checkPrivileged s) k) := by
  rw [attempt_error (checkPrivileged_error hc)]
  exact leavesConfined_next (confined_takeTrap .protection s)

theorem leavesConfined_privileged (t : State) : LeavesConfined s (privileged s t) :=
  leavesConfined_unlessExit (leavesConfined_checkPrivileged hc _)

/-! The instructions that store. -/

theorem leavesConfined_execSta (hm : s.mem.wf) (he : s.exitCond = false) (m : MemRef) : LeavesConfined s (execSta m s) :=
  leavesConfined_withAddr fun _ => leavesConfined_attempt fun _ hs =>
    leavesConfined_next (confined_storeWord hm he (protBit_of_checkStore hc hs) _)

theorem leavesConfined_execIm (hm : s.mem.wf) (he : s.exitCond = false) (m : MemRef) : LeavesConfined s (execIm m s) :=
  leavesConfined_withAddr fun _ => leavesConfined_attempt fun _ hs => leavesConfined_attempt fun _ _ =>
    leavesConfined_next ((confined_storeWord hm he (protBit_of_checkStore hc hs) _).setOC _ _)

end Violation

/-! The instructions that write registers, O and C only, or take an exception. -/

section Registers

variable {s : State} (he : s.exitCond = false)
include he

theorem leavesConfined_execMul (m : MemRef) : LeavesConfined s (execMul m s) :=
  leavesConfined_withAddr fun _ => leavesConfined_attempt fun _ _ => leavesConfined_attempt fun _ _ =>
    leavesConfined_next (((confined_refl he).setPair _).setOC _ _)

theorem leavesConfined_execDiv (m : MemRef) : LeavesConfined s (execDiv m s) := by
  refine leavesConfined_withAddr fun _ => leavesConfined_attempt fun _ _ => leavesConfined_attempt fun v _ => ?_
  split
  · exact leavesConfined_next ((((confined_refl he).setReg .a _).setReg .e _).setOC _ _)
  · exact leavesConfined_next ((confined_refl he).setOC _ _)

/-- With the exit condition clear LDX loads X1 and does not return from a routine (R123). -/
theorem leavesConfined_execLdx (m : MemRef) : LeavesConfined s (execLdx m s) := by
  refine leavesConfined_attempt fun _ _ => leavesConfined_attempt fun v _ => ?_
  rw [if_neg (by simp [he])]
  exact leavesConfined_next ((confined_refl he).setReg .x1 v)

theorem leavesConfined_branchIndex (k : BitVec 9) : LeavesConfined s (branchIndex k s) :=
  leavesConfined_branchIf ((confined_refl he).setReg .x1 _) _ k

/-- BXNO and BXNC count and branch, or do nothing (R166, R167). -/
theorem leavesConfined_branchIndex_unless (b : Bool) (k : BitVec 9) :
    LeavesConfined s (if b then branchIf false k s else branchIndex k s) := by
  split
  · exact leavesConfined_branchIf (confined_refl he) false k
  · exact leavesConfined_branchIndex he k

theorem leavesConfined_execCopy (op : CopyOp) (ac ai cd : Bool) (c : CopyArgs) : LeavesConfined s (execCopy op ac ai cd c s) :=
  leavesConfined_unlessExit (leavesConfined_next ((confined_refl he).copyOp op ac ai cd c))

end Registers

/-- Every instruction of a program that may not control the machine is confined, while the exit condition is clear. -/
theorem leavesConfined_exec {s : State} (hm : s.mem.wf) (hc : ¬ s.MayControl) (he : s.exitCond = false) (i : Instr) :
    LeavesConfined s (exec i s) := by
  cases i with
  | wd m | rd m => exact leavesConfined_withAddr fun _ => leavesConfined_checkPrivileged hc _
  | sio | tio | tdv | hio | aio => exact leavesConfined_privileged hc _
  | sta m => exact leavesConfined_execSta hc hm he m
  | im m => exact leavesConfined_execIm hc hm he m
  | mul m => exact leavesConfined_execMul he m
  | div m => exact leavesConfined_execDiv he m
  | ldx m => exact leavesConfined_execLdx he m
  | s m => exact leavesConfined_withAddr fun ea => leavesConfined_next ((confined_refl he).shift ea)
  | b m => exact leavesConfined_withAddr fun ea => leavesConfined_next ((confined_refl he).setReg .p ea)
  | lda m | and m => exact leavesConfined_withOperand fun _ => leavesConfined_next ((confined_refl he).setReg .a _)
  | add m | sub m =>
    exact leavesConfined_withOperand fun _ => leavesConfined_next (((confined_refl he).setReg .a _).setOC _ _)
  | cp m => exact leavesConfined_withOperand fun _ => leavesConfined_next ((confined_refl he).setOC _ _)
  | bno k | bnc k | baz k | ben k | ban k => exact leavesConfined_branchIf (confined_refl he) _ k
  | bix k => exact leavesConfined_branchIndex he k
  | bxno k | bxnc k => exact leavesConfined_branchIndex_unless he _ k
  | rcpy c | radd c | ror c | reor c | rand c | rcpyi c | raddi c | rori c | reori c | randi c | rcpyc c | raddc c | rorc c
  | reorc c | randc c | copy op ac ai cd c => exact leavesConfined_execCopy he _ _ _ _ c

/-- Settles O56: an instruction in an unprotected block may not control the machine while no power level is busy. -/
theorem unprotectedProgramIsConfined : Obligations.UnprotectedProgramIsConfined := by
  intro i s t hm ho hp hb he ht
  have hc : ¬ s.MayControl := by simp [State.MayControl, ho, hp, hb]
  exact leavesConfined_exec hm hc he i t ht

end Sys2Proof.Machine
end

section
/-! COMPUTE leaves IDLE, and the first instruction comes from D (R345, R396, R397, R402). -/

namespace Sys2Proof.Machine

/-! The start by the COMPUTE switch or the key. -/

/-- Where the processor saw IDLE and sees it no more, it leaves IDLE (R396, R402). -/
theorem computeEffect_leaves {s t : State} (hs : s.computeMode = .idle) (ht : t.computeMode ≠ .idle) :
    computeEffect s t = leaveIdle t := by
  rw [computeEffect, if_neg (fun h => h.1 hs), if_pos ⟨hs, ht⟩]

/-- With the key unlocked the processor sees COMPUTE move as the switch does. -/
theorem computeEffect_moved {s : State} {c : Compute} (hk : s.panel.key = .unlocked) (hi : s.panel.compute = .idle)
    (hc : c ≠ .idle) : computeEffect s { s with panel.compute := c } = leaveIdle { s with panel.compute := c } :=
  computeEffect_leaves (State.computeMode_idle.2 ⟨hk, hi⟩) fun h => hc (State.computeMode_idle.1 h).2

/-- Moving COMPUTE to RUN leaves IDLE (R396). -/
theorem moveCompute_run_leaves {s : State} (hk : s.panel.key = .unlocked) (hi : s.panel.compute = .idle) :
    moveCompute .run s = leaveIdle { s with panel.compute := .run } :=
  (if_pos hi).trans (computeEffect_moved hk hi (by decide))

/-- Moving COMPUTE to STEP leaves IDLE (R397). -/
theorem moveCompute_step_leaves {s : State} (hk : s.panel.key = .unlocked) (hi : s.panel.compute = .idle) :
    moveCompute .step s = leaveIdle { s with panel.compute := .step } :=
  (if_pos (State.panelOperative_iff.2 ⟨hk, hi⟩)).trans (computeEffect_moved hk hi (by decide))

/-- A parity halt does not end where the processor does not see IGNORE (R42). -/
theorem endParityHalt_of_not_ignore {s : State} (h : s.parityMode ≠ .ignore) : endParityHalt s = s := by
  rw [endParityHalt, beq_false_of_ne h, Bool.not_false, Bool.and_true]

/-- With the key locked the processor sees PARITY ERROR at INTERRUPT (R402), so the turn of the key ends no parity halt. -/
theorem turnKey_locked_leaves {s : State} {k : KeySwitch} (hk : s.panel.key = .unlocked) (hi : s.panel.compute = .idle)
    (hl : k ≠ .unlocked) : turnKey k s = leaveIdle { s with panel.key := k } := by
  have hmode : (leaveIdle { s with panel.key := k }).parityMode = .interrupt := State.parityMode_interrupt (.inl hl)
  rw [turnKey, computeEffect_leaves (State.computeMode_idle.2 ⟨hk, hi⟩) fun h => hl (State.computeMode_idle.1 h).1,
    endParityHalt_of_not_ignore (by simp [hmode])]

/-! The first instruction. -/

/-- Before the first instruction there is no part A (R396). -/
theorem recognition_before_first {s : State} (hd : s.panel.firstFromD = true) : recognition s = s := by
  simp [recognition, hd]

/-- The fetch of the first instruction takes D as it is, without a checked read (R396). -/
theorem fetch_first {s x : State} (hd : s.panel.firstFromD = true) (hr : s.running = true) (hw : s.wff = false)
    (hx : fetchCheck (startFetch s) = .ok x) : fetch s = .run s.panel.dReg (x.setReg .p (nextP x)) := by
  have hD : x.panel.dReg = s.panel.dReg := by
    rw [fetchCheck_ok hx]
    rfl
  simp [fetch, hr, hw, hx, instructionWord, hd, hD]

/-- Settles O5: each of the three moves leaves IDLE, and the fetch that follows takes D and clears the flag. -/
theorem firstInstructionFromD : Obligations.FirstInstructionFromD := by
  refine ⟨fun s hk hi => ⟨?run, ?step, fun k hl => ?key⟩, fun s x hd hr hw hx =>
    ⟨recognition_before_first hd, fetch_first hd hr hw hx, ?h, ?flag⟩⟩
  case run => rw [applyInput, moveCompute_run_leaves hk hi, leaveIdle]
  case step => rw [applyInput, moveCompute_step_leaves hk hi, leaveIdle]
  case key => rw [applyInput, turnKey_locked_leaves hk hi hl, leaveIdle]
  case h | flag =>
    rw [fetchCheck_ok hx]
    rfl

end Sys2Proof.Machine
end
